-- ==== Sys2Proof/Word.lean ====
section
/-! DEFINITION. The word types of spec/00_scope.md R9: bytes, 16-bit values and 32-bit operation words. -/

namespace Sys2Proof

/-- `u8` of R9: every byte is 8 bits and unsigned (R8). -/
abbrev Byte := BitVec 8

/-- `u16` and `s16` of R9: a 16-bit address of the data memory, or the result register. -/
abbrev Half := BitVec 16

/-- An operation word (spec/30_encoding.md R90). -/
abbrev Word := BitVec 32

end Sys2Proof
end

