-- ==== Sys2Proof/Syntax.lean ====
section
/-! DEFINITION. The seven operations of the block (spec/00_scope.md R2, spec/30_encoding.md R92), one constructor
per row of spec/opcode_table.json, and the pseudo-operations of R105. -/

namespace Sys2Proof

/-- An operation with its arguments, each at the width of its field (R93 to R99). -/
inductive Instr where
  /-- `SET_CLOCK speed`: the speed in MHz units (R93). -/
  | setClock (speed : Byte)
  /-- `INIT_UART baud, clockSpeed`: the baud enumeration and the speed in MHz (R94). -/
  | initUart (baud : Byte) (clockSpeed : Byte)
  /-- `UNINIT_UART` (R95). -/
  | uninitUart
  /-- `PUTCH byte` (R96). -/
  | putch (byte : Byte)
  /-- `PUT_STR addr`: the address of the first byte of a null-terminated sequence (R97). -/
  | putStr (addr : Half)
  /-- `UART_RX block`: true is blocking (R98). -/
  | uartRx (block : Bool)
  /-- `RX_ISR`: the receive interrupt handler, dispatched by hardware (R99). -/
  | rxIsr
deriving DecidableEq, Repr

/-- The row of spec/opcode_table.json an operation belongs to. -/
def Instr.mnemonic : Instr → String
  | .setClock _ => "SET_CLOCK"
  | .initUart _ _ => "INIT_UART"
  | .uninitUart => "UNINIT_UART"
  | .putch _ => "PUTCH"
  | .putStr _ => "PUT_STR"
  | .uartRx _ => "UART_RX"
  | .rxIsr => "RX_ISR"

/-- The pseudo-operations of R105. -/
inductive Pseudo where
  | getc
  | poll
  | begin (baud : Byte) (speed : Byte)
deriving DecidableEq, Repr

/-- What a pseudo-operation expands to (R105). -/
def Pseudo.expand : Pseudo → List Instr
  | .getc => [.uartRx true]
  | .poll => [.uartRx false]
  | .begin baud speed => [.setClock speed, .initUart baud speed]

end Sys2Proof
end

