-- ==== Sys2Proof/WellFormed.lean ====
section
/-! DEFINITION. Which operations and programs are well formed. The argument fields are typed at their encoded
widths (spec/30_encoding.md R93 to R99), so every operation can be encoded; the one check left is R99's: the
handler is never performed from a program. -/

namespace Sys2Proof

/-- The operation may stand in a program: R99 admits every operation but `RX_ISR`. -/
def Instr.inProgram : Instr → Bool
  | .setClock _ => true
  | .initUart _ _ => true
  | .uninitUart => true
  | .putch _ => true
  | .putStr _ => true
  | .uartRx _ => true
  | .rxIsr => false

/-- A program of operations is well formed when every one may stand in a program (R99, R107). -/
def programWellFormed (p : List Instr) : Bool := p.all Instr.inProgram

end Sys2Proof
end

