-- ==== Sys2Proof/Decode.lean ====
section
/-! DEFINITION. The decoder of spec/30_encoding.md R90 to R103, total on 32-bit words and rejecting by name, the
encoder written from the same layouts, and the opcode table's match and mask of each row. -/

namespace Sys2Proof

/-- Why a word is refused (R103). -/
inductive DecodeRefusal where
  /-- `op` is 0x0 or 0x8 to 0xF (R101). -/
  | reservedOp
  /-- A bit that R93 to R99 require to be 0 is 1 (R100). -/
  | reservedBits
  /-- A program word is `RX_ISR` (R99). -/
  | handlerInProgram
deriving DecidableEq, Repr

/-- The field `op` at bits 31:28 (R91). -/
def opField (w : Word) : BitVec 4 := w.extractLsb' 28 4
/-- The field `a1` at bits 23:16 (R91). -/
def a1Field (w : Word) : Byte := w.extractLsb' 16 8
/-- The field `a0` at bits 15:0 (R91). -/
def a0Field (w : Word) : Half := w.extractLsb' 0 16
/-- The low byte of `a0`: speed, clock speed or byte (R93, R94, R96). -/
def a0Low (w : Word) : Byte := w.extractLsb' 0 8
/-- Bit 0 of `a0`: the block flag (R98). -/
def a0Bit (w : Word) : Bool := w.getLsbD 0

/-- The operation `i`, if no bit of `zeros` is set in the word (R100). -/
def requireZero (w zeros : Word) (i : Instr) : Except DecodeRefusal Instr :=
  if w &&& zeros = 0#32 then .ok i else .error .reservedBits

/-- The operation a word stands for, whoever performs it (R92 to R101). The second argument of `requireZero` is
the bits the operation requires to be 0. -/
def decode (w : Word) : Except DecodeRefusal Instr :=
  if opField w = 0x1#4 then requireZero w 0x0FFFFF00#32 (.setClock (a0Low w))
  else if opField w = 0x2#4 then requireZero w 0x0F00FF00#32 (.initUart (a1Field w) (a0Low w))
  else if opField w = 0x3#4 then requireZero w 0x0FFFFFFF#32 .uninitUart
  else if opField w = 0x4#4 then requireZero w 0x0FFFFF00#32 (.putch (a0Low w))
  else if opField w = 0x5#4 then requireZero w 0x0FFF0000#32 (.putStr (a0Field w))
  else if opField w = 0x6#4 then requireZero w 0x0FFFFFFE#32 (.uartRx (a0Bit w))
  else if opField w = 0x7#4 then requireZero w 0x0FFFFFFF#32 .rxIsr
  else .error .reservedOp

/-- The operation a PROGRAM word stands for: R99 refuses the handler, tested last (R103). -/
def decodeProgramWord (w : Word) : Except DecodeRefusal Instr :=
  match decode w with
  | .error r => .error r
  | .ok i => if i.inProgram then .ok i else .error .handlerInProgram

/-- The word of an operation, from the layouts of R93 to R99. -/
def encode : Instr → Word
  | .setClock speed => 0x10000000#32 ||| speed.setWidth 32
  | .initUart baud clockSpeed => 0x20000000#32 ||| (baud.setWidth 32 <<< 16) ||| clockSpeed.setWidth 32
  | .uninitUart => 0x30000000#32
  | .putch byte => 0x40000000#32 ||| byte.setWidth 32
  | .putStr addr => 0x50000000#32 ||| addr.setWidth 32
  | .uartRx block => if block then 0x60000001#32 else 0x60000000#32
  | .rxIsr => 0x70000000#32

/-- One row of spec/opcode_table.json: a word belongs to it when `w &&& mask = bits`. -/
structure OpcodeRow where
  mnemonic : String
  bits : Word
  mask : Word
deriving DecidableEq, Repr

/-- The seven rows of spec/opcode_table.json. -/
def opcodeTable : List OpcodeRow :=
  [⟨"SET_CLOCK", 0x10000000#32, 0xFFFFFF00#32⟩,
   ⟨"INIT_UART", 0x20000000#32, 0xFF00FF00#32⟩,
   ⟨"UNINIT_UART", 0x30000000#32, 0xFFFFFFFF#32⟩,
   ⟨"PUTCH", 0x40000000#32, 0xFFFFFF00#32⟩,
   ⟨"PUT_STR", 0x50000000#32, 0xFFFF0000#32⟩,
   ⟨"UART_RX", 0x60000000#32, 0xFFFFFFFE#32⟩,
   ⟨"RX_ISR", 0x70000000#32, 0xFFFFFFFF#32⟩]

/-- The word belongs to the row. -/
def OpcodeRow.selects (r : OpcodeRow) (w : Word) : Bool := w &&& r.mask == r.bits

/-- The two rows require different values of a bit both fix, so no word belongs to both (R103). -/
def OpcodeRow.disjoint (a b : OpcodeRow) : Bool := (a.bits ^^^ b.bits) &&& (a.mask &&& b.mask) != 0#32

/-- The instruction the decoder reads from `nbits` bits of a table row's word: an operation is one 32-bit word
(R90) with no operand words after it, so the bits above `nbits` are 0 and a number that needs more than 32 bits
is no word. -/
def decodeTableWord (nbits w : Nat) : Option Instr :=
  if w % 2 ^ nbits < 2 ^ 32 then (decode (BitVec.ofNat 32 (w % 2 ^ nbits))).toOption else none

end Sys2Proof
end

