-- ==== Sys2Proof/Config.lean ====
section
/-! DEFINITION. What an implementation fixes (the parameters of spec/00_scope.md R7) and the free values. An
`opaque` constant has no body that a proof can see: a statement about it holds whatever it is. -/

namespace Sys2Proof

/-- `SPEEDS` of R7: the supported oscillator speeds, 1, 8 and 16 MHz. -/
inductive Speed where
  | mhz1
  | mhz8
  | mhz16
deriving DecidableEq, Repr

/-- `BAUDS` of R7: 9600 (enumeration value 0) and 115200 (1). -/
inductive Baud where
  | b9600
  | b115200
deriving DecidableEq, Repr

/-- `RX_CONTRACT` of R7 and D3: which receive contract the accessor and the handler follow. -/
inductive RxContract where
  | declared
  | reference
deriving DecidableEq, Repr

/-- `REF_WAIT` of R7 and D4 (OPEN): what ends the wait of `UART_RX` under REFERENCE. -/
inductive RefWait where
  | nonzero
  | arrival
deriving DecidableEq, Repr

/-- Which agent's step is taken next (R14). LP has no step of its own but the choice of the arriving byte; the
application's one step that R244 admits sets GIE. -/
inductive Move where
  | fg
  | isr
  | txe
  | rxArrive (b : Byte)
  | setGie (on : Bool)
deriving DecidableEq, Repr, Inhabited

/-- A configuration register or field that R246 says may be written only under reset. -/
inductive CfgReg where
  | ctl0
  | ssel
  | br0
  | br1
  | mctl
deriving DecidableEq, Repr

/-- An event of a schedule: a move of R14, or a write by code outside the block, which breaks the launch premise
`Exclusive` (R243) and to which R39 and R246 give a meaning. -/
inductive Event where
  | move (m : Move)
  | cfgWrite (r : CfgReg) (v : Byte)
deriving DecidableEq, Repr

/-- `RX_PIN` of R7, D20. -/
def Config.rxPin : Nat := 1
/-- `TX_PIN` of R7, D20. -/
def Config.txPin : Nat := 2
/-- `ADDR_W` of R7, D17. -/
def Config.addrW : Nat := 16
/-- `BRCLK_DIV` of R7, D21. -/
def Config.brclkDiv : Nat := 1
/-- `IRQ_VECTOR` of R7, D30; R218: the model dispatches directly and does not read the vector. -/
def Config.irqVector : Nat := 0xFFEE

/-- `CAL_BCS(s)` of spec/10_state.md R26, D27: device-specific, a parameter (log 3). -/
opaque Config.calBcs : Speed → Byte
/-- `CAL_TRIM(s)` of R26, D27 (log 3). -/
opaque Config.calTrim : Speed → Byte

/-- FREE VALUE: the next move of a machine whose schedule is used up (R14, R221; log 1). -/
opaque Config.freeMove : Nat → Move
/-- FREE VALUE: a draw from a set of two, {Discard, Hold} of R151 or {Aborted, the frame} of R162 (log 11, 12). -/
opaque Config.freeBool : Nat → Bool
/-- FREE VALUE: a draw from u8, the byte that lands while RATE_OK is false (R183; log 13). -/
opaque Config.freeByte : Nat → Byte

end Sys2Proof
end

