-- ==== Sys2Proof/Machine/State.lean ====
section
/-! DEFINITION. Every piece of state of spec/10_state.md R20 to R51 as plain data, the fault and refusal reasons of
spec/60_exceptions.md R212 and R213, and the state after reset (R51, R240). -/

namespace Sys2Proof.Machine

open Sys2Proof

/-- Which agent wrote `TXBUF`: the recorded info of R212. -/
inductive Writer where
  | fg
  | isr
deriving DecidableEq, Repr

/-- The fault codes of R212 with their recorded info. A fault is recorded in `State.faults`; from then on `step`
answers with it and no agent has a further step (R211). -/
inductive Fault where
  /-- Code 1, a write of `TXBUF` while `TXIFG = 0`: raised by PUTCH (2), PUT_STR (4), RX_ISR (2) under REFERENCE.
  Safe: the model stops where the chip loses or corrupts a byte. -/
  | txOverwrite (byte : Byte) (writer : Writer)
  /-- Code 2, the next read address would pass 0xFFFF: raised by PUT_STR (2). Safe: the model stops where the
  source calls the behaviour undefined. -/
  | strWrap (addr : Half) (i : Nat)
deriving DecidableEq, Repr

/-- The code of a fault (R212). -/
def Fault.code : Fault → Nat
  | .txOverwrite _ _ => 1
  | .strWrap _ _ => 2

/-- The refusal reasons of R213. -/
inductive Refusal where
  /-- An instruction exec rejects by name: raised by no arm of this model. Safe. -/
  | notModelled (mnemonic : String)
  /-- The word at `pc` has a reserved `op`: raised by a foreground step. Safe: FG has no step (R101). -/
  | reservedOp
  /-- The word at `pc` has a required-zero bit set: raised by a foreground step. Safe (R100). -/
  | reservedBits
  /-- The word at `pc` is RX_ISR: raised by a foreground step. Safe (R99). -/
  | handlerInProgram
  /-- `CTL0 ≠ 0x00` while `SWRST = 0`: raised by any step in such a state (R27). Safe. -/
  | frameFormat
  /-- A claim reads `ret` before any UART_RX completed: raised by `State.claimRet`, by no step (R21). Safe. -/
  | unwrittenRet
deriving DecidableEq, Repr

/-- `PHASE` of R44. -/
inductive Phase where
  | uninitialized
  | configuring
  | active
deriving DecidableEq, Repr

/-- `CFG` of R45 when it is not `none`. -/
structure LineCfg where
  baud : Baud
  clk : Speed
deriving DecidableEq, Repr

/-- `SHIFT` of R40 when it is not `empty`: the byte and `SHIFT_OK`. -/
structure ShiftFrame where
  byte : Byte
  ok : Bool
deriving DecidableEq, Repr

/-- A wire frame of spec/42_transmit.md R163. -/
inductive Wire where
  | frame (v : Byte) (baud : Baud)
  | unreliable
  | aborted
deriving DecidableEq, Repr

/-- The micro-steps 2 to 7 of INIT_UART (R125). -/
inductive InitStep where
  | s2
  | s3
  | s4
  | s5
  | s6
  | s7
deriving DecidableEq, Repr

/-- `mu` of R22: the micro-step of the operation at `pc` to perform next, with the operation's locals. -/
inductive Micro where
  /-- `Idle`: micro-step 1 of the operation at `pc` is next. -/
  | idle
  /-- INIT_UART, micro-step 2 to 7 is next (R125). -/
  | init (k : InitStep)
  /-- PUTCH, micro-step 2 is next (R150). -/
  | putchWrite
  /-- PUT_STR, micro-step 2 is next (R153). -/
  | strRead (i : Nat)
  /-- PUT_STR, micro-step 3 is next, with the byte read. -/
  | strWait (i : Nat) (c : Byte)
  /-- PUT_STR, micro-step 4 is next. -/
  | strWrite (i : Nat) (c : Byte)
  /-- UART_RX, micro-step 2 is next (R189, R190). -/
  | rxWait
deriving DecidableEq, Repr

/-- The handler's next micro-step while IN_ISR = 1 (R186, R187, R219). -/
inductive IsrMicro where
  /-- Micro-step 1: read `RXBUF` and latch. -/
  | latch
  /-- Micro-step 2 under REFERENCE: `TXWRITE(b)`. -/
  | echo (b : Byte)
  /-- The interrupt return. -/
  | ret
deriving DecidableEq, Repr

/-- `SAVED` of R46 when it is not `none` (R217). -/
structure SavedFg where
  pc : Nat
  mu : Micro
  gie : Bool
deriving DecidableEq, Repr

/-- The state of the block, one record (R20), with what the launch fixes and the model's own two fields. -/
structure State where
  /-- BCS, R23. -/
  bcs : Byte
  /-- TRIM, R24. -/
  trim : Byte
  /-- OSC_SPEED, R25: `none` is the unknown speed of an uncalibrated oscillator. -/
  osc : Option Speed
  /-- CTL0, R27. -/
  ctl0 : Byte
  /-- CTL1, R29. -/
  ctl1 : Byte
  /-- BR0, R30. -/
  br0 : Byte
  /-- BR1, R30. -/
  br1 : Byte
  /-- MCTL, R31. -/
  mctl : Byte
  /-- OE of STAT, R32; `State.stat` is the whole register. -/
  oe : Bool
  /-- RXBUF, R36. -/
  rxbuf : Byte
  /-- TXBUF, R37. -/
  txbuf : Byte
  /-- IE2, R34, R49: RXIE is bit 0, TXIE bit 1. -/
  ie2 : Byte
  /-- IFG2, R35, R49: RXIFG is bit 0, TXIFG bit 1. -/
  ifg2 : Byte
  /-- PSEL, R38. -/
  psel : Byte
  /-- PSEL2, R38. -/
  psel2 : Byte
  /-- GIE, R33. -/
  gie : Bool
  /-- SHIFT, R40: `none` is `empty`. -/
  shift : Option ShiftFrame
  /-- TXLINE, R41: oldest first. -/
  txline : List Wire
  /-- SLOT_FULL, R43. -/
  slotFull : Bool
  /-- SLOT_VAL, R43. -/
  slotVal : Byte
  /-- PHASE, R44. -/
  phase : Phase
  /-- CFG, R45. -/
  cfg : Option LineCfg
  /-- IN_ISR, R46. -/
  inIsr : Bool
  /-- SAVED, R46. -/
  saved : Option SavedFg
  /-- The handler's next micro-step; read only while IN_ISR = 1 (R187, R217, R219). -/
  imu : IsrMicro
  /-- FAULTS, R47, with the recorded info of R212. -/
  faults : List Fault
  /-- REFUSED, R48, with its reason: the bit is `refused.isSome`. -/
  refused : Option Refusal
  /-- pc, R22. -/
  pc : Nat
  /-- mu, R22. -/
  mu : Micro
  /-- ret, R21: a value only where `retWritten`. -/
  ret : Half
  /-- A UART_RX has completed, so `ret` holds a value (R21). -/
  retWritten : Bool
  /-- The program P[0..n-1], R22, R107: a parameter of the run. -/
  prog : List Word
  /-- MEM, spec/20_memory.md R71: the admitted addresses with their bytes, strictly rising. -/
  mem : List Host.Cell
  /-- RX_CONTRACT, R7: a parameter of the run. -/
  contract : RxContract
  /-- REF_WAIT, R7: a parameter of the run. -/
  refWait : RefWait
  /-- The model's own: the events still to come; when empty, the next move is a free value (log 1). -/
  sched : List Event
  /-- The model's own: how many free values have been taken (log 1). -/
  draws : Nat
deriving DecidableEq, Repr

/-- The state after a power-up reset (R51, R240, R242). The values R51 leaves open (RXBUF, TXBUF, ret, the bits of
IE2, IFG2, PSEL and PSEL2 that the block does not own, and what a launch fixes) are named in log 2, 4, 5, 6, 9
and 10. -/
def State.reset : State where
  bcs := 0x87#8
  trim := 0x60#8
  osc := none
  ctl0 := 0x00#8
  ctl1 := 0x01#8
  br0 := 0x00#8
  br1 := 0x00#8
  mctl := 0x00#8
  oe := false
  rxbuf := 0x00#8
  txbuf := 0x00#8
  ie2 := 0x00#8
  ifg2 := 0x0A#8
  psel := 0x00#8
  psel2 := 0x00#8
  gie := false
  shift := none
  txline := []
  slotFull := false
  slotVal := 0x00#8
  phase := .uninitialized
  cfg := none
  inIsr := false
  saved := none
  imu := .latch
  faults := []
  refused := none
  pc := 0
  mu := .idle
  ret := 0x0000#16
  retWritten := false
  prog := []
  mem := []
  contract := .declared
  refWait := .nonzero
  sched := []
  draws := 0

end Sys2Proof.Machine
end

