-- ==== Sys2Proof/Machine/Flags.lean ====
section
/-! DEFINITION. The bits and fields of the registers (spec/10_state.md R27 to R38), the status register `STAT`
(R32) and the derived flags `RATE_OK` (R45) and `TXBUF_FULL` (R37). -/

namespace Sys2Proof.Machine

open Sys2Proof

/-- `r[i]` of R8. -/
def bit (r : Byte) (i : Nat) : Bool := r.getLsbD i

/-- `r` with bit `i` set to `b` and the other bits as they are (R77). -/
def withBit (r : Byte) (i : Nat) (b : Bool) : Byte :=
  if b then r ||| (1#8 <<< i) else r &&& ~~~(1#8 <<< i)

/-- `CTL0.PEN` (R27). -/
def State.pen (s : State) : Bool := bit s.ctl0 7
/-- `CTL0.PAR` (R27). -/
def State.par (s : State) : Bool := bit s.ctl0 6
/-- `CTL0.MSB` (R27). -/
def State.msbFirst (s : State) : Bool := bit s.ctl0 5
/-- `CTL0.C7BIT` (R27). -/
def State.c7bit (s : State) : Bool := bit s.ctl0 4
/-- `CTL0.SPB` (R27). -/
def State.spb (s : State) : Bool := bit s.ctl0 3
/-- `CTL0.MODE` (R27). -/
def State.uartMode (s : State) : BitVec 2 := s.ctl0.extractLsb' 1 2
/-- `CTL0.SYNC` (R27). -/
def State.sync (s : State) : Bool := bit s.ctl0 0

/-- `CTL1.SSEL` (R29). -/
def State.ssel (s : State) : BitVec 2 := s.ctl1.extractLsb' 6 2
/-- `CTL1.RXEIE` (R29). -/
def State.rxeie (s : State) : Bool := bit s.ctl1 5
/-- `CTL1.BRKIE` (R29). -/
def State.brkie (s : State) : Bool := bit s.ctl1 4
/-- `CTL1.DORM` (R29). -/
def State.dorm (s : State) : Bool := bit s.ctl1 3
/-- `CTL1.TXADDR` (R29). -/
def State.txaddr (s : State) : Bool := bit s.ctl1 2
/-- `CTL1.TXBRK` (R29). -/
def State.txbrk (s : State) : Bool := bit s.ctl1 1
/-- `CTL1.SWRST`, the peripheral reset hold (R29, R39). -/
def State.swrst (s : State) : Bool := bit s.ctl1 0

/-- `MCTL.BRF` (R31). -/
def State.brf (s : State) : BitVec 4 := s.mctl.extractLsb' 4 4
/-- `MCTL.BRS` (R31). -/
def State.brs (s : State) : BitVec 3 := s.mctl.extractLsb' 1 3
/-- `MCTL.OS16` (R31). -/
def State.os16 (s : State) : Bool := bit s.mctl 0

/-- `RXIE` (R34). -/
def State.rxie (s : State) : Bool := bit s.ie2 0
/-- `TXIE` (R34). -/
def State.txie (s : State) : Bool := bit s.ie2 1
/-- `RXIFG`, the arrival flag (R35). -/
def State.rxifg (s : State) : Bool := bit s.ifg2 0
/-- `TXIFG`, the transmit-buffer-empty flag (R35). -/
def State.txifg (s : State) : Bool := bit s.ifg2 1
/-- `TXBUF_FULL = not TXIFG` (R37). -/
def State.txbufFull (s : State) : Bool := !s.txifg

/-- `BUSY = 1` exactly when `SHIFT ≠ empty`: a frame lands atomically, so no state stands inside a reception
(R32, R42; log 7). -/
def State.busy (s : State) : Bool := s.shift.isSome

/-- The register `STAT`: `OE` at bit 5, `BUSY` at bit 0, every other bit 0 (R32). -/
def State.stat (s : State) : Byte := withBit (withBit 0x00#8 5 s.oe) 0 s.busy

/-- The divisor `UCBR = BR1 * 256 + BR0` (R30, spec/41_line_config.md R123). -/
def State.ucbr (s : State) : Nat := s.br1.toNat * 256 + s.br0.toNat

/-- `RATE_OK = (CFG ≠ none and CFG.clk = OSC_SPEED)` (R45). -/
def State.rateOk (s : State) : Bool :=
  match s.cfg with
  | none => false
  | some c => s.osc == some c.clk

/-- Both owned bits of both pin-function-select registers are set, so the pins belong to the peripheral (R38). -/
def State.pinsSelected (s : State) : Bool :=
  bit s.psel Config.rxPin && bit s.psel Config.txPin && bit s.psel2 Config.rxPin && bit s.psel2 Config.txPin

/-- The interrupt condition of spec/60_exceptions.md R216: pending, enabled, gated by GIE, and not already in the
handler. -/
def State.irqReady (s : State) : Bool := s.rxifg && s.rxie && s.gie && !s.inIsr

/-- The engines run: `SWRST = 0` and `SSEL ∈ {0b10, 0b11}` (spec/42_transmit.md R160, spec/43_receive.md R180). -/
def State.engineOn (s : State) : Bool := !s.swrst && (s.ssel == 0b10#2 || s.ssel == 0b11#2)

/-- A state the machine refuses: `CTL0 ≠ 0x00` while `SWRST = 0` (R27). -/
def State.badFormat (s : State) : Bool := s.ctl0 != 0x00#8 && !s.swrst

end Sys2Proof.Machine
end

