-- ==== Sys2Proof/Machine/Memory.lean ====
section
/-! DEFINITION. The data memory `MEM` of spec/20_memory.md R71: a partial map from 16-bit addresses to bytes. An
unlisted address is one the launch does not admit and holds no value (log 9). -/

namespace Sys2Proof.Machine

open Sys2Proof

/-- The number of addresses, `2^ADDR_W` (R71). -/
def addrSpace : Nat := 2 ^ Config.addrW

/-- What an address the launch does not admit reads as: no value, so the read has no step (R71, R72). -/
def unlistedByte : Option Byte := none

/-- `MemRead(a, 1)`: `MEM[a]` where `a` is admitted (R71). -/
def memRead : List Host.Cell → Nat → Option Byte
  | [], _ => unlistedByte
  | (k, b) :: m, a => if k = a then some b else memRead m a

/-- The memory with the byte `b` at `a`. -/
def memSet : List Host.Cell → Nat → Byte → List Host.Cell
  | [], a, b => [(a, b)]
  | (k, c) :: m, a, b =>
    if a < k then (a, b) :: (k, c) :: m
    else if a = k then (a, b) :: m
    else (k, c) :: memSet m a b

/-- The launch admits address `a` with byte `b`; there is no address at or above `2^ADDR_W` to admit (R71). -/
def memAdmit (m : List Host.Cell) (a : Nat) (b : Byte) : List Host.Cell :=
  if a < addrSpace then memSet m a b else m

/-- The launch admits several addresses in turn. -/
def memAdmitAll (m : List Host.Cell) : List Host.Cell → List Host.Cell
  | [] => m
  | (a, b) :: cells => memAdmitAll (memAdmit m a b) cells

/-- The cells' addresses rise strictly from `lo` and lie in the address space. -/
def memRises (lo : Nat) : List Host.Cell → Bool
  | [] => true
  | (k, _) :: m => decide (lo ≤ k ∧ k < addrSpace) && memRises (k + 1) m

/-- The canonical form. An unlisted address holds no value, so no entry can equal what one reads as. -/
def memWf (m : List Host.Cell) : Bool := memRises 0 m

end Sys2Proof.Machine
end

