-- ==== Sys2Proof/Machine/Operands.lean ====
section
/-! DEFINITION. The operand forms: a speed in MHz (spec/40_clock.md R111), a baud enumeration (spec/30_encoding.md
R94), the baud table (spec/41_line_config.md R121), the address of a byte of a sequence (spec/42_transmit.md R153)
and the value of the result register (spec/43_receive.md R191). -/

namespace Sys2Proof.Machine

open Sys2Proof

/-- The supported speed a speed argument names; every other value names none (R93, R111, R112). -/
def speedOf (v : Byte) : Option Speed :=
  if v = 1#8 then some .mhz1
  else if v = 8#8 then some .mhz8
  else if v = 16#8 then some .mhz16
  else none

/-- A speed in MHz (R111). -/
def speedMHz : Speed → Nat
  | .mhz1 => 1
  | .mhz8 => 8
  | .mhz16 => 16

/-- The baud a baud enumeration names: 0 is 9600, 1 is 115200, every other value misses the table (R94). -/
def baudOf (v : Byte) : Option Baud :=
  if v = 0#8 then some .b9600
  else if v = 1#8 then some .b115200
  else none

/-- A baud in bits per second (R120). -/
def baudRate : Baud → Nat
  | .b9600 => 9600
  | .b115200 => 115200

/-- A row's quadruple `(divLow, divHigh, mod2, mod1)` (R120). -/
structure Divisors where
  divLow : Byte
  divHigh : Byte
  mod2 : BitVec 3
  mod1 : BitVec 4
deriving DecidableEq, Repr

/-- `BAUD_TABLE`, the six rows of R121. -/
def baudTable : Baud → Speed → Divisors
  | .b9600, .mhz1 => ⟨0x68#8, 0x00#8, 1#3, 0#4⟩
  | .b9600, .mhz8 => ⟨0x41#8, 0x03#8, 2#3, 0#4⟩
  | .b9600, .mhz16 => ⟨0x82#8, 0x06#8, 6#3, 0#4⟩
  | .b115200, .mhz1 => ⟨0x08#8, 0x00#8, 6#3, 0#4⟩
  | .b115200, .mhz8 => ⟨0x45#8, 0x00#8, 4#3, 0#4⟩
  | .b115200, .mhz16 => ⟨0x8A#8, 0x00#8, 7#3, 0#4⟩

/-- The (baud, clock) pair the arguments of INIT_UART name, where they index a row (R120, R124). -/
def lookupPair (baud clockSpeed : Byte) : Option LineCfg :=
  match baudOf baud, speedOf clockSpeed with
  | some b, some k => some ⟨b, k⟩
  | _, _ => none

/-- `LOOKUP(baud, clk)` (R120). -/
def lookup (baud clockSpeed : Byte) : Option Divisors :=
  (lookupPair baud clockSpeed).map fun c => baudTable c.baud c.clk

/-- The byte written to `MCTL`: `{mod1[3:0], mod2[2:0], 0b0}`, so BRF = mod1, BRS = mod2, OS16 = 0 (R122, R125). -/
def mctlByte (d : Divisors) : Byte := (d.mod1.setWidth 8 <<< 4) ||| (d.mod2.setWidth 8 <<< 1)

/-- The address of byte `i` of the sequence at `addr`, not reduced modulo the address space (R76, R153). -/
def strAddr (addr : Half) (i : Nat) : Nat := addr.toNat + i

/-- `zext_16(v)` (R191). -/
def zext16 (v : Byte) : Half := v.setWidth 16

/-- The no-data sentinel, −1 (R191). -/
def noData : Half := 0xFFFF#16

/-- The effective bit rate of R141 in hundredths of a bit per second, rounded; informative, used by no rule:
`f_BRCLK / (UCBR + BRS/8)` with `f_BRCLK` the speed divided by `BRCLK_DIV` (R127). -/
def bitRateHundredths (b : Baud) (k : Speed) : Nat :=
  let d := baudTable b k
  let eighths := 8 * (d.divHigh.toNat * 256 + d.divLow.toNat) + d.mod2.toNat
  let num := 8 * (speedMHz k / Config.brclkDiv) * 100000000
  (2 * num + eighths) / (2 * eighths)

end Sys2Proof.Machine
end

