-- ==== Sys2Proof/Machine/Ops.lean ====
section
/-! DEFINITION. The named operations over registers, latch, buffers and interrupt context: reads and writes with
their side effects (spec/10_state.md R35 to R39, spec/20_memory.md R77, R78), interrupt entry and return
(spec/60_exceptions.md R217, R219), faults and refusals (R211, R213), and the fetch of a program word (R107). -/

namespace Sys2Proof.Machine

open Sys2Proof

/-- The operation's last micro-step ends: `pc <- pc + 1`, and the next operation is at its start (R22). -/
def State.advance (s : State) : State := { s with pc := s.pc + 1, mu := .idle }

/-- `raise Fault(code)`: recorded in FAULTS, which only grows (R211, R47). -/
def State.raise (f : Fault) (s : State) : State := { s with faults := s.faults ++ [f] }

/-- REFUSED is set, with its reason (R48, R100). -/
def State.refuse (r : Refusal) (s : State) : State := { s with refused := some r }

/-- What `TX_EMIT` puts on the wire for a frame in `SHIFT` (spec/42_transmit.md R161): the frame at the configured
baud where the bit clock was undisturbed and RATE_OK holds, else `Unreliable`. -/
def State.wireOf (s : State) (f : ShiftFrame) : Wire :=
  match s.cfg with
  | some c => if f.ok && s.rateOk then .frame f.byte c.baud else .unreliable
  | none => .unreliable

/-- `emit W` (spec/42_transmit.md R165). -/
def State.emit (w : Wire) (s : State) : State := { s with txline := s.txline ++ [w] }

/-- Reset meets a frame in `SHIFT`: a draw between `Aborted` and what `TX_EMIT` would have emitted, then `SHIFT` is
empty (spec/42_transmit.md R162; log 12). -/
def State.abortShift (s : State) : State :=
  match s.shift with
  | none => s
  | some f =>
    { s.emit (if Config.freeBool s.draws then .aborted else s.wireOf f) with
      shift := none, draws := s.draws + 1 }

/-- `SWRST <- 1` with its effects: RXIE, RXIFG and OE cleared, TXIFG set, SHIFT emptied (R39, R162). -/
def State.setSwrst (s : State) : State :=
  { s.abortShift with
    ctl1 := withBit s.ctl1 0 true
    ie2 := withBit s.ie2 0 false
    ifg2 := withBit (withBit s.ifg2 0 false) 1 true
    oe := false }

/-- `SWRST <- 0` (spec/41_line_config.md R131). -/
def State.clearSwrst (s : State) : State := { s with ctl1 := withBit s.ctl1 0 false }

/-- `SSEL <- v`, the other bits of CTL1 kept (R77). -/
def State.setSsel (v : BitVec 2) (s : State) : State :=
  { s with ctl1 := (s.ctl1 &&& 0x3F#8) ||| (v.setWidth 8 <<< 6) }

/-- `CFG` after a write of a configuration register: under reset it is kept; while SWRST = 0 the running generator
is a draw, so `CFG <- none` (R39). -/
def State.cfgAfterWrite (s : State) : Option LineCfg := if s.swrst then s.cfg else none

/-- A write of `CTL0` (R39). -/
def State.writeCtl0 (v : Byte) (s : State) : State := { s with ctl0 := v, cfg := s.cfgAfterWrite }
/-- A write of `BR0` (R39). -/
def State.writeBr0 (v : Byte) (s : State) : State := { s with br0 := v, cfg := s.cfgAfterWrite }
/-- A write of `BR1` (R39). -/
def State.writeBr1 (v : Byte) (s : State) : State := { s with br1 := v, cfg := s.cfgAfterWrite }
/-- A write of `MCTL` (R39). -/
def State.writeMctl (v : Byte) (s : State) : State := { s with mctl := v, cfg := s.cfgAfterWrite }

/-- `RXIE <- 1` (spec/41_line_config.md R132). -/
def State.setRxie (s : State) : State := { s with ie2 := withBit s.ie2 0 true }

/-- Both pins' bits set in both function-select registers, the other bits kept (R38, R129). -/
def State.selectPins (s : State) : State :=
  { s with
    psel := withBit (withBit s.psel Config.rxPin true) Config.txPin true
    psel2 := withBit (withBit s.psel2 Config.rxPin true) Config.txPin true }

/-- A read of `RXBUF`: the byte, and RXIFG cleared (R35, R36, R78). -/
def State.readRxbuf (s : State) : Byte × State := (s.rxbuf, { s with ifg2 := withBit s.ifg2 0 false })

/-- A write of `TXBUF` that is accepted: the byte is stored and TXIFG cleared (R37, R78). -/
def State.storeTxbuf (v : Byte) (s : State) : State :=
  { s with txbuf := v, ifg2 := withBit s.ifg2 1 false }

/-- One free value has been taken (log 1). -/
def State.drawn (s : State) : State := { s with draws := s.draws + 1 }

/-- `TXWRITE(v)` by `who`, then `done` where the write did not fault (spec/42_transmit.md R150, R151): a fault while
TXIFG = 0, a draw between Hold and Discard under reset (log 11), else the byte is accepted. -/
def txWrite (who : Writer) (v : Byte) (done : State → State) (s : State) : State :=
  if s.txifg then
    if s.swrst then
      if Config.freeBool s.draws then done (s.drawn.storeTxbuf v) else done s.drawn
    else done (s.storeTxbuf v)
  else s.raise (.txOverwrite v who)

/-- The latch is filled: `SLOT <- (1, b)` (R43, R186). -/
def State.latch (b : Byte) (s : State) : State := { s with slotFull := true, slotVal := b }

/-- The latch is emptied: `SLOT <- (0, 0x00)` (R133, R190). -/
def State.emptySlot (s : State) : State := { s with slotFull := false, slotVal := 0x00#8 }

/-- `ret <- v` (R21). -/
def State.setRet (v : Half) (s : State) : State := { s with ret := v, retWritten := true }

/-- A claim's read of `ret`: refused until a UART_RX has completed (R21, R213). -/
def State.claimRet (s : State) : Except Refusal Half :=
  if s.retWritten then .ok s.ret else .error .unwrittenRet

/-- TAKING THE EXCEPTION, the interrupt entry of R217: SAVED takes pc, mu and GIE, GIE is cleared, IN_ISR set, and
the handler starts at its first micro-step (R218: dispatched directly, no vector is read). -/
def State.enterIrq (s : State) : State :=
  { s with saved := some ⟨s.pc, s.mu, s.gie⟩, gie := false, inIsr := true, imu := .latch }

/-- The interrupt return of R219: pc, mu and GIE from SAVED, IN_ISR cleared, SAVED emptied. With nothing saved,
which no run reaches, there is nothing to restore and no step (log 14). -/
def State.returnIrq (s : State) : State :=
  match s.saved with
  | none => s
  | some r => { s with pc := r.pc, mu := r.mu, gie := r.gie, inIsr := false, saved := none }

/-- A write of a configuration register by code outside the block (R39, R246): while SWRST = 0 it also makes
`CFG <- none`. -/
def State.outsideWrite (r : CfgReg) (v : Byte) (s : State) : State :=
  match r with
  | .ctl0 => s.writeCtl0 v
  | .ssel => { s.setSsel (v.setWidth 2) with cfg := s.cfgAfterWrite }
  | .br0 => s.writeBr0 v
  | .br1 => s.writeBr1 v
  | .mctl => s.writeMctl v

/-- The machine's name of a decoder's refusal (R213). -/
def refusalOf : DecodeRefusal → Refusal
  | .reservedOp => .reservedOp
  | .reservedBits => .reservedBits
  | .handlerInProgram => .handlerInProgram

/-- The word FG performs next, `P[pc]`; none where FG has finished, `pc ≥ n` (R22, R107). -/
def State.fetch (s : State) : Option Word := s.prog[s.pc]?

/-- The next event and the state that has passed it: the schedule's head, or a free move (R14, R221; log 1). -/
def State.nextEvent (s : State) : Event × State :=
  match s.sched with
  | e :: es => (e, { s with sched := es })
  | [] => (.move (Config.freeMove s.draws), s.drawn)

/-- `P` with the word `w` at index `k`, filled up with zero words where `P` is shorter. -/
def placeAt (p : List Word) (k : Nat) (w : Word) : List Word :=
  p.take k ++ List.replicate (k - p.length) 0#32 ++ [w] ++ p.drop (k + 1)

/-- `s` so that the very next step performs the word `w`. A program word stands at `P[pc]` with FG at its start
and scheduled. RX_ISR is not performed from a program (R99): its word stands for the hardware's dispatch, so the
interrupt entry of R217 has happened and the handler is scheduled (log 2). -/
def State.placeWord (s : State) (w : Word) : State :=
  if w = 0x70000000#32 then { s.enterIrq with sched := .move .isr :: s.sched }
  else { s with prog := placeAt s.prog s.pc w, mu := .idle, sched := .move .fg :: s.sched }

/-- The state a run starts from: reset, with what the launch fixes (R107, R71, R244, R7). -/
def State.launch (prog : List Word) (cells : List Host.Cell) (gie : Bool) (contract : RxContract)
    (refWait : RefWait) : State :=
  { State.reset with
    prog := prog, mem := memAdmitAll [] cells, gie := gie, contract := contract, refWait := refWait }

end Sys2Proof.Machine
end

