-- ==== Sys2Proof/Machine/Clock.lean ====
section
/-! DEFINITION. ClockSelector: SET_CLOCK (spec/40_clock.md). -/

namespace Sys2Proof.Machine

open Sys2Proof

/-- A frame in flight becomes Unreliable: `SHIFT <- (v, 0)` (R110). -/
def State.disturbShift (s : State) : State :=
  { s with shift := s.shift.map fun f => { f with ok := false } }

/-- `TRIM <- 0x00`, the first of R110's three register writes. -/
def State.resetTrim (s : State) : State := { s with trim := 0x00#8 }

/-- The pair of calibration constants written and the oscillator at the speed (R110, R111). -/
def State.calibrate (k : Speed) (s : State) : State :=
  { s.resetTrim with bcs := Config.calBcs k, trim := Config.calTrim k, osc := some k }

/-- SET_CLOCK, one atomic micro-step (R110, R114); an unsupported speed changes nothing but pc (R112). -/
def execSetClock (speed : Byte) (s : State) : Host.Outcome State Fault Refusal :=
  match speedOf speed with
  | some k => .next ((s.calibrate k).disturbShift.advance)
  | none => .next s.advance

end Sys2Proof.Machine
end

