-- ==== Sys2Proof/Machine/Line.lean ====
section
/-! DEFINITION. LineConfigurator: INIT_UART and UNINIT_UART (spec/41_line_config.md). -/

namespace Sys2Proof.Machine

open Sys2Proof

/-- INIT_UART (1): the reset hold, PHASE Configuring, the latch emptied (R125, R126, R133). -/
def initStep1 (s : State) : State :=
  { s.setSwrst.emptySlot with phase := .configuring, mu := .init .s2 }

/-- INIT_UART (2): `SSEL <- 0b10` (R127). -/
def initStep2 (s : State) : State := { s.setSsel 0b10#2 with mu := .init .s3 }

/-- INIT_UART (3): `CTL0 <- 0x00` (R128). -/
def initStep3 (s : State) : State := { s.writeCtl0 0x00#8 with mu := .init .s4 }

/-- INIT_UART (4): the pins (R129). -/
def initStep4 (s : State) : State := { s.selectPins with mu := .init .s5 }

/-- The divisor and modulation registers take a row of the table (R125 step 5, R130). -/
def State.writeDivisors (d : Divisors) (s : State) : State :=
  ((s.writeBr0 d.divLow).writeBr1 d.divHigh).writeMctl (mctlByte d)

/-- INIT_UART (5): a table hit writes the row and CFG; a miss leaves the registers and makes CFG none
(R124, R130, R134). -/
def initStep5 (baud clockSpeed : Byte) (s : State) : State :=
  match lookupPair baud clockSpeed with
  | some c => { s.writeDivisors (baudTable c.baud c.clk) with cfg := some c, mu := .init .s6 }
  | none => { s with cfg := none, mu := .init .s6 }

/-- INIT_UART (6): the reset released, PHASE Active (R131). -/
def initStep6 (s : State) : State := { s.clearSwrst with phase := .active, mu := .init .s7 }

/-- INIT_UART (7): `RXIE <- 1` (R132); the operation ends. -/
def initStep7 (s : State) : State := s.setRxie.advance

/-- INIT_UART: the micro-step `mu` names; any `mu` that is no micro-step of INIT_UART is its start (R125, R11;
log 15). -/
def execInitUart (baud clockSpeed : Byte) (s : State) : Host.Outcome State Fault Refusal :=
  match s.mu with
  | .init .s2 => .next (initStep2 s)
  | .init .s3 => .next (initStep3 s)
  | .init .s4 => .next (initStep4 s)
  | .init .s5 => .next (initStep5 baud clockSpeed s)
  | .init .s6 => .next (initStep6 s)
  | .init .s7 => .next (initStep7 s)
  | _ => .next (initStep1 s)

/-- UNINIT_UART's writes in R137's order: SSEL, SWRST with its effects, BRS and BRF (OS16 kept), CTL0. -/
def uninitWrites (s : State) : State :=
  let s1 := (s.setSsel 0b00#2).setSwrst
  (s1.writeMctl (s1.mctl &&& 0x01#8)).writeCtl0 0x00#8

/-- UNINIT_UART, one atomic micro-step (R137, R139). -/
def execUninitUart (s : State) : Host.Outcome State Fault Refusal :=
  .next { uninitWrites s with phase := .uninitialized, cfg := none }.advance

end Sys2Proof.Machine
end

