-- ==== Sys2Proof/Machine/Receive.lean ====
section
/-! DEFINITION. ReceiveLatch: the accessor UART_RX and the handler RX_ISR (spec/43_receive.md), with the handler's
entry and return (spec/60_exceptions.md R216, R217, R219). -/

namespace Sys2Proof.Machine

open Sys2Proof

/-- DECLARED: the latched byte is returned and consumed, `SLOT_VAL` kept (R189). -/
def rxConsume (s : State) : State := { s.setRet (zext16 s.slotVal) with slotFull := false }.advance

/-- REFERENCE: the latched byte is returned and the slot kept (R190, D37). -/
def rxReturn (s : State) : State := (s.setRet (zext16 s.slotVal)).advance

/-- DECLARED, micro-step 1 (R189). -/
def rxCheck (block : Bool) (s : State) : State :=
  if s.slotFull then rxConsume s
  else if block then { s with mu := .rxWait }
  else (s.setRet noData).advance

/-- `WAIT_DONE` of R190. -/
def State.waitDone (s : State) : Bool :=
  match s.refWait with
  | .nonzero => s.slotVal != 0x00#8
  | .arrival => s.slotFull

/-- UART_RX: under DECLARED R189, under REFERENCE R190, where `block` is read and ignored. A wait without its
condition holds FG. Any `mu` but (2) is its start (log 15). -/
def execUartRx (block : Bool) (s : State) : Host.Outcome State Fault Refusal :=
  match s.contract, s.mu with
  | .declared, .rxWait => .next (if s.slotFull then rxConsume s else s)
  | .declared, _ => .next (rxCheck block s)
  | .reference, .rxWait => .next (if s.waitDone then rxReturn s else s)
  | .reference, _ => .next { s.emptySlot with mu := .rxWait }

/-- RX_ISR (1): `b <- RXBUF`, clearing RXIFG, and the latch filled (R186, R187). Under REFERENCE the echo is next,
under DECLARED the return. DESIGN CHOICE: the read clears RXIFG also where a second frame landed after the entry, so that
frame is latched here and no interrupt follows for it (R35, R186, R214 against R220; log 28). -/
def isrLatch (s : State) : State :=
  let (b, t) := s.readRxbuf
  { t.latch b with
    imu := match s.contract with
      | .declared => .ret
      | .reference => .echo b }

/-- RX_ISR (2) under REFERENCE: `TXWRITE(b)`, without waiting (R187). -/
def isrEcho (b : Byte) (s : State) : State := txWrite .isr b (fun t => { t with imu := .ret }) s

/-- RX_ISR: the next step of the interrupt context. Outside the handler it is the interrupt entry, which is enabled
only under the condition of R216; inside it is the body's next micro-step (R186, R187) or the return (R219). -/
def execRxIsr (s : State) : Host.Outcome State Fault Refusal :=
  if s.inIsr then
    match s.imu with
    | .latch => .next (isrLatch s)
    | .echo b => .next (isrEcho b s)
    | .ret => .next s.returnIrq
  else .next (if s.irqReady then s.enterIrq else s)

end Sys2Proof.Machine
end

