-- ==== Sys2Proof/Machine/Transmit.lean ====
section
/-! DEFINITION. ByteTransmitter: PUTCH and PUT_STR (spec/42_transmit.md). -/

namespace Sys2Proof.Machine

open Sys2Proof

/-- `wait until TXIFG = 1`, then the micro-step `m` is next; until then FG is held with no step (R10, R150). -/
def waitTx (m : Micro) (s : State) : State := if s.txifg then { s with mu := m } else s

/-- PUTCH: (1) wait until TXIFG = 1; (2) TXWRITE(byte), pc + 1 (R150 to R152). Any `mu` but (2) is its start
(log 15). -/
def execPutch (byte : Byte) (s : State) : Host.Outcome State Fault Refusal :=
  match s.mu with
  | .putchWrite => .next (txWrite .fg byte State.advance s)
  | _ => .next (waitTx .putchWrite s)

/-- PUT_STR (2): past 0xFFFF a fault; an unadmitted address has no step; a zero byte ends the operation; another
byte is to be sent (R153, R72, R76). -/
def strRead (addr : Half) (i : Nat) (s : State) : State :=
  if strAddr addr i < addrSpace then
    match memRead s.mem (strAddr addr i) with
    | none => s
    | some c => if c = 0x00#8 then s.advance else { s with mu := .strWait i c }
  else s.raise (.strWrap addr i)

/-- PUT_STR: (1) i <- 0; (2) read; (3) wait until TXIFG = 1; (4) TXWRITE(c), i + 1, back to (2) (R153). Any `mu`
that is no micro-step of PUT_STR is its start (log 15). -/
def execPutStr (addr : Half) (s : State) : Host.Outcome State Fault Refusal :=
  match s.mu with
  | .strRead i => .next (strRead addr i s)
  | .strWait i c => .next (waitTx (.strWrite i c) s)
  | .strWrite i c => .next (txWrite .fg c (fun t => { t with mu := .strRead (i + 1) }) s)
  | _ => .next { s with mu := .strRead 0 }

end Sys2Proof.Machine
end

