-- ==== Sys2Proof/Machine/Dispatch.lean ====
section
/-! DEFINITION. One arm per operation: the next micro-step of the operation, in the state it is performed in. -/

namespace Sys2Proof.Machine

open Sys2Proof

def exec (i : Instr) (s : State) : Host.Outcome State Fault Refusal :=
  match i with
  | .setClock speed => Sys2Proof.Machine.execSetClock speed s
  | .initUart baud clockSpeed => Sys2Proof.Machine.execInitUart baud clockSpeed s
  | .uninitUart => Sys2Proof.Machine.execUninitUart s
  | .putch byte => Sys2Proof.Machine.execPutch byte s
  | .putStr addr => Sys2Proof.Machine.execPutStr addr s
  | .uartRx block => Sys2Proof.Machine.execUartRx block s
  | .rxIsr => Sys2Proof.Machine.execRxIsr s

end Sys2Proof.Machine
end

