-- ==== Sys2Proof/Machine/Engine.lean ====
section
/-! DEFINITION. The engines: TXE's steps TX_LOAD and TX_EMIT (spec/42_transmit.md R160, R161) and RXE's step
RX_ARRIVE (spec/43_receive.md R180). A step that is not enabled changes nothing. -/

namespace Sys2Proof.Machine

open Sys2Proof

/-- TX_LOAD: `SHIFT <- (TXBUF, RATE_OK)`, `TXIFG <- 1` (R160). -/
def txLoad (s : State) : State :=
  { s with shift := some ⟨s.txbuf, s.rateOk⟩, ifg2 := withBit s.ifg2 1 true }

/-- TX_EMIT: the frame in SHIFT goes on the wire and SHIFT is empty (R161). -/
def txEmit (f : ShiftFrame) (s : State) : State := { s.emit (s.wireOf f) with shift := none }

/-- TXE's step: TX_EMIT where SHIFT holds a frame, TX_LOAD where it is empty and TXBUF is full, each only while the
engine runs (R160 to R162). -/
def txeStep (s : State) : State :=
  if s.engineOn then
    match s.shift with
    | some f => txEmit f s
    | none => if s.txifg then s else txLoad s
  else s

/-- The frame lands: an overrun sets OE, the byte replaces RXBUF, RXIFG is set (R180, R181). -/
def State.land (v : Byte) (s : State) : State :=
  { s with oe := s.oe || s.rxifg, rxbuf := v, ifg2 := withBit s.ifg2 0 true }

/-- RX_ARRIVE(b): enabled only while the engine runs, else the frame is lost (R180, R182). The byte that lands is
`b`, or a draw from u8 while RATE_OK is false (R183; log 13). -/
def rxArrive (b : Byte) (s : State) : State :=
  if s.engineOn then
    if s.rateOk then s.land b else (s.land (Config.freeByte s.draws)).drawn
  else s

end Sys2Proof.Machine
end

