-- ==== Sys2Proof/Machine/Agents.lean ====
section
/-! DEFINITION. The agents' steps (spec/00_scope.md R14) and one step of the machine: the next event's agent makes
its step; a step that is not enabled changes nothing but the schedule. -/

namespace Sys2Proof.Machine

open Sys2Proof

/-- FG's step: none while the handler runs (R217) or after the program's end (R22); a refusal once REFUSED is set
(R100); else the word at pc is refused (REFUSED is set and pc stays, R99 to R101) or performed. -/
def fgStep (s : State) : Host.Outcome State Fault Refusal :=
  if s.inIsr then .next s
  else
    match s.refused with
    | some r => .refused r
    | none =>
      match s.fetch with
      | none => .next s
      | some w =>
        match decodeProgramWord w with
        | .ok i => exec i s
        | .error r => .next (s.refuse (refusalOf r))

/-- The application's step: GIE, only while IN_ISR = 0 (R244, R220; log 16). DESIGN CHOICE: it may come at every `mu`,
between two micro-steps of an operation and while FG is held in a wait (log 29). -/
def appGie (on : Bool) (s : State) : State := if s.inIsr then s else { s with gie := on }

/-- A move's step (R14). -/
def moveStep (m : Move) (s : State) : Host.Outcome State Fault Refusal :=
  match m with
  | .fg => fgStep s
  | .isr => exec .rxIsr s
  | .txe => .next (txeStep s)
  | .rxArrive b => .next (rxArrive b s)
  | .setGie on => .next (appGie on s)

/-- An event's step. Code outside the block does not write registers while the handler runs (log 16). DESIGN CHOICE: it
may write at every `mu`, also between two micro-steps of an operation (R246; log 30). -/
def eventStep (e : Event) (s : State) : Host.Outcome State Fault Refusal :=
  match e with
  | .move m => moveStep m s
  | .cfgWrite r v => .next (if s.inIsr then s else s.outsideWrite r v)

/-- One step of the machine. A state with a fault has no further step for any agent (R211; log 17). A state with CTL0 ≠ 0
while SWRST = 0 is refused: REFUSED is set, and then there is no step (R27, R48; log 18). Else the next event's agent makes
its step. -/
def machineStep (s : State) : Host.Outcome State Fault Refusal :=
  match s.faults with
  | f :: _ => .fault f
  | [] =>
    if s.badFormat then
      match s.refused with
      | some r => .refused r
      | none => .next (s.refuse .frameFormat)
    else eventStep s.nextEvent.1 s.nextEvent.2

end Sys2Proof.Machine
end

