-- ==== Sys2Proof/Machine/Step.lean ====
section
/-! DEFINITION. The step of the machine and the placing of an instruction where the next step performs it. -/

namespace Sys2Proof.Machine

open Sys2Proof

/-- One step of one agent (spec/60_exceptions.md R210). -/
def step (s : State) : Host.Outcome State Fault Refusal := machineStep s

/-- `s` with the instruction whose `nbits` bits are `w` placed so that the next step performs it (log 2). -/
def State.withFetchWord (s : State) (nbits w : Nat) : State :=
  s.placeWord (BitVec.ofNat 32 (w % 2 ^ nbits))

end Sys2Proof.Machine
end

