-- ==== Sys2Proof/Machine/RegMap.lean ====
section
/-! DEFINITION. The register map `REGMAP` of spec/10_state.md R49 and spec/20_memory.md R87, with each register's
value as software sees it and the side effect of a read (R78). No operation rule depends on an address (R3). -/

namespace Sys2Proof.Machine

open Sys2Proof

/-- The registers of R49. -/
inductive Reg where
  | ie2
  | ifg2
  | psel
  | psel2
  | trim
  | bcs
  | ctl0
  | ctl1
  | br0
  | br1
  | mctl
  | stat
  | rxbuf
  | txbuf
deriving DecidableEq, Repr

/-- Every register, in the order of R49's table. -/
def allRegs : List Reg :=
  [.ie2, .ifg2, .psel, .psel2, .trim, .bcs, .ctl0, .ctl1, .br0, .br1, .mctl, .stat, .rxbuf, .txbuf]

/-- The address of a register (R49). -/
def regAddr : Reg → Nat
  | .ie2 => 0x0001
  | .ifg2 => 0x0003
  | .psel => 0x0026
  | .psel2 => 0x0041
  | .trim => 0x0056
  | .bcs => 0x0057
  | .ctl0 => 0x0060
  | .ctl1 => 0x0061
  | .br0 => 0x0062
  | .br1 => 0x0063
  | .mctl => 0x0064
  | .stat => 0x0065
  | .rxbuf => 0x0066
  | .txbuf => 0x0067

/-- The bits the block owns (R49). -/
def regOwned : Reg → Byte
  | .ie2 => 0x03#8
  | .ifg2 => 0x03#8
  | .psel => 0x06#8
  | .psel2 => 0x06#8
  | .trim => 0xFF#8
  | .bcs => 0xFF#8
  | .ctl0 => 0xFF#8
  | .ctl1 => 0xFF#8
  | .br0 => 0xFF#8
  | .br1 => 0xFF#8
  | .mctl => 0xFF#8
  | .stat => 0xFF#8
  | .rxbuf => 0xFF#8
  | .txbuf => 0xFF#8

/-- The register's value. -/
def State.regValue (s : State) : Reg → Byte
  | .ie2 => s.ie2
  | .ifg2 => s.ifg2
  | .psel => s.psel
  | .psel2 => s.psel2
  | .trim => s.trim
  | .bcs => s.bcs
  | .ctl0 => s.ctl0
  | .ctl1 => s.ctl1
  | .br0 => s.br0
  | .br1 => s.br1
  | .mctl => s.mctl
  | .stat => s.stat
  | .rxbuf => s.rxbuf
  | .txbuf => s.txbuf

/-- `RegRead(F)` of R10: the value, and the side effect R78 gives the read of `RXBUF`; every other read has none. -/
def State.regRead (s : State) : Reg → Byte × State
  | .rxbuf => s.readRxbuf
  | .ie2 => (s.ie2, s)
  | .ifg2 => (s.ifg2, s)
  | .psel => (s.psel, s)
  | .psel2 => (s.psel2, s)
  | .trim => (s.trim, s)
  | .bcs => (s.bcs, s)
  | .ctl0 => (s.ctl0, s)
  | .ctl1 => (s.ctl1, s)
  | .br0 => (s.br0, s)
  | .br1 => (s.br1, s)
  | .mctl => (s.mctl, s)
  | .stat => (s.stat, s)
  | .txbuf => (s.txbuf, s)

/-- The read-only calibration constants at their addresses (R26). R49 and R87 give the range 0x10F8 to 0x10FF and R26
assigns six of its eight addresses; DESIGN CHOICE: 0x10FA and 0x10FB hold no constant (log 27). -/
def calRead (a : Nat) : Option Byte :=
  if a = 0x10FE then some (Config.calTrim .mhz1)
  else if a = 0x10FF then some (Config.calBcs .mhz1)
  else if a = 0x10FC then some (Config.calTrim .mhz8)
  else if a = 0x10FD then some (Config.calBcs .mhz8)
  else if a = 0x10F8 then some (Config.calTrim .mhz16)
  else if a = 0x10F9 then some (Config.calBcs .mhz16)
  else none

end Sys2Proof.Machine
end

