-- ==== Sys2Proof/Machine/Wire.lean ====
section
/-! DEFINITION. The bits of a wire frame (spec/42_transmit.md R166, R167) and their inverse (spec/43_receive.md
R184). -/

namespace Sys2Proof.Machine

open Sys2Proof

/-- `FrameBits(v)`: start bit 0, eight data bits least significant first, stop bit 1 (R166). -/
def frameBits (v : Byte) : List Bool :=
  [false, bit v 0, bit v 1, bit v 2, bit v 3, bit v 4, bit v 5, bit v 6, bit v 7, true]

/-- The value of a list of bits, the first the least significant. -/
def bitsValue : List Bool → Nat
  | [] => 0
  | d :: ds => d.toNat + 2 * bitsValue ds

/-- The byte of a well-formed frame's bits: start bit 0, eight data bits, stop bit 1; any other bits are no frame
(R184). -/
def frameByte : List Bool → Option Byte
  | [false, d0, d1, d2, d3, d4, d5, d6, d7, true] =>
    some (BitVec.ofNat 8 (bitsValue [d0, d1, d2, d3, d4, d5, d6, d7]))
  | _ => none

/-- The bits a wire frame shows: only `Frame` has bits a claim may rely on (R163). -/
def Wire.bits : Wire → Option (List Bool)
  | .frame v _ => some (frameBits v)
  | .unreliable => none
  | .aborted => none

/-- The level of the transmit pin where the spec gives one: 1 (mark) while no frame is in flight and the pins
belong to the peripheral; before pin selection the pin is outside the block (R167). -/
def State.txIdleLevel (s : State) : Option Bool :=
  if s.pinsSelected && s.shift.isNone then some true else none

end Sys2Proof.Machine
end

