-- ==== Sys2Proof/Safety.lean ====
section
/-! DEFINITION. What counts as a good run, in the terms claims use: the launch premises of
spec/70_reset_and_hazards.md R243, the end of a run (R255), the hangs of spec/60_exceptions.md R226,
infinite schedules and weak fairness (spec/00_scope.md R15), and the invariants of the block's state. -/

namespace Sys2Proof.Machine

open Sys2Proof

/-- `k` micro-steps of the operation `i` with no other agent between them. -/
def runMicro (i : Instr) : Nat → State → Host.Outcome State Fault Refusal
  | 0, s => .next s
  | k + 1, s =>
    match exec i s with
    | .next t => runMicro i k t
    | .fault f => .fault f
    | .refused r => .refused r

/-- The machine can step and the next event of its schedule is `e`. -/
abbrev State.atEvent (s : State) (e : Event) (es : List Event) : Prop :=
  s.faults = [] ∧ s.badFormat = false ∧ s.sched = e :: es

/-- FG can step and is at an operation: it is not refused, preempted or finished. -/
def State.atOperation (s : State) (i : Instr) : Prop :=
  s.refused = none ∧ s.inIsr = false ∧ ∃ w, s.fetch = some w ∧ decodeProgramWord w = .ok i

/-- A schedule that lets PUT_STR send `n` bytes: for each byte FG reads, waits and writes, then TXE loads and emits. -/
def sendSchedule : Nat → List Event
  | 0 => []
  | n + 1 => .move .fg :: .move .fg :: .move .fg :: .move .txe :: .move .txe :: sendSchedule n

/-- A byte arrives and the handler runs, from entry to return. -/
def receiveEvents (b : Byte) : List Event := [.move (.rxArrive b), .move .isr, .move .isr, .move .isr]

/-! ### Launch premises (R243) -/

/-- `Exclusive`: no code outside the block writes its registers. -/
def Event.isMove : Event → Bool
  | .move _ => true
  | .cfgWrite _ _ => false

/-- `Exclusive` of R243: the schedule holds no write by code outside the block. -/
def State.exclusive (s : State) : Bool := s.sched.all Event.isMove

/-- `GieSet` of R243: GIE is 1, or was when the running handler was entered. -/
def State.gieSet (s : State) : Bool :=
  match s.saved with
  | none => s.gie
  | some r => r.gie

/-- `NoFault` of R243. -/
def State.noFault (s : State) : Bool := s.faults.isEmpty && s.refused.isNone

/-- `BootOrder` of R243: SET_CLOCK with a supported speed, then INIT_UART with the same speed and a pair that is in
the table, come first. -/
def bootOrder : List Word → Bool
  | w0 :: w1 :: _ =>
    match decodeProgramWord w0, decodeProgramWord w1 with
    | .ok (.setClock k), .ok (.initUart b c) => k == c && (lookupPair b c).isSome
    | _, _ => false
  | _ => false

/-- From address `a` on, within `n` addresses, every byte is admitted up to a zero byte. -/
def terminated (m : List Host.Cell) : Nat → Nat → Bool
  | 0, _ => false
  | n + 1, a =>
    match memRead m a with
    | none => false
    | some c => c == 0x00#8 || terminated m n (a + 1)

/-- `StringsAdmitted` of R243: every PUT_STR of the program points at an admitted, null-terminated sequence that
does not run past 0xFFFF. -/
def State.stringsAdmitted (s : State) : Bool :=
  s.prog.all fun w =>
    match decodeProgramWord w with
    | .ok (.putStr addr) => terminated s.mem (addrSpace - addr.toNat) addr.toNat
    | _ => true

/-! ### The end of a run -/

/-- The transmit path has drained (R251, R255). -/
def State.drained (s : State) : Bool := s.txifg && s.shift.isNone

/-- A run has ended well (R255). -/
def State.endedWell (s : State) : Bool :=
  s.pc == s.prog.length && s.mu == .idle && !s.inIsr && s.noFault && (s.swrst || s.drained)
    && !(s.rxifg && s.rxie && s.gie)

/-- FG is stuck at the read of an address the launch does not admit (R72, R153, R210). -/
def State.fgStuck (s : State) : Bool :=
  match s.fetch, s.mu with
  | some w, .strRead i =>
    match decodeProgramWord w with
    | .ok (.putStr addr) => decide (strAddr addr i < addrSpace) && (memRead s.mem (strAddr addr i)).isNone
    | _ => false
  | _, _ => false

/-! ### Infinite schedules and weak fairness (R15, R216) -/

/-- The event `e` happens in `s`. Where the step is a fault or a refusal there is no step, and the state stays. -/
def State.stepWith (s : State) (e : Event) : State :=
  match step { s with sched := [e] } with
  | .next t => t
  | .fault _ => s
  | .refused _ => s

/-- The state after the first `n` events of an infinite schedule. -/
def State.after (f : Nat → Event) (s : State) : Nat → State
  | 0 => s
  | n + 1 => (s.after f n).stepWith (f n)

/-- Some agent may have a step: no fault is recorded (R211) and the state is not refused as a whole (R27). -/
def State.canStep (s : State) : Bool := s.faults.isEmpty && !s.badFormat

/-- The agent whose move this is has an enabled step: FG where its step is not a hold (R10), the interrupt under the
condition of R216 or inside the handler, TXE under those of R160 and R161, an arrival under that of R180. -/
def State.enables (s : State) (m : Move) : Bool :=
  s.canStep &&
    match m with
    | .fg =>
      match fgStep s with
      | .next t => t != s
      | .fault _ => false
      | .refused _ => false
    | .isr => s.irqReady || s.inIsr
    | .txe => s.engineOn && (s.shift.isSome || !s.txifg)
    | .rxArrive _ => s.engineOn
    | .setGie _ => !s.inIsr

/-- The schedule is weakly fair to a move: a move enabled at every state from some point on is taken after it. -/
def FairTo (m : Move) (f : Nat → Event) (s : State) : Prop :=
  ∀ n, ∃ k, n ≤ k ∧ (f k = .move m ∨ (s.after f k).enables m = false)

/-- The schedule is weakly fair to RXE, where `line k` is the byte the line partner is sending at step `k`, if any: only a
byte being sent arrives, and one that is being sent from some point on, while the arrival stays enabled, lands after it.
When and whether to send, and which byte, stays the partner's liberty (R261): `line` is any function (log 1). -/
def FairToArrivals (line : Nat → Option Byte) (f : Nat → Event) (s : State) : Prop :=
  (∀ k b, f k = .move (.rxArrive b) → line k = some b) ∧
  ∀ n, ∃ k, n ≤ k ∧ ∀ b, line k = some b →
    f k = .move (.rxArrive b) ∨ (s.after f k).enables (.rxArrive b) = false

/-- A weakly fair run (R15, R216): fair to TXE, RXE and the interrupt, and FG, whose steps a claim that a run ends is
about, makes its own step where it stays enabled (log 1). -/
structure WeaklyFair (line : Nat → Option Byte) (f : Nat → Event) (s : State) : Prop where
  txe : FairTo .txe f s
  rxe : FairToArrivals line f s
  isr : FairTo .isr f s
  fg : FairTo .fg f s

/-! ### The transmit path -/

/-- The bytes accepted and not yet on the wire, oldest first: the one in SHIFT, then the one in TXBUF
(spec/42_transmit.md R164). -/
def State.pending (s : State) : List Byte :=
  (s.shift.map ShiftFrame.byte).toList ++ (if s.txifg then [] else [s.txbuf])

/-! ### Invariants -/

/-- The micro-state belongs to the operation (R22). -/
def Micro.fits : Micro → Instr → Bool
  | .idle, _ => true
  | .init _, .initUart _ _ => true
  | .putchWrite, .putch _ => true
  | .strRead _, .putStr _ => true
  | .strWait _ _, .putStr _ => true
  | .strWrite _ _, .putStr _ => true
  | .rxWait, .uartRx _ => true
  | _, _ => false

/-- `mu` is Idle, or names a micro-step of the operation at `pc` (R22). -/
def State.muFits (s : State) : Bool :=
  s.mu == .idle ||
    match s.fetch with
    | none => false
    | some w =>
      match decodeProgramWord w with
      | .ok i => s.mu.fits i
      | .error _ => false

/-- PHASE and SSEL as the micro-state requires: Configuring exactly inside INIT_UART (R44), SMCLK from its step 2
on (R127). -/
def State.phaseFits (s : State) : Bool :=
  match s.mu with
  | .init .s2 => s.phase == .configuring
  | .init .s3 => s.phase == .configuring && s.ssel == 0b10#2
  | .init .s4 => s.phase == .configuring && s.ssel == 0b10#2
  | .init .s5 => s.phase == .configuring && s.ssel == 0b10#2
  | .init .s6 => s.phase == .configuring && s.ssel == 0b10#2
  | .init .s7 => s.phase == .active
  | _ => s.phase != .configuring

/-- The life of the peripheral: `PHASE = Active` exactly when SWRST = 0 (R44); under reset RXIE, RXIFG and OE are 0
and SHIFT is empty (R39); out of reset the source is SMCLK; between INIT_UART's steps 6 and 7 RXIE is 0 (R135); CTL0 is 0x00 (R27). -/
def LifecycleInv (s : State) : Prop :=
  s.muFits = true ∧ s.phaseFits = true ∧
  (s.phase = .active ↔ s.swrst = false) ∧
  (s.swrst = true → s.rxie = false ∧ s.rxifg = false ∧ s.oe = false ∧ s.shift = none) ∧
  (s.swrst = false → s.ssel = 0b10#2) ∧
  (s.mu = .init .s7 → s.rxie = false) ∧
  s.ctl0 = 0x00#8

/-- The interrupt context: SAVED holds FG's place exactly while IN_ISR = 1, GIE is then 0, so there is no nesting,
and an echo is next only under REFERENCE (R46, R217, R220). -/
def InterruptInv (s : State) : Prop :=
  (s.inIsr = s.saved.isSome) ∧
  (∀ r, s.saved = some r → r.pc = s.pc ∧ r.mu = s.mu ∧ r.gie = true) ∧
  (s.inIsr = true → s.gie = false) ∧
  (s.inIsr = true → s.contract = .declared → s.imu = .latch ∨ s.imu = .ret)

/-- The clock registers hold the calibration pair of the speed the oscillator runs at (R25, R111). -/
def ClockInv (s : State) : Prop :=
  ∀ k, s.osc = some k → s.bcs = Config.calBcs k ∧ s.trim = Config.calTrim k

/-- The divisor and modulation registers hold the table row that CFG names (R45, R121). -/
def DivisorInv (s : State) : Prop :=
  ∀ c, s.cfg = some c →
    s.br0 = (baudTable c.baud c.clk).divLow ∧ s.br1 = (baudTable c.baud c.clk).divHigh ∧
    s.brs = (baudTable c.baud c.clk).mod2 ∧ s.brf = (baudTable c.baud c.clk).mod1 ∧ s.os16 = false

/-- Where FG is about to write TXBUF under DECLARED, the buffer is empty (R152). -/
def DeclaredWriteInv (s : State) : Prop :=
  s.contract = .declared →
    (s.mu = .putchWrite ∨ ∃ i c, s.mu = .strWrite i c) → s.txifg = true

/-- A returned value is a byte or, under DECLARED only, the sentinel (R191, R190). -/
def RetInv (s : State) : Prop :=
  s.retWritten = true → s.ret.toNat < 256 ∨ (s.contract = .declared ∧ s.ret = noData)

end Sys2Proof.Machine
end

