-- ==== Sys2Proof/Certificates/Slice0/Obligations.lean ====
section
/-! DEFINITION. The statements for the provers, each with the rules of spec/ it formalises. An equation
`exec i s = .next {s with …}` says the result and the frame at once: every field it does not name is unchanged. -/

open Sys2Proof Sys2Proof.Machine

/-! ### Encoding -/

/-- R93 to R99: no argument bit of an encoding is lost. -/
def Obligations.DecodeInvertsEncode : Prop :=
  ∀ i : Instr, decode (encode i) = .ok i ∧ (i.inProgram = true → decodeProgramWord (encode i) = .ok i)

/-- R93 to R99: a word that decodes is the one encoding of its operation. -/
def Obligations.EncodeInvertsDecode : Prop :=
  ∀ (w : Word) (i : Instr), decode w = .ok i → encode i = w

/-- R103: the decoder is total; each reason in its order; each row of the table selects its operation and no two
rows overlap. -/
def Obligations.DecoderReasonsInOrder : Prop :=
  ∀ w : Word,
    ((opField w = 0x0#4 ∨ 8 ≤ (opField w).toNat) → decodeProgramWord w = .error .reservedOp) ∧
    (opField w ≠ 0x0#4 → (opField w).toNat < 8 → (∀ r ∈ opcodeTable, r.selects w = false) →
      decodeProgramWord w = .error .reservedBits) ∧
    (w = 0x70000000#32 → decodeProgramWord w = .error .handlerInProgram) ∧
    (∀ r ∈ opcodeTable, r.selects w = true → ∃ i, decode w = .ok i ∧ i.mnemonic = r.mnemonic ∧
      (w ≠ 0x70000000#32 → decodeProgramWord w = .ok i)) ∧
    opcodeTable.Pairwise (fun a b => a.selects w = true → b.selects w = false)

/-- R93 to R99, R104: the example words of the spec decode to the operations they stand for. -/
def Obligations.ExampleWordsDecode : Prop :=
  decode 0x10000010#32 = .ok (.setClock 16#8) ∧
  decode 0x20010010#32 = .ok (.initUart 1#8 16#8) ∧
  decode 0x30000000#32 = .ok .uninitUart ∧
  decode 0x40000041#32 = .ok (.putch 0x41#8) ∧
  decode 0x50000200#32 = .ok (.putStr 0x0200#16) ∧
  decode 0x60000001#32 = .ok (.uartRx true) ∧
  decode 0x70000000#32 = .ok .rxIsr

/-! ### The step -/

/-- R14, R22, R107: when FG's step comes, the step is the micro-step of the operation the word at pc decodes to, in
the state that has passed the event. -/
def Obligations.StepPerformsOperationAtPc : Prop :=
  ∀ (s : State) (es : List Event) (i : Instr), s.atEvent (.move .fg) es → s.atOperation i →
    step s = exec i { s with sched := es }

/-- R14, R99, R216: when the interrupt context's step comes, the step is RX_ISR's, whatever FG is doing. -/
def Obligations.StepDispatchesHandler : Prop :=
  ∀ (s : State) (es : List Event), s.atEvent (.move .isr) es → step s = exec .rxIsr { s with sched := es }

/-- R100, R101, R99: a refused word sets REFUSED, pc stays and FG has no step. That this is a next state which sets
REFUSED with its reason, and then the answer `refused` to each of FG's steps, is the model's choice (log 18). -/
def Obligations.RefusedWordStopsForeground : Prop :=
  ∀ (s : State) (es : List Event), s.atEvent (.move .fg) es → s.inIsr = false →
    (∀ w r, s.refused = none → s.fetch = some w → decodeProgramWord w = .error r →
      step s = .next { s with sched := es, refused := some (refusalOf r) }) ∧
    (∀ q, s.refused = some q → step s = .refused q)

/-- R211, R255: a state with a fault has no further step for any agent; a run has ended well exactly under the
conditions R255 lists, so never with a fault and never where FG is stuck at an unadmitted read. -/
def Obligations.FaultedStateHasNoStep : Prop :=
  (∀ (s : State) (f : Fault) (fs : List Fault), s.faults = f :: fs → step s = .fault f ∧ s.endedWell = false) ∧
  (∀ s : State, s.endedWell = true ↔
    s.pc = s.prog.length ∧ s.mu = .idle ∧ s.inIsr = false ∧ s.faults = [] ∧ s.refused = none ∧
    (s.swrst = true ∨ (s.txifg = true ∧ s.shift = none)) ∧
    (s.rxifg = false ∨ s.rxie = false ∨ s.gie = false)) ∧
  (∀ s : State, s.fgStuck = true → s.endedWell = false)

/-- R27, R48: a state with CTL0 ≠ 0x00 while SWRST = 0 is refused. That the refusal stops every agent, by one next state
that only sets REFUSED and then the answer `refused`, is the model's choice (log 18). -/
def Obligations.FrameFormatIsRefused : Prop :=
  ∀ s : State, s.faults = [] → s.ctl0 ≠ 0x00#8 → s.swrst = false →
    (s.refused = none → step s = .next { s with refused := some .frameFormat }) ∧
    (∀ r, s.refused = some r → step s = .refused r)

/-- R39, R77, R246: a write of a configuration register by code outside the block stores the value in that register or
field alone; while SWRST = 0 it also makes CFG none. The event itself, which registers it may name and that it happens
only while IN_ISR = 0, is the model's choice (log 16, log 19). -/
def Obligations.OutsideWriteLosesRate : Prop :=
  ∀ (s : State) (es : List Event) (r : CfgReg) (v : Byte), s.atEvent (.cfgWrite r v) es → s.inIsr = false →
    ∃ t, step s = .next t ∧ (s.swrst = false → t.cfg = none ∧ t.rateOk = false) ∧ (s.swrst = true → t.cfg = s.cfg) ∧
      (r = .ctl0 → t = { s with sched := es, cfg := t.cfg, ctl0 := v }) ∧
      (r = .br0 → t = { s with sched := es, cfg := t.cfg, br0 := v }) ∧
      (r = .br1 → t = { s with sched := es, cfg := t.cfg, br1 := v }) ∧
      (r = .mctl → t = { s with sched := es, cfg := t.cfg, mctl := v }) ∧
      (r = .ssel → t.ssel = v.extractLsb' 0 2 ∧ (∀ j, j ≤ 5 → bit t.ctl1 j = bit s.ctl1 j) ∧
        t = { s with sched := es, cfg := t.cfg, ctl1 := t.ctl1 })

/-! ### SET_CLOCK -/

/-- R110, R111: a supported speed. -/
def Obligations.SetClockSupported : Prop :=
  ∀ (k : Speed) (s : State),
    exec (.setClock (BitVec.ofNat 8 (speedMHz k))) s =
      .next { s with
        bcs := Config.calBcs k, trim := Config.calTrim k, osc := some k,
        shift := s.shift.map (fun f => { f with ok := false }), pc := s.pc + 1, mu := .idle }

/-- R112: any other speed changes nothing but pc. -/
def Obligations.SetClockUnsupportedIsNoOp : Prop :=
  ∀ (v : Byte) (s : State), v ≠ 1#8 → v ≠ 8#8 → v ≠ 16#8 →
    exec (.setClock v) s = .next { s with pc := s.pc + 1, mu := .idle }

/-- R113: twice in a row with the same speed leaves the oscillator configuration of once. -/
def Obligations.SetClockTwiceIsOnce : Prop :=
  ∀ (v : Byte) (s : State), ∃ t u,
    exec (.setClock v) s = .next t ∧ exec (.setClock v) t = .next u ∧
    u.bcs = t.bcs ∧ u.trim = t.trim ∧ u.osc = t.osc

/-! ### INIT_UART and UNINIT_UART -/

/-- R120, R121: LOOKUP on the six rows, and nowhere else. -/
def Obligations.BaudTableRows : Prop :=
  lookup 0#8 1#8 = some ⟨0x68#8, 0x00#8, 1#3, 0#4⟩ ∧
  lookup 0#8 8#8 = some ⟨0x41#8, 0x03#8, 2#3, 0#4⟩ ∧
  lookup 0#8 16#8 = some ⟨0x82#8, 0x06#8, 6#3, 0#4⟩ ∧
  lookup 1#8 1#8 = some ⟨0x08#8, 0x00#8, 6#3, 0#4⟩ ∧
  lookup 1#8 8#8 = some ⟨0x45#8, 0x00#8, 4#3, 0#4⟩ ∧
  lookup 1#8 16#8 = some ⟨0x8A#8, 0x00#8, 7#3, 0#4⟩ ∧
  baudRate <$> baudOf 0#8 = some 9600 ∧ baudRate <$> baudOf 1#8 = some 115200 ∧
  ∀ b c : Byte, lookup b c ≠ none → (b = 0#8 ∨ b = 1#8) ∧ (c = 1#8 ∨ c = 8#8 ∨ c = 16#8)

/-- R123: the divisor of each row is the floor of the clock over the baud. -/
def Obligations.DivisorIsClockOverBaud : Prop :=
  ∀ (b : Baud) (k : Speed),
    (baudTable b k).divHigh.toNat * 256 + (baudTable b k).divLow.toNat = speedMHz k * 1000000 / baudRate b

/-- R125 to R131: each micro-step of INIT_UART, from its own `mu`. -/
def Obligations.InitUartMicroSteps : Prop :=
  ∀ (s : State) (b c : Byte),
    (s.mu = .idle → ∃ t, exec (.initUart b c) s = .next t ∧
      t.swrst = true ∧ t.phase = .configuring ∧ t.slotFull = false ∧ t.slotVal = 0x00#8 ∧
      t.rxie = false ∧ t.rxifg = false ∧ t.txifg = true ∧ t.oe = false ∧ t.shift = none ∧ t.mu = .init .s2 ∧
      (s.shift = none → t.txline = s.txline ∧ t.draws = s.draws) ∧
      (∀ f, s.shift = some f → (t.txline = s.txline ++ [.aborted] ∨ t.txline = s.txline ++ [s.wireOf f]) ∧
        t.draws = s.draws + 1) ∧
      t = { s with
        ctl1 := withBit s.ctl1 0 true, phase := t.phase, slotFull := t.slotFull, slotVal := t.slotVal,
        ie2 := withBit s.ie2 0 false, ifg2 := withBit (withBit s.ifg2 0 false) 1 true, oe := t.oe,
        shift := t.shift, txline := t.txline, draws := t.draws, mu := t.mu }) ∧
    (s.mu = .init .s2 → ∃ t, exec (.initUart b c) s = .next t ∧
      t.ssel = 0b10#2 ∧ (∀ j, j ≤ 5 → bit t.ctl1 j = bit s.ctl1 j) ∧
      t = { s with ctl1 := t.ctl1, mu := .init .s3 }) ∧
    (s.mu = .init .s3 → ∃ t, exec (.initUart b c) s = .next t ∧ (s.swrst = true → t.cfg = s.cfg) ∧
      t = { s with ctl0 := 0x00#8, cfg := t.cfg, mu := .init .s4 }) ∧
    (s.mu = .init .s4 → ∃ t, exec (.initUart b c) s = .next t ∧
      t.pinsSelected = true ∧ t = { s with
        psel := withBit (withBit s.psel 1 true) 2 true, psel2 := withBit (withBit s.psel2 1 true) 2 true,
        mu := .init .s5 }) ∧
    (s.mu = .init .s5 → ∀ p, lookupPair b c = some p → ∃ t, exec (.initUart b c) s = .next t ∧
      t.br0 = (baudTable p.baud p.clk).divLow ∧ t.br1 = (baudTable p.baud p.clk).divHigh ∧
      t.brf = (baudTable p.baud p.clk).mod1 ∧ t.brs = (baudTable p.baud p.clk).mod2 ∧ t.os16 = false ∧
      t = { s with br0 := t.br0, br1 := t.br1, mctl := t.mctl, cfg := some p, mu := .init .s6 }) ∧
    (s.mu = .init .s5 → lookupPair b c = none →
      exec (.initUart b c) s = .next { s with cfg := none, mu := .init .s6 }) ∧
    (s.mu = .init .s6 → ∃ t, exec (.initUart b c) s = .next t ∧ t.swrst = false ∧
      t.ssel = s.ssel ∧ (∀ j, 1 ≤ j → j ≤ 5 → bit t.ctl1 j = bit s.ctl1 j) ∧
      t = { s with ctl1 := t.ctl1, phase := .active, mu := .init .s7 }) ∧
    (s.mu = .init .s7 → ∃ t, exec (.initUart b c) s = .next t ∧ t.rxie = true ∧ t.txie = s.txie ∧
      t = { s with ie2 := withBit s.ie2 0 true, pc := s.pc + 1, mu := .idle })

/-- R125, R134: INIT_UART on a table hit, all seven micro-steps. -/
def Obligations.InitUartHit : Prop :=
  ∀ (s : State) (b c : Byte) (p : LineCfg), s.mu = .idle → lookupPair b c = some p →
    ∃ t, runMicro (.initUart b c) 7 s = .next t ∧
      t.br0 = (baudTable p.baud p.clk).divLow ∧ t.br1 = (baudTable p.baud p.clk).divHigh ∧
      t.brs = (baudTable p.baud p.clk).mod2 ∧ t.brf = (baudTable p.baud p.clk).mod1 ∧ t.os16 = false ∧
      t.cfg = some p ∧ (t.rateOk = true ↔ s.osc = some p.clk) ∧
      t.ctl0 = 0x00#8 ∧ t.ssel = 0b10#2 ∧ t.swrst = false ∧ (∀ j, 1 ≤ j → j ≤ 5 → bit t.ctl1 j = bit s.ctl1 j) ∧
      t.pinsSelected = true ∧ t.rxie = true ∧ t.txie = s.txie ∧ t.rxifg = false ∧ t.txifg = true ∧ t.oe = false ∧
      t.phase = .active ∧ t.slotFull = false ∧ t.slotVal = 0x00#8 ∧ t.shift = none ∧
      t = { s with
        br0 := t.br0, br1 := t.br1, mctl := t.mctl, cfg := t.cfg, ctl0 := t.ctl0, ctl1 := t.ctl1, psel := t.psel,
        psel2 := t.psel2, ie2 := t.ie2, ifg2 := t.ifg2, oe := t.oe, phase := t.phase, slotFull := t.slotFull,
        slotVal := t.slotVal, shift := t.shift, txline := t.txline, draws := t.draws, pc := s.pc + 1, mu := .idle }

/-- R124, R134: on a table miss the divisor and modulation registers keep their values, CFG is none, and every other
step still runs. -/
def Obligations.InitUartMiss : Prop :=
  ∀ (s : State) (b c : Byte), s.mu = .idle → lookupPair b c = none →
    ∃ t, runMicro (.initUart b c) 7 s = .next t ∧
      t.cfg = none ∧ t.rateOk = false ∧
      t.ctl0 = 0x00#8 ∧ t.ssel = 0b10#2 ∧ t.swrst = false ∧ (∀ j, 1 ≤ j → j ≤ 5 → bit t.ctl1 j = bit s.ctl1 j) ∧
      t.pinsSelected = true ∧ t.rxie = true ∧ t.txie = s.txie ∧ t.rxifg = false ∧ t.txifg = true ∧ t.oe = false ∧
      t.phase = .active ∧
      t.slotFull = false ∧ t.slotVal = 0x00#8 ∧ t.shift = none ∧
      t = { s with
        cfg := t.cfg, ctl0 := t.ctl0, ctl1 := t.ctl1, psel := t.psel, psel2 := t.psel2, ie2 := t.ie2,
        ifg2 := t.ifg2, oe := t.oe, phase := t.phase, slotFull := t.slotFull, slotVal := t.slotVal,
        shift := t.shift, txline := t.txline, draws := t.draws, pc := s.pc + 1, mu := .idle }

/-- R135: from its step 1 to its step 6 no other agent of the block acts: the interrupt, TXE and RXE change nothing;
between its steps 6 and 7 the interrupt cannot be taken. -/
def Obligations.InitUartObservedAtomic : Prop :=
  ∀ (s : State) (es : List Event) (k : InitStep) (m : Move), LifecycleInv s → s.inIsr = false →
    s.mu = .init k → (m = .isr ∨ (k ≠ .s7 ∧ (m = .txe ∨ ∃ b, m = .rxArrive b))) → s.atEvent (.move m) es →
    step s = .next { s with sched := es }

/-- R137, R138: UNINIT_UART, and what it leaves as it was. -/
def Obligations.UninitUartEffect : Prop :=
  ∀ s : State, ∃ t, exec .uninitUart s = .next t ∧
    t.ssel = 0b00#2 ∧ t.swrst = true ∧ (∀ j, 1 ≤ j → j ≤ 5 → bit t.ctl1 j = bit s.ctl1 j) ∧
    t.brs = 0#3 ∧ t.brf = 0#4 ∧ t.os16 = s.os16 ∧ t.ctl0 = 0x00#8 ∧ t.phase = .uninitialized ∧ t.cfg = none ∧
    t.rxie = false ∧ t.txie = s.txie ∧ t.rxifg = false ∧ t.txifg = true ∧ t.oe = false ∧ t.shift = none ∧
    t = { s with
      ctl1 := t.ctl1, mctl := t.mctl, ctl0 := t.ctl0, phase := t.phase, cfg := t.cfg, ie2 := t.ie2, ifg2 := t.ifg2,
      oe := t.oe, shift := t.shift, txline := t.txline, draws := t.draws, pc := s.pc + 1, mu := .idle }

/-- R140: INIT_UART then UNINIT_UART returns CTL0, CTL1, MCTL, RXIE, RXIFG and TXIFG to their reset values; it does
not restore the divisors or the pin bits, and no bit that the block does not own changes. -/
def Obligations.InitThenUninit : Prop :=
  ∀ (s : State) (b c : Byte), s.mu = .idle → s.os16 = false → (∀ j, 1 ≤ j → j ≤ 5 → bit s.ctl1 j = false) →
    ∃ t u, runMicro (.initUart b c) 7 s = .next t ∧ exec .uninitUart t = .next u ∧
      u.ctl0 = State.reset.ctl0 ∧ u.ctl1 = State.reset.ctl1 ∧ u.mctl = State.reset.mctl ∧
      u.rxie = false ∧ u.rxifg = false ∧ u.txifg = true ∧
      u.br0 = t.br0 ∧ u.br1 = t.br1 ∧ u.pinsSelected = true ∧ u.gie = s.gie ∧
      ∀ r ∈ [Reg.ie2, Reg.ifg2, Reg.psel, Reg.psel2],
        u.regValue r &&& ~~~regOwned r = s.regValue r &&& ~~~regOwned r

/-! ### PUTCH and PUT_STR -/

/-- R150, R151: PUTCH passes its wait exactly when TXIFG = 1, and holds FG otherwise; its write is accepted and ends it,
under reset it is a draw between Hold and Discard and ends it, and while TXIFG = 0 it is a fault. -/
def Obligations.PutchMicroSteps : Prop :=
  ∀ (b : Byte) (s : State),
    (s.mu = .idle →
      (s.txifg = true → exec (.putch b) s = .next { s with mu := .putchWrite }) ∧
      (s.txifg = false → exec (.putch b) s = .next s)) ∧
    (s.mu = .putchWrite → s.txifg = true → s.swrst = false →
      ∃ t, exec (.putch b) s = .next t ∧ t.txbuf = b ∧ t.txifg = false ∧ t.rxifg = s.rxifg ∧
        t = { s with txbuf := b, ifg2 := t.ifg2, pc := s.pc + 1, mu := .idle }) ∧
    (s.mu = .putchWrite → s.txifg = true → s.swrst = true →
      ∃ t, exec (.putch b) s = .next t ∧
        ((t.txbuf = b ∧ t.txifg = false ∧ t.rxifg = s.rxifg) ∨ (t.txbuf = s.txbuf ∧ t.ifg2 = s.ifg2)) ∧
        t = { s with txbuf := t.txbuf, ifg2 := t.ifg2, draws := s.draws + 1, pc := s.pc + 1, mu := .idle }) ∧
    (s.mu = .putchWrite → s.txifg = false →
      exec (.putch b) s = .next { s with faults := s.faults ++ [.txOverwrite b .fg] })

/-- R150, R152, R153, R187, R212: a write of TXBUF while TXIFG = 0 records TX_OVERWRITE with the byte and the agent,
and nothing else happens. -/
def Obligations.OverwriteIsFault : Prop :=
  ∀ s : State, s.txifg = false →
    (∀ b, s.mu = .putchWrite →
      exec (.putch b) s = .next { s with faults := s.faults ++ [.txOverwrite b .fg] }) ∧
    (∀ a i c, s.mu = .strWrite i c →
      exec (.putStr a) s = .next { s with faults := s.faults ++ [.txOverwrite c .fg] }) ∧
    (∀ b, s.inIsr = true → s.imu = .echo b →
      exec .rxIsr s = .next { s with faults := s.faults ++ [.txOverwrite b .isr] })

/-- R153, R72, R76: PUT_STR starts at index 0; a read past 0xFFFF records STR_WRAP; an unadmitted address has no step;
a zero byte ends the operation; another byte is the next to send; its wait passes exactly when TXIFG = 1; and its
write is TXWRITE: accepted, or under reset a draw, it goes on to the next index; while TXIFG = 0 it is a fault. -/
def Obligations.PutStrMicroSteps : Prop :=
  ∀ (addr : Half) (s : State),
    (s.mu = .idle → exec (.putStr addr) s = .next { s with mu := .strRead 0 }) ∧
    (∀ i, s.mu = .strRead i →
      (65535 < addr.toNat + i →
        exec (.putStr addr) s = .next { s with faults := s.faults ++ [.strWrap addr i] }) ∧
      (addr.toNat + i ≤ 65535 →
        (memRead s.mem (addr.toNat + i) = none → exec (.putStr addr) s = .next s) ∧
        (memRead s.mem (addr.toNat + i) = some 0x00#8 →
          exec (.putStr addr) s = .next { s with pc := s.pc + 1, mu := .idle }) ∧
        (∀ c, memRead s.mem (addr.toNat + i) = some c → c ≠ 0x00#8 →
          exec (.putStr addr) s = .next { s with mu := .strWait i c }))) ∧
    (∀ i c, s.mu = .strWait i c →
      (s.txifg = true → exec (.putStr addr) s = .next { s with mu := .strWrite i c }) ∧
      (s.txifg = false → exec (.putStr addr) s = .next s)) ∧
    (∀ i c, s.mu = .strWrite i c → s.txifg = true → s.swrst = false →
      exec (.putStr addr) s =
        .next { s with txbuf := c, ifg2 := withBit s.ifg2 1 false, mu := .strRead (i + 1) }) ∧
    (∀ i c, s.mu = .strWrite i c → s.txifg = true → s.swrst = true →
      ∃ t, exec (.putStr addr) s = .next t ∧
        ((t.txbuf = c ∧ t.txifg = false ∧ t.rxifg = s.rxifg) ∨ (t.txbuf = s.txbuf ∧ t.ifg2 = s.ifg2)) ∧
        t = { s with txbuf := t.txbuf, ifg2 := t.ifg2, draws := s.draws + 1, mu := .strRead (i + 1) }) ∧
    (∀ i c, s.mu = .strWrite i c → s.txifg = false →
      exec (.putStr addr) s = .next { s with faults := s.faults ++ [.txOverwrite c .fg] })

/-- R155: on each byte PUT_STR's wait and write do what PUTCH's do, but for pc and mu, which are FG's own. -/
def Obligations.PutStrSendsLikePutch : Prop :=
  ∀ (addr : Half) (i : Nat) (c : Byte) (s : State), ∃ t u t' u',
    exec (.putStr addr) { s with mu := .strWait i c } = .next t ∧
    exec (.putch c) { s with mu := .idle } = .next u ∧
    { t with pc := 0, mu := .idle } = { u with pc := 0, mu := .idle } ∧
    (t.mu = .strWrite i c ↔ u.mu = .putchWrite) ∧
    exec (.putStr addr) { s with mu := .strWrite i c } = .next t' ∧
    exec (.putch c) { s with mu := .putchWrite } = .next u' ∧
    { t' with pc := 0, mu := .idle } = { u' with pc := 0, mu := .idle } ∧
    (t'.mu = .strRead (i + 1) ↔ u'.mu = .idle)

/-- R153, R154, R160, R161: with RATE_OK and one fixed schedule (log 1), one of the fair ones, in which TXE loads and
emits each byte, PUT_STR on a null-terminated sequence puts exactly its bytes on the line, in order, at the configured
baud, none for the terminator, and ends. -/
def Obligations.PutStrPutsSequenceOnLine : Prop :=
  ∀ (cs : List Byte) (addr : Half) (c : LineCfg) (s : State) (es : List Event),
    s.faults = [] → s.ctl0 = 0x00#8 → s.engineOn = true → s.cfg = some c → s.osc = some c.clk →
    s.shift = none → s.txifg = true → s.mu = .idle → s.atOperation (.putStr addr) →
    (∀ k (h : k < cs.length), memRead s.mem (addr.toNat + k) = some cs[k] ∧ cs[k] ≠ 0x00#8) →
    memRead s.mem (addr.toNat + cs.length) = some 0x00#8 → addr.toNat + cs.length ≤ 65535 →
    s.sched = .move .fg :: (sendSchedule cs.length ++ .move .fg :: es) →
    ∃ t, Sys2Proof.core.run (5 * cs.length + 2) s = .next t ∧
      t.txline = s.txline ++ cs.map (fun v => Wire.frame v c.baud) ∧
      t.pc = s.pc + 1 ∧ t.mu = .idle ∧ t.shift = none ∧ t.txifg = true ∧ t.faults = [] ∧ t.sched = es

/-! ### The transmit engine and the wire -/

/-- R160: TX_LOAD where it is enabled, and no step of TXE where SHIFT is empty and it is not. -/
def Obligations.TxLoadStep : Prop :=
  ∀ (s : State) (es : List Event), s.atEvent (.move .txe) es → s.shift = none →
    (s.swrst = false → (s.ssel = 0b10#2 ∨ s.ssel = 0b11#2) → s.txifg = false →
      ∃ t, step s = .next t ∧ t.shift = some ⟨s.txbuf, s.rateOk⟩ ∧ t.txifg = true ∧ t.rxifg = s.rxifg ∧
        t = { s with sched := es, shift := t.shift, ifg2 := t.ifg2 }) ∧
    ((s.swrst = true ∨ s.ssel = 0b00#2 ∨ s.ssel = 0b01#2 ∨ s.txifg = true) → step s = .next { s with sched := es })

/-- R161: TX_EMIT, where SWRST = 0 and SSEL is 0b10 or 0b11 and nowhere else: the frame at the configured baud where the byte was undisturbed and RATE_OK holds, else
Unreliable; a supported SET_CLOCK while SHIFT is not empty clears SHIFT_OK, so that frame is Unreliable. -/
def Obligations.TxEmitStep : Prop :=
  ∀ (s : State) (es : List Event) (f : ShiftFrame), s.shift = some f →
    (s.atEvent (.move .txe) es → s.engineOn = true →
      (∀ c, f.ok = true → s.rateOk = true → s.cfg = some c →
        step s = .next { s with sched := es, shift := none, txline := s.txline ++ [.frame f.byte c.baud] }) ∧
      ((f.ok = false ∨ s.rateOk = false) →
        step s = .next { s with sched := es, shift := none, txline := s.txline ++ [.unreliable] })) ∧
    (s.atEvent (.move .txe) es → (s.swrst = true ∨ s.ssel = 0b00#2 ∨ s.ssel = 0b01#2) →
      step s = .next { s with sched := es }) ∧
    (∀ k : Speed, ∃ t, exec (.setClock (BitVec.ofNat 8 (speedMHz k))) s = .next t ∧
      t.shift = some ⟨f.byte, false⟩)

/-- R162: TXE makes no step while SWRST = 1 or SSEL = 0b00; writing SWRST to 1 discards the byte in TXBUF and draws,
for a frame in SHIFT, Aborted or what TX_EMIT would have emitted. -/
def Obligations.ResetStopsTransmission : Prop :=
  ∀ (s : State) (es : List Event),
    (s.atEvent (.move .txe) es → (s.swrst = true ∨ s.ssel = 0b00#2) → step s = .next { s with sched := es }) ∧
    (∀ i, (i = .uninitUart ∨ ∃ b c, i = .initUart b c ∧ s.mu = .idle) →
      ∃ t, exec i s = .next t ∧ t.txifg = true ∧ t.shift = none ∧
        (s.shift = none → t.txline = s.txline) ∧
        (∀ f, s.shift = some f → t.txline = s.txline ++ [.aborted] ∨ t.txline = s.txline ++ [s.wireOf f]))

/-- R165: TXLINE is append-only; only TXE and the reset abort of an INIT_UART or UNINIT_UART append to it. -/
def Obligations.TxlineAppendOnly : Prop :=
  ∀ s t : State, step s = .next t → t.txline ≠ s.txline →
    (∃ w, t.txline = s.txline ++ [w]) ∧ s.shift ≠ none ∧ t.shift = none ∧
    (s.nextEvent.1 = .move .txe ∨
      (s.nextEvent.1 = .move .fg ∧ ∃ w, s.fetch = some w ∧
        (decodeProgramWord w = .ok .uninitUart ∨ ∃ b c, decodeProgramWord w = .ok (.initUart b c))))

/-- R164: every step leaves the bytes accepted and not yet sent in their order: it adds one accepted byte at the end,
sends the oldest, changes nothing, or empties the path by a reset. -/
def Obligations.TransmitKeepsOrder : Prop :=
  ∀ s t : State, step s = .next t →
    (t.pending = s.pending ∧ t.txline = s.txline) ∨
    (s.txifg = true ∧ t.pending = s.pending ++ [t.txbuf] ∧ t.txline = s.txline) ∨
    (∃ f, s.shift = some f ∧ s.pending = f.byte :: t.pending ∧ t.txline = s.txline ++ [s.wireOf f]) ∨
    (t.pending = [] ∧ t.swrst = true)

/-- R184, R166: deserialization is the inverse of FrameBits, gives the sum of R184, and takes nothing else for a
frame. -/
def Obligations.FrameBitsInverse : Prop :=
  (∀ v : Byte, frameByte (frameBits v) = some v) ∧
  (∀ (bs : List Bool) (v : Byte), frameByte bs = some v → bs = frameBits v) ∧
  (∀ d0 d1 d2 d3 d4 d5 d6 d7 : Bool,
    (frameByte [false, d0, d1, d2, d3, d4, d5, d6, d7, true]).map BitVec.toNat =
      some (d0.toNat + 2 * d1.toNat + 4 * d2.toNat + 8 * d3.toNat + 16 * d4.toNat + 32 * d5.toNat +
        64 * d6.toNat + 128 * d7.toNat))

/-! ### The receive engine and the handler -/

/-- R180, R181, R183: an arrival where it is enabled; the byte that lands is the byte sent while RATE_OK holds, else a
free value. Where it is not enabled nothing lands. -/
def Obligations.ArrivalLands : Prop :=
  ∀ (s : State) (es : List Event) (b : Byte), s.atEvent (.move (.rxArrive b)) es →
    (s.swrst = false → (s.ssel = 0b10#2 ∨ s.ssel = 0b11#2) →
      ∃ t, step s = .next t ∧ (s.rateOk = true → t.rxbuf = b ∧ t.draws = s.draws) ∧ t.rxifg = true ∧
        t.txifg = s.txifg ∧ (s.rxifg = true → t.oe = true) ∧ (s.rxifg = false → t.oe = s.oe) ∧
        t = { s with sched := es, rxbuf := t.rxbuf, ifg2 := t.ifg2, oe := t.oe, draws := t.draws }) ∧
    ((s.swrst = true ∨ s.ssel = 0b00#2 ∨ s.ssel = 0b01#2) → step s = .next { s with sched := es })

/-- R216, R217: the interrupt is entered exactly under its condition, and saves pc, mu and GIE; FG makes no step while
IN_ISR = 1. -/
def Obligations.InterruptEntry : Prop :=
  ∀ s : State,
    (s.inIsr = false → s.rxifg = true → s.rxie = true → s.gie = true →
      exec .rxIsr s =
        .next { s with saved := some ⟨s.pc, s.mu, s.gie⟩, gie := false, inIsr := true, imu := .latch }) ∧
    (s.inIsr = false → (s.rxifg = false ∨ s.rxie = false ∨ s.gie = false) → exec .rxIsr s = .next s) ∧
    (∀ es, s.inIsr = true → s.atEvent (.move .fg) es → step s = .next { s with sched := es })

/-- R186: the handler's body under DECLARED: the byte is latched, RXIFG cleared, nothing is echoed. -/
def Obligations.HandlerDeclared : Prop :=
  ∀ s : State, s.inIsr = true → s.imu = .latch → s.contract = .declared →
    ∃ t, exec .rxIsr s = .next t ∧ t.slotVal = s.rxbuf ∧ t.slotFull = true ∧ t.rxifg = false ∧
      t.txifg = s.txifg ∧
      t = { s with slotVal := s.rxbuf, slotFull := true, ifg2 := t.ifg2, imu := .ret }

/-- R187: the handler's two micro-steps under REFERENCE: the latch, then the echo through TXWRITE without a wait. -/
def Obligations.HandlerReference : Prop :=
  ∀ s : State, s.inIsr = true →
    (s.imu = .latch → s.contract = .reference →
      ∃ t, exec .rxIsr s = .next t ∧ t.rxifg = false ∧ t.txifg = s.txifg ∧
        t = { s with slotVal := s.rxbuf, slotFull := true, ifg2 := t.ifg2, imu := .echo s.rxbuf }) ∧
    (∀ b, s.imu = .echo b → s.txifg = true → s.swrst = false →
      ∃ t, exec .rxIsr s = .next t ∧ t.txifg = false ∧ t.rxifg = s.rxifg ∧
        t = { s with txbuf := b, ifg2 := t.ifg2, imu := .ret }) ∧
    (∀ b, s.imu = .echo b → s.txifg = true → s.swrst = true →
      ∃ t, exec .rxIsr s = .next t ∧
        ((t.txbuf = b ∧ t.txifg = false ∧ t.rxifg = s.rxifg) ∨ (t.txbuf = s.txbuf ∧ t.ifg2 = s.ifg2)) ∧
        t = { s with txbuf := t.txbuf, ifg2 := t.ifg2, draws := s.draws + 1, imu := .ret }) ∧
    (∀ b, s.imu = .echo b → s.txifg = false →
      exec .rxIsr s = .next { s with faults := s.faults ++ [.txOverwrite b .isr] })

/-- R219: the interrupt return restores pc, mu and GIE. -/
def Obligations.InterruptReturn : Prop :=
  ∀ (s : State) (r : SavedFg), s.inIsr = true → s.imu = .ret → s.saved = some r →
    exec .rxIsr s = .next { s with pc := r.pc, mu := r.mu, gie := r.gie, inIsr := false, saved := none }

/-- R186, R217, R219, R222: under DECLARED an interrupt, from entry to return, changes the latch and RXIFG only; FG
resumes at the micro-step it was about to perform. -/
def Obligations.InterruptIsTransparent : Prop :=
  ∀ s : State, s.irqReady = true → s.saved = none → s.contract = .declared →
    runMicro .rxIsr 3 s =
      .next { s with
        slotFull := true, slotVal := s.rxbuf, ifg2 := withBit s.ifg2 0 false, imu := .ret }

/-- R192: the handler's latch replaces the latched byte, and what the latch held before makes no difference: the older
byte is lost without trace. -/
def Obligations.LatchForgetsOlderByte : Prop :=
  ∀ (s : State) (full : Bool) (v : Byte), s.inIsr = true → s.imu = .latch →
    ∃ t, exec .rxIsr s = .next t ∧ t.slotFull = true ∧ t.slotVal = s.rxbuf ∧
      exec .rxIsr { s with slotFull := full, slotVal := v } = .next t

/-! ### UART_RX -/

/-- R189: UART_RX under DECLARED. -/
def Obligations.UartRxDeclared : Prop :=
  ∀ (s : State) (block : Bool), s.contract = .declared →
    ((s.mu = .idle ∨ s.mu = .rxWait) → s.slotFull = true →
      exec (.uartRx block) s =
        .next { s with
          ret := s.slotVal.setWidth 16, retWritten := true, slotFull := false, pc := s.pc + 1, mu := .idle }) ∧
    (s.mu = .idle → s.slotFull = false → block = false →
      exec (.uartRx block) s =
        .next { s with ret := 0xFFFF#16, retWritten := true, pc := s.pc + 1, mu := .idle }) ∧
    (s.mu = .idle → s.slotFull = false → block = true →
      exec (.uartRx block) s = .next { s with mu := .rxWait }) ∧
    (s.mu = .rxWait → s.slotFull = false → exec (.uartRx block) s = .next s)

/-- R190: UART_RX under REFERENCE, for both values of REF_WAIT. -/
def Obligations.UartRxReference : Prop :=
  ∀ (s : State) (block : Bool), s.contract = .reference →
    (s.mu = .idle →
      exec (.uartRx block) s = .next { s with slotVal := 0x00#8, slotFull := false, mu := .rxWait }) ∧
    (s.mu = .rxWait →
      ((s.refWait = .nonzero ∧ s.slotVal ≠ 0x00#8) ∨ (s.refWait = .arrival ∧ s.slotFull = true)) →
      exec (.uartRx block) s =
        .next { s with ret := s.slotVal.setWidth 16, retWritten := true, pc := s.pc + 1, mu := .idle }) ∧
    (s.mu = .rxWait →
      ((s.refWait = .nonzero ∧ s.slotVal = 0x00#8) ∨ (s.refWait = .arrival ∧ s.slotFull = false)) →
      exec (.uartRx block) s = .next s)

/-- R195, on one fixed schedule (log 1) with no step of TXE or the application between: under DECLARED, with RATE_OK, GIE = 1 and PHASE = Active, after one byte has arrived and the handler has run a
first non-blocking read returns it, a second returns the sentinel, a blocking read then holds FG however often it is
scheduled, and returns the next byte that arrives. -/
def Obligations.DeclaredReceiveSequence : Prop :=
  ∀ (s : State) (b c : Byte) (n : Nat) (es : List Event),
    s.contract = .declared → s.faults = [] → s.refused = none → s.ctl0 = 0x00#8 → s.engineOn = true → s.rateOk = true →
    s.rxie = true → s.rxifg = false → s.gie = true → s.inIsr = false → s.saved = none → s.phase = .active →
    s.mu = .idle →
    s.prog[s.pc]? = some 0x60000000#32 → s.prog[s.pc + 1]? = some 0x60000000#32 →
    s.prog[s.pc + 2]? = some 0x60000001#32 →
    s.sched = receiveEvents b ++ (.move .fg :: .move .fg :: (List.replicate (n + 1) (.move .fg) ++
      (receiveEvents c ++ (.move .fg :: es)))) →
    ∃ t u v w, Sys2Proof.core.run 5 s = .next t ∧ t.ret = b.setWidth 16 ∧ t.pc = s.pc + 1 ∧ t.retWritten = true ∧
      Sys2Proof.core.run 1 t = .next u ∧ u.ret = 0xFFFF#16 ∧ u.pc = s.pc + 2 ∧
      Sys2Proof.core.run (n + 1) u = .next v ∧ v.mu = .rxWait ∧ v.pc = s.pc + 2 ∧ v.ret = 0xFFFF#16 ∧
      Sys2Proof.core.run 5 v = .next w ∧ w.ret = c.setWidth 16 ∧ w.pc = s.pc + 3 ∧ w.mu = .idle ∧
      w.slotFull = false ∧ w.gie = true ∧ w.faults = [] ∧ w.sched = es

/-! ### Reset and the whole machine -/

/-- R51, R242: the values the spec states for reset. -/
def Obligations.ResetValues : Prop :=
  let r := State.reset
  r.bcs = 0x87#8 ∧ r.trim = 0x60#8 ∧ r.osc = none ∧ r.ctl0 = 0x00#8 ∧ r.ctl1 = 0x01#8 ∧ r.ssel = 0b00#2 ∧
  r.swrst = true ∧ r.br0 = 0x00#8 ∧ r.br1 = 0x00#8 ∧ r.mctl = 0x00#8 ∧ r.stat = 0x00#8 ∧ r.rxie = false ∧
  r.txie = false ∧ r.rxifg = false ∧ r.txifg = true ∧ r.gie = false ∧ bit r.psel 1 = false ∧
  bit r.psel 2 = false ∧ bit r.psel2 1 = false ∧ bit r.psel2 2 = false ∧ r.shift = none ∧ r.txline = [] ∧
  r.slotFull = false ∧ r.slotVal = 0x00#8 ∧ r.phase = .uninitialized ∧ r.cfg = none ∧ r.rateOk = false ∧
  r.inIsr = false ∧ r.saved = none ∧ r.faults = [] ∧ r.refused = none ∧ r.pc = 0 ∧ r.mu = .idle ∧
  r.claimRet = .error .unwrittenRet

/-- R32: in every state bit 5 of STAT is OE, bit 0 is 1 exactly when SHIFT is not empty, every other bit is 0, and its
read has no side effect (R78). That a frame being received never sets BUSY is the model's inference (log 7). -/
def Obligations.StatBits : Prop :=
  ∀ s : State,
    bit s.stat 5 = s.oe ∧ (bit s.stat 0 = true ↔ s.shift ≠ none) ∧ s.busy = bit s.stat 0 ∧
    (∀ j, j < 8 → j ≠ 0 → j ≠ 5 → bit s.stat j = false) ∧ s.regRead .stat = (s.stat, s)

/-- R242: no interrupt can be taken in the mode after reset. -/
def Obligations.ResetTakesNoInterrupt : Prop :=
  let r := State.reset
  r.phase = .uninitialized ∧ r.inIsr = false ∧ r.gie = false ∧ r.rxie = false ∧
  ∀ rxifg : Bool, exec .rxIsr { r with ifg2 := withBit r.ifg2 0 rxifg } =
    .next { r with ifg2 := withBit r.ifg2 0 rxifg }

/-- The invariants below hold at reset. -/
def Obligations.ResetMeetsInvariants : Prop :=
  LifecycleInv State.reset ∧ InterruptInv State.reset ∧ ClockInv State.reset ∧ DivisorInv State.reset ∧
  DeclaredWriteInv State.reset ∧ RetInv State.reset ∧ memWf State.reset.mem = true

/-- R27, R39, R44, R127: while no code outside the block writes its registers, every step keeps PHASE = Active exactly
when SWRST = 0, Configuring exactly inside INIT_UART, RXIE, RXIFG, OE and SHIFT clear under reset, SMCLK out of
reset, CTL0 = 0x00, and mu a micro-step of the operation at pc. -/
def Obligations.LifecycleKept : Prop :=
  ∀ s t : State, LifecycleInv s → InterruptInv s → s.exclusive = true → step s = .next t → LifecycleInv t

/-- R46, R217, R219, R220: every step keeps SAVED holding FG's place exactly while IN_ISR = 1, with GIE = 0 there. That
the application's step does not set GIE in the handler is the model's choice (log 16). -/
def Obligations.InterruptContextKept : Prop :=
  ∀ s t : State, InterruptInv s → step s = .next t → InterruptInv t

/-- R45, R121, R125: while no code outside the block writes its registers, the divisor and modulation registers hold
the row CFG names. -/
def Obligations.DivisorsFollowCfg : Prop :=
  ∀ s t : State, DivisorInv s → s.exclusive = true → step s = .next t → DivisorInv t

/-- R25, R110, R111: the clock registers hold the constants of the speed the oscillator runs at. -/
def Obligations.ClockFollowsSpeed : Prop :=
  ∀ s t : State, ClockInv s → step s = .next t → ClockInv t

/-- R71, R88, R107, R7: no step of any agent writes MEM, the program or a parameter of the run; every address reads as
before, and the memory keeps its canonical form. -/
def Obligations.LaunchDataKept : Prop :=
  ∀ s t : State, step s = .next t →
    (∀ a, memRead t.mem a = memRead s.mem a) ∧ (memWf s.mem = true → memWf t.mem = true) ∧
    t.prog = s.prog ∧ t.contract = s.contract ∧ t.refWait = s.refWait

/-- R22: pc moves by one or stays, and does not pass the program's end. -/
def Obligations.ProgramCounterNeverBack : Prop :=
  ∀ s t : State, InterruptInv s → step s = .next t →
    (t.pc = s.pc ∨ t.pc = s.pc + 1) ∧ (s.pc ≤ s.prog.length → t.pc ≤ t.prog.length)

/-- R47, R48, R211, R221: FAULTS only grows, by at most one fault, and REFUSED is never cleared. -/
def Obligations.FaultsAndRefusedSticky : Prop :=
  ∀ s t : State, step s = .next t →
    s.faults <+: t.faults ∧ t.faults.length ≤ 1 ∧ (∀ r, s.refused = some r → t.refused = some r)

/-- R34, R35, R38, R168: no step of any agent changes a bit of IE2, IFG2, PSEL or PSEL2 that the block does not own,
and none changes TXIE. -/
def Obligations.ForeignBitsKept : Prop :=
  ∀ s t : State, step s = .next t →
    t.txie = s.txie ∧
    ∀ r ∈ [Reg.ie2, Reg.ifg2, Reg.psel, Reg.psel2],
      t.regValue r &&& ~~~regOwned r = s.regValue r &&& ~~~regOwned r

/-- R21: `ret` is written only by UART_RX. -/
def Obligations.RetOnlyByUartRx : Prop :=
  ∀ s t : State, step s = .next t → (t.ret ≠ s.ret ∨ t.retWritten ≠ s.retWritten) →
    s.nextEvent.1 = .move .fg ∧ ∃ w block, s.fetch = some w ∧ decodeProgramWord w = .ok (.uartRx block)

/-- R33, R50: GIE is written only by the application and by interrupt entry and return. -/
def Obligations.GieOnlyByApplicationAndInterrupt : Prop :=
  ∀ s t : State, step s = .next t → t.gie ≠ s.gie →
    s.nextEvent.1 = .move .isr ∨ ∃ on, s.nextEvent.1 = .move (.setGie on)

/-- R217: FG makes no step while IN_ISR = 1; no step but the handler's own changes FG's place, the latch, the result or
the interrupt context. That the application's step and outside writes change nothing in the handler is the model's
choice (log 16). -/
def Obligations.ForegroundPreempted : Prop :=
  ∀ s t : State, s.inIsr = true → s.badFormat = false → step s = .next t → s.nextEvent.1 ≠ .move .isr →
    t = { s with
      sched := t.sched, draws := t.draws, shift := t.shift, txline := t.txline, ifg2 := t.ifg2,
      oe := t.oe, rxbuf := t.rxbuf }

/-- R152: under DECLARED TX_OVERWRITE cannot arise: where FG is about to write TXBUF the buffer stays empty. -/
def Obligations.DeclaredNeverOverwrites : Prop :=
  ∀ s t : State, s.contract = .declared → InterruptInv s → DeclaredWriteInv s → step s = .next t →
    DeclaredWriteInv t ∧ ∀ b w, Fault.txOverwrite b w ∉ t.faults

/-- R189, R190, R191: a value in `ret` is a zero-extended byte, or under DECLARED the sentinel. -/
def Obligations.RetIsByteOrSentinel : Prop :=
  ∀ s t : State, RetInv s → step s = .next t → RetInv t

/-- R39, R151, R162: while SWRST = 1 no step of any agent puts anything on the line. -/
def Obligations.NothingSentUnderReset : Prop :=
  ∀ s t : State, LifecycleInv s → s.swrst = true → step s = .next t → t.txline = s.txline
end

