-- ==== Sys2Proof/Laws/State.lean ====
section
/-! SUPPORT. For each state update one lemma per field, true by rfl, so that no later proof unfolds a record
update. -/

namespace Sys2Proof.Machine

open Sys2Proof

section advance

variable (s : State)

@[simp] theorem State.advance_bcs : (s.advance).bcs = s.bcs := rfl
@[simp] theorem State.advance_trim : (s.advance).trim = s.trim := rfl
@[simp] theorem State.advance_osc : (s.advance).osc = s.osc := rfl
@[simp] theorem State.advance_ctl0 : (s.advance).ctl0 = s.ctl0 := rfl
@[simp] theorem State.advance_ctl1 : (s.advance).ctl1 = s.ctl1 := rfl
@[simp] theorem State.advance_br0 : (s.advance).br0 = s.br0 := rfl
@[simp] theorem State.advance_br1 : (s.advance).br1 = s.br1 := rfl
@[simp] theorem State.advance_mctl : (s.advance).mctl = s.mctl := rfl
@[simp] theorem State.advance_oe : (s.advance).oe = s.oe := rfl
@[simp] theorem State.advance_rxbuf : (s.advance).rxbuf = s.rxbuf := rfl
@[simp] theorem State.advance_txbuf : (s.advance).txbuf = s.txbuf := rfl
@[simp] theorem State.advance_ie2 : (s.advance).ie2 = s.ie2 := rfl
@[simp] theorem State.advance_ifg2 : (s.advance).ifg2 = s.ifg2 := rfl
@[simp] theorem State.advance_psel : (s.advance).psel = s.psel := rfl
@[simp] theorem State.advance_psel2 : (s.advance).psel2 = s.psel2 := rfl
@[simp] theorem State.advance_gie : (s.advance).gie = s.gie := rfl
@[simp] theorem State.advance_shift : (s.advance).shift = s.shift := rfl
@[simp] theorem State.advance_txline : (s.advance).txline = s.txline := rfl
@[simp] theorem State.advance_slotFull : (s.advance).slotFull = s.slotFull := rfl
@[simp] theorem State.advance_slotVal : (s.advance).slotVal = s.slotVal := rfl
@[simp] theorem State.advance_phase : (s.advance).phase = s.phase := rfl
@[simp] theorem State.advance_cfg : (s.advance).cfg = s.cfg := rfl
@[simp] theorem State.advance_inIsr : (s.advance).inIsr = s.inIsr := rfl
@[simp] theorem State.advance_saved : (s.advance).saved = s.saved := rfl
@[simp] theorem State.advance_imu : (s.advance).imu = s.imu := rfl
@[simp] theorem State.advance_faults : (s.advance).faults = s.faults := rfl
@[simp] theorem State.advance_refused : (s.advance).refused = s.refused := rfl
@[simp] theorem State.advance_pc : (s.advance).pc = s.pc + 1 := rfl
@[simp] theorem State.advance_mu : (s.advance).mu = .idle := rfl
@[simp] theorem State.advance_ret : (s.advance).ret = s.ret := rfl
@[simp] theorem State.advance_retWritten : (s.advance).retWritten = s.retWritten := rfl
@[simp] theorem State.advance_prog : (s.advance).prog = s.prog := rfl
@[simp] theorem State.advance_mem : (s.advance).mem = s.mem := rfl
@[simp] theorem State.advance_contract : (s.advance).contract = s.contract := rfl
@[simp] theorem State.advance_refWait : (s.advance).refWait = s.refWait := rfl
@[simp] theorem State.advance_sched : (s.advance).sched = s.sched := rfl
@[simp] theorem State.advance_draws : (s.advance).draws = s.draws := rfl

end advance

section raise

variable (s : State) (f : Fault)

@[simp] theorem State.raise_bcs : (s.raise f).bcs = s.bcs := rfl
@[simp] theorem State.raise_trim : (s.raise f).trim = s.trim := rfl
@[simp] theorem State.raise_osc : (s.raise f).osc = s.osc := rfl
@[simp] theorem State.raise_ctl0 : (s.raise f).ctl0 = s.ctl0 := rfl
@[simp] theorem State.raise_ctl1 : (s.raise f).ctl1 = s.ctl1 := rfl
@[simp] theorem State.raise_br0 : (s.raise f).br0 = s.br0 := rfl
@[simp] theorem State.raise_br1 : (s.raise f).br1 = s.br1 := rfl
@[simp] theorem State.raise_mctl : (s.raise f).mctl = s.mctl := rfl
@[simp] theorem State.raise_oe : (s.raise f).oe = s.oe := rfl
@[simp] theorem State.raise_rxbuf : (s.raise f).rxbuf = s.rxbuf := rfl
@[simp] theorem State.raise_txbuf : (s.raise f).txbuf = s.txbuf := rfl
@[simp] theorem State.raise_ie2 : (s.raise f).ie2 = s.ie2 := rfl
@[simp] theorem State.raise_ifg2 : (s.raise f).ifg2 = s.ifg2 := rfl
@[simp] theorem State.raise_psel : (s.raise f).psel = s.psel := rfl
@[simp] theorem State.raise_psel2 : (s.raise f).psel2 = s.psel2 := rfl
@[simp] theorem State.raise_gie : (s.raise f).gie = s.gie := rfl
@[simp] theorem State.raise_shift : (s.raise f).shift = s.shift := rfl
@[simp] theorem State.raise_txline : (s.raise f).txline = s.txline := rfl
@[simp] theorem State.raise_slotFull : (s.raise f).slotFull = s.slotFull := rfl
@[simp] theorem State.raise_slotVal : (s.raise f).slotVal = s.slotVal := rfl
@[simp] theorem State.raise_phase : (s.raise f).phase = s.phase := rfl
@[simp] theorem State.raise_cfg : (s.raise f).cfg = s.cfg := rfl
@[simp] theorem State.raise_inIsr : (s.raise f).inIsr = s.inIsr := rfl
@[simp] theorem State.raise_saved : (s.raise f).saved = s.saved := rfl
@[simp] theorem State.raise_imu : (s.raise f).imu = s.imu := rfl
@[simp] theorem State.raise_faults : (s.raise f).faults = s.faults ++ [f] := rfl
@[simp] theorem State.raise_refused : (s.raise f).refused = s.refused := rfl
@[simp] theorem State.raise_pc : (s.raise f).pc = s.pc := rfl
@[simp] theorem State.raise_mu : (s.raise f).mu = s.mu := rfl
@[simp] theorem State.raise_ret : (s.raise f).ret = s.ret := rfl
@[simp] theorem State.raise_retWritten : (s.raise f).retWritten = s.retWritten := rfl
@[simp] theorem State.raise_prog : (s.raise f).prog = s.prog := rfl
@[simp] theorem State.raise_mem : (s.raise f).mem = s.mem := rfl
@[simp] theorem State.raise_contract : (s.raise f).contract = s.contract := rfl
@[simp] theorem State.raise_refWait : (s.raise f).refWait = s.refWait := rfl
@[simp] theorem State.raise_sched : (s.raise f).sched = s.sched := rfl
@[simp] theorem State.raise_draws : (s.raise f).draws = s.draws := rfl

end raise

section refuse

variable (s : State) (r : Refusal)

@[simp] theorem State.refuse_bcs : (s.refuse r).bcs = s.bcs := rfl
@[simp] theorem State.refuse_trim : (s.refuse r).trim = s.trim := rfl
@[simp] theorem State.refuse_osc : (s.refuse r).osc = s.osc := rfl
@[simp] theorem State.refuse_ctl0 : (s.refuse r).ctl0 = s.ctl0 := rfl
@[simp] theorem State.refuse_ctl1 : (s.refuse r).ctl1 = s.ctl1 := rfl
@[simp] theorem State.refuse_br0 : (s.refuse r).br0 = s.br0 := rfl
@[simp] theorem State.refuse_br1 : (s.refuse r).br1 = s.br1 := rfl
@[simp] theorem State.refuse_mctl : (s.refuse r).mctl = s.mctl := rfl
@[simp] theorem State.refuse_oe : (s.refuse r).oe = s.oe := rfl
@[simp] theorem State.refuse_rxbuf : (s.refuse r).rxbuf = s.rxbuf := rfl
@[simp] theorem State.refuse_txbuf : (s.refuse r).txbuf = s.txbuf := rfl
@[simp] theorem State.refuse_ie2 : (s.refuse r).ie2 = s.ie2 := rfl
@[simp] theorem State.refuse_ifg2 : (s.refuse r).ifg2 = s.ifg2 := rfl
@[simp] theorem State.refuse_psel : (s.refuse r).psel = s.psel := rfl
@[simp] theorem State.refuse_psel2 : (s.refuse r).psel2 = s.psel2 := rfl
@[simp] theorem State.refuse_gie : (s.refuse r).gie = s.gie := rfl
@[simp] theorem State.refuse_shift : (s.refuse r).shift = s.shift := rfl
@[simp] theorem State.refuse_txline : (s.refuse r).txline = s.txline := rfl
@[simp] theorem State.refuse_slotFull : (s.refuse r).slotFull = s.slotFull := rfl
@[simp] theorem State.refuse_slotVal : (s.refuse r).slotVal = s.slotVal := rfl
@[simp] theorem State.refuse_phase : (s.refuse r).phase = s.phase := rfl
@[simp] theorem State.refuse_cfg : (s.refuse r).cfg = s.cfg := rfl
@[simp] theorem State.refuse_inIsr : (s.refuse r).inIsr = s.inIsr := rfl
@[simp] theorem State.refuse_saved : (s.refuse r).saved = s.saved := rfl
@[simp] theorem State.refuse_imu : (s.refuse r).imu = s.imu := rfl
@[simp] theorem State.refuse_faults : (s.refuse r).faults = s.faults := rfl
@[simp] theorem State.refuse_refused : (s.refuse r).refused = some r := rfl
@[simp] theorem State.refuse_pc : (s.refuse r).pc = s.pc := rfl
@[simp] theorem State.refuse_mu : (s.refuse r).mu = s.mu := rfl
@[simp] theorem State.refuse_ret : (s.refuse r).ret = s.ret := rfl
@[simp] theorem State.refuse_retWritten : (s.refuse r).retWritten = s.retWritten := rfl
@[simp] theorem State.refuse_prog : (s.refuse r).prog = s.prog := rfl
@[simp] theorem State.refuse_mem : (s.refuse r).mem = s.mem := rfl
@[simp] theorem State.refuse_contract : (s.refuse r).contract = s.contract := rfl
@[simp] theorem State.refuse_refWait : (s.refuse r).refWait = s.refWait := rfl
@[simp] theorem State.refuse_sched : (s.refuse r).sched = s.sched := rfl
@[simp] theorem State.refuse_draws : (s.refuse r).draws = s.draws := rfl

end refuse

section emit

variable (s : State) (w : Wire)

@[simp] theorem State.emit_bcs : (s.emit w).bcs = s.bcs := rfl
@[simp] theorem State.emit_trim : (s.emit w).trim = s.trim := rfl
@[simp] theorem State.emit_osc : (s.emit w).osc = s.osc := rfl
@[simp] theorem State.emit_ctl0 : (s.emit w).ctl0 = s.ctl0 := rfl
@[simp] theorem State.emit_ctl1 : (s.emit w).ctl1 = s.ctl1 := rfl
@[simp] theorem State.emit_br0 : (s.emit w).br0 = s.br0 := rfl
@[simp] theorem State.emit_br1 : (s.emit w).br1 = s.br1 := rfl
@[simp] theorem State.emit_mctl : (s.emit w).mctl = s.mctl := rfl
@[simp] theorem State.emit_oe : (s.emit w).oe = s.oe := rfl
@[simp] theorem State.emit_rxbuf : (s.emit w).rxbuf = s.rxbuf := rfl
@[simp] theorem State.emit_txbuf : (s.emit w).txbuf = s.txbuf := rfl
@[simp] theorem State.emit_ie2 : (s.emit w).ie2 = s.ie2 := rfl
@[simp] theorem State.emit_ifg2 : (s.emit w).ifg2 = s.ifg2 := rfl
@[simp] theorem State.emit_psel : (s.emit w).psel = s.psel := rfl
@[simp] theorem State.emit_psel2 : (s.emit w).psel2 = s.psel2 := rfl
@[simp] theorem State.emit_gie : (s.emit w).gie = s.gie := rfl
@[simp] theorem State.emit_shift : (s.emit w).shift = s.shift := rfl
@[simp] theorem State.emit_txline : (s.emit w).txline = s.txline ++ [w] := rfl
@[simp] theorem State.emit_slotFull : (s.emit w).slotFull = s.slotFull := rfl
@[simp] theorem State.emit_slotVal : (s.emit w).slotVal = s.slotVal := rfl
@[simp] theorem State.emit_phase : (s.emit w).phase = s.phase := rfl
@[simp] theorem State.emit_cfg : (s.emit w).cfg = s.cfg := rfl
@[simp] theorem State.emit_inIsr : (s.emit w).inIsr = s.inIsr := rfl
@[simp] theorem State.emit_saved : (s.emit w).saved = s.saved := rfl
@[simp] theorem State.emit_imu : (s.emit w).imu = s.imu := rfl
@[simp] theorem State.emit_faults : (s.emit w).faults = s.faults := rfl
@[simp] theorem State.emit_refused : (s.emit w).refused = s.refused := rfl
@[simp] theorem State.emit_pc : (s.emit w).pc = s.pc := rfl
@[simp] theorem State.emit_mu : (s.emit w).mu = s.mu := rfl
@[simp] theorem State.emit_ret : (s.emit w).ret = s.ret := rfl
@[simp] theorem State.emit_retWritten : (s.emit w).retWritten = s.retWritten := rfl
@[simp] theorem State.emit_prog : (s.emit w).prog = s.prog := rfl
@[simp] theorem State.emit_mem : (s.emit w).mem = s.mem := rfl
@[simp] theorem State.emit_contract : (s.emit w).contract = s.contract := rfl
@[simp] theorem State.emit_refWait : (s.emit w).refWait = s.refWait := rfl
@[simp] theorem State.emit_sched : (s.emit w).sched = s.sched := rfl
@[simp] theorem State.emit_draws : (s.emit w).draws = s.draws := rfl

end emit

section clearSwrst

variable (s : State)

@[simp] theorem State.clearSwrst_bcs : (s.clearSwrst).bcs = s.bcs := rfl
@[simp] theorem State.clearSwrst_trim : (s.clearSwrst).trim = s.trim := rfl
@[simp] theorem State.clearSwrst_osc : (s.clearSwrst).osc = s.osc := rfl
@[simp] theorem State.clearSwrst_ctl0 : (s.clearSwrst).ctl0 = s.ctl0 := rfl
@[simp] theorem State.clearSwrst_ctl1 : (s.clearSwrst).ctl1 = withBit s.ctl1 0 false := rfl
@[simp] theorem State.clearSwrst_br0 : (s.clearSwrst).br0 = s.br0 := rfl
@[simp] theorem State.clearSwrst_br1 : (s.clearSwrst).br1 = s.br1 := rfl
@[simp] theorem State.clearSwrst_mctl : (s.clearSwrst).mctl = s.mctl := rfl
@[simp] theorem State.clearSwrst_oe : (s.clearSwrst).oe = s.oe := rfl
@[simp] theorem State.clearSwrst_rxbuf : (s.clearSwrst).rxbuf = s.rxbuf := rfl
@[simp] theorem State.clearSwrst_txbuf : (s.clearSwrst).txbuf = s.txbuf := rfl
@[simp] theorem State.clearSwrst_ie2 : (s.clearSwrst).ie2 = s.ie2 := rfl
@[simp] theorem State.clearSwrst_ifg2 : (s.clearSwrst).ifg2 = s.ifg2 := rfl
@[simp] theorem State.clearSwrst_psel : (s.clearSwrst).psel = s.psel := rfl
@[simp] theorem State.clearSwrst_psel2 : (s.clearSwrst).psel2 = s.psel2 := rfl
@[simp] theorem State.clearSwrst_gie : (s.clearSwrst).gie = s.gie := rfl
@[simp] theorem State.clearSwrst_shift : (s.clearSwrst).shift = s.shift := rfl
@[simp] theorem State.clearSwrst_txline : (s.clearSwrst).txline = s.txline := rfl
@[simp] theorem State.clearSwrst_slotFull : (s.clearSwrst).slotFull = s.slotFull := rfl
@[simp] theorem State.clearSwrst_slotVal : (s.clearSwrst).slotVal = s.slotVal := rfl
@[simp] theorem State.clearSwrst_phase : (s.clearSwrst).phase = s.phase := rfl
@[simp] theorem State.clearSwrst_cfg : (s.clearSwrst).cfg = s.cfg := rfl
@[simp] theorem State.clearSwrst_inIsr : (s.clearSwrst).inIsr = s.inIsr := rfl
@[simp] theorem State.clearSwrst_saved : (s.clearSwrst).saved = s.saved := rfl
@[simp] theorem State.clearSwrst_imu : (s.clearSwrst).imu = s.imu := rfl
@[simp] theorem State.clearSwrst_faults : (s.clearSwrst).faults = s.faults := rfl
@[simp] theorem State.clearSwrst_refused : (s.clearSwrst).refused = s.refused := rfl
@[simp] theorem State.clearSwrst_pc : (s.clearSwrst).pc = s.pc := rfl
@[simp] theorem State.clearSwrst_mu : (s.clearSwrst).mu = s.mu := rfl
@[simp] theorem State.clearSwrst_ret : (s.clearSwrst).ret = s.ret := rfl
@[simp] theorem State.clearSwrst_retWritten : (s.clearSwrst).retWritten = s.retWritten := rfl
@[simp] theorem State.clearSwrst_prog : (s.clearSwrst).prog = s.prog := rfl
@[simp] theorem State.clearSwrst_mem : (s.clearSwrst).mem = s.mem := rfl
@[simp] theorem State.clearSwrst_contract : (s.clearSwrst).contract = s.contract := rfl
@[simp] theorem State.clearSwrst_refWait : (s.clearSwrst).refWait = s.refWait := rfl
@[simp] theorem State.clearSwrst_sched : (s.clearSwrst).sched = s.sched := rfl
@[simp] theorem State.clearSwrst_draws : (s.clearSwrst).draws = s.draws := rfl

end clearSwrst

section setSsel

variable (s : State) (v : BitVec 2)

@[simp] theorem State.setSsel_bcs : (s.setSsel v).bcs = s.bcs := rfl
@[simp] theorem State.setSsel_trim : (s.setSsel v).trim = s.trim := rfl
@[simp] theorem State.setSsel_osc : (s.setSsel v).osc = s.osc := rfl
@[simp] theorem State.setSsel_ctl0 : (s.setSsel v).ctl0 = s.ctl0 := rfl
@[simp] theorem State.setSsel_ctl1 : (s.setSsel v).ctl1 = (s.ctl1 &&& 0x3F#8) ||| (v.setWidth 8 <<< 6) := rfl
@[simp] theorem State.setSsel_br0 : (s.setSsel v).br0 = s.br0 := rfl
@[simp] theorem State.setSsel_br1 : (s.setSsel v).br1 = s.br1 := rfl
@[simp] theorem State.setSsel_mctl : (s.setSsel v).mctl = s.mctl := rfl
@[simp] theorem State.setSsel_oe : (s.setSsel v).oe = s.oe := rfl
@[simp] theorem State.setSsel_rxbuf : (s.setSsel v).rxbuf = s.rxbuf := rfl
@[simp] theorem State.setSsel_txbuf : (s.setSsel v).txbuf = s.txbuf := rfl
@[simp] theorem State.setSsel_ie2 : (s.setSsel v).ie2 = s.ie2 := rfl
@[simp] theorem State.setSsel_ifg2 : (s.setSsel v).ifg2 = s.ifg2 := rfl
@[simp] theorem State.setSsel_psel : (s.setSsel v).psel = s.psel := rfl
@[simp] theorem State.setSsel_psel2 : (s.setSsel v).psel2 = s.psel2 := rfl
@[simp] theorem State.setSsel_gie : (s.setSsel v).gie = s.gie := rfl
@[simp] theorem State.setSsel_shift : (s.setSsel v).shift = s.shift := rfl
@[simp] theorem State.setSsel_txline : (s.setSsel v).txline = s.txline := rfl
@[simp] theorem State.setSsel_slotFull : (s.setSsel v).slotFull = s.slotFull := rfl
@[simp] theorem State.setSsel_slotVal : (s.setSsel v).slotVal = s.slotVal := rfl
@[simp] theorem State.setSsel_phase : (s.setSsel v).phase = s.phase := rfl
@[simp] theorem State.setSsel_cfg : (s.setSsel v).cfg = s.cfg := rfl
@[simp] theorem State.setSsel_inIsr : (s.setSsel v).inIsr = s.inIsr := rfl
@[simp] theorem State.setSsel_saved : (s.setSsel v).saved = s.saved := rfl
@[simp] theorem State.setSsel_imu : (s.setSsel v).imu = s.imu := rfl
@[simp] theorem State.setSsel_faults : (s.setSsel v).faults = s.faults := rfl
@[simp] theorem State.setSsel_refused : (s.setSsel v).refused = s.refused := rfl
@[simp] theorem State.setSsel_pc : (s.setSsel v).pc = s.pc := rfl
@[simp] theorem State.setSsel_mu : (s.setSsel v).mu = s.mu := rfl
@[simp] theorem State.setSsel_ret : (s.setSsel v).ret = s.ret := rfl
@[simp] theorem State.setSsel_retWritten : (s.setSsel v).retWritten = s.retWritten := rfl
@[simp] theorem State.setSsel_prog : (s.setSsel v).prog = s.prog := rfl
@[simp] theorem State.setSsel_mem : (s.setSsel v).mem = s.mem := rfl
@[simp] theorem State.setSsel_contract : (s.setSsel v).contract = s.contract := rfl
@[simp] theorem State.setSsel_refWait : (s.setSsel v).refWait = s.refWait := rfl
@[simp] theorem State.setSsel_sched : (s.setSsel v).sched = s.sched := rfl
@[simp] theorem State.setSsel_draws : (s.setSsel v).draws = s.draws := rfl

end setSsel

section writeCtl0

variable (s : State) (v : Byte)

@[simp] theorem State.writeCtl0_bcs : (s.writeCtl0 v).bcs = s.bcs := rfl
@[simp] theorem State.writeCtl0_trim : (s.writeCtl0 v).trim = s.trim := rfl
@[simp] theorem State.writeCtl0_osc : (s.writeCtl0 v).osc = s.osc := rfl
@[simp] theorem State.writeCtl0_ctl0 : (s.writeCtl0 v).ctl0 = v := rfl
@[simp] theorem State.writeCtl0_ctl1 : (s.writeCtl0 v).ctl1 = s.ctl1 := rfl
@[simp] theorem State.writeCtl0_br0 : (s.writeCtl0 v).br0 = s.br0 := rfl
@[simp] theorem State.writeCtl0_br1 : (s.writeCtl0 v).br1 = s.br1 := rfl
@[simp] theorem State.writeCtl0_mctl : (s.writeCtl0 v).mctl = s.mctl := rfl
@[simp] theorem State.writeCtl0_oe : (s.writeCtl0 v).oe = s.oe := rfl
@[simp] theorem State.writeCtl0_rxbuf : (s.writeCtl0 v).rxbuf = s.rxbuf := rfl
@[simp] theorem State.writeCtl0_txbuf : (s.writeCtl0 v).txbuf = s.txbuf := rfl
@[simp] theorem State.writeCtl0_ie2 : (s.writeCtl0 v).ie2 = s.ie2 := rfl
@[simp] theorem State.writeCtl0_ifg2 : (s.writeCtl0 v).ifg2 = s.ifg2 := rfl
@[simp] theorem State.writeCtl0_psel : (s.writeCtl0 v).psel = s.psel := rfl
@[simp] theorem State.writeCtl0_psel2 : (s.writeCtl0 v).psel2 = s.psel2 := rfl
@[simp] theorem State.writeCtl0_gie : (s.writeCtl0 v).gie = s.gie := rfl
@[simp] theorem State.writeCtl0_shift : (s.writeCtl0 v).shift = s.shift := rfl
@[simp] theorem State.writeCtl0_txline : (s.writeCtl0 v).txline = s.txline := rfl
@[simp] theorem State.writeCtl0_slotFull : (s.writeCtl0 v).slotFull = s.slotFull := rfl
@[simp] theorem State.writeCtl0_slotVal : (s.writeCtl0 v).slotVal = s.slotVal := rfl
@[simp] theorem State.writeCtl0_phase : (s.writeCtl0 v).phase = s.phase := rfl
@[simp] theorem State.writeCtl0_cfg : (s.writeCtl0 v).cfg = s.cfgAfterWrite := rfl
@[simp] theorem State.writeCtl0_inIsr : (s.writeCtl0 v).inIsr = s.inIsr := rfl
@[simp] theorem State.writeCtl0_saved : (s.writeCtl0 v).saved = s.saved := rfl
@[simp] theorem State.writeCtl0_imu : (s.writeCtl0 v).imu = s.imu := rfl
@[simp] theorem State.writeCtl0_faults : (s.writeCtl0 v).faults = s.faults := rfl
@[simp] theorem State.writeCtl0_refused : (s.writeCtl0 v).refused = s.refused := rfl
@[simp] theorem State.writeCtl0_pc : (s.writeCtl0 v).pc = s.pc := rfl
@[simp] theorem State.writeCtl0_mu : (s.writeCtl0 v).mu = s.mu := rfl
@[simp] theorem State.writeCtl0_ret : (s.writeCtl0 v).ret = s.ret := rfl
@[simp] theorem State.writeCtl0_retWritten : (s.writeCtl0 v).retWritten = s.retWritten := rfl
@[simp] theorem State.writeCtl0_prog : (s.writeCtl0 v).prog = s.prog := rfl
@[simp] theorem State.writeCtl0_mem : (s.writeCtl0 v).mem = s.mem := rfl
@[simp] theorem State.writeCtl0_contract : (s.writeCtl0 v).contract = s.contract := rfl
@[simp] theorem State.writeCtl0_refWait : (s.writeCtl0 v).refWait = s.refWait := rfl
@[simp] theorem State.writeCtl0_sched : (s.writeCtl0 v).sched = s.sched := rfl
@[simp] theorem State.writeCtl0_draws : (s.writeCtl0 v).draws = s.draws := rfl

end writeCtl0

section writeBr0

variable (s : State) (v : Byte)

@[simp] theorem State.writeBr0_bcs : (s.writeBr0 v).bcs = s.bcs := rfl
@[simp] theorem State.writeBr0_trim : (s.writeBr0 v).trim = s.trim := rfl
@[simp] theorem State.writeBr0_osc : (s.writeBr0 v).osc = s.osc := rfl
@[simp] theorem State.writeBr0_ctl0 : (s.writeBr0 v).ctl0 = s.ctl0 := rfl
@[simp] theorem State.writeBr0_ctl1 : (s.writeBr0 v).ctl1 = s.ctl1 := rfl
@[simp] theorem State.writeBr0_br0 : (s.writeBr0 v).br0 = v := rfl
@[simp] theorem State.writeBr0_br1 : (s.writeBr0 v).br1 = s.br1 := rfl
@[simp] theorem State.writeBr0_mctl : (s.writeBr0 v).mctl = s.mctl := rfl
@[simp] theorem State.writeBr0_oe : (s.writeBr0 v).oe = s.oe := rfl
@[simp] theorem State.writeBr0_rxbuf : (s.writeBr0 v).rxbuf = s.rxbuf := rfl
@[simp] theorem State.writeBr0_txbuf : (s.writeBr0 v).txbuf = s.txbuf := rfl
@[simp] theorem State.writeBr0_ie2 : (s.writeBr0 v).ie2 = s.ie2 := rfl
@[simp] theorem State.writeBr0_ifg2 : (s.writeBr0 v).ifg2 = s.ifg2 := rfl
@[simp] theorem State.writeBr0_psel : (s.writeBr0 v).psel = s.psel := rfl
@[simp] theorem State.writeBr0_psel2 : (s.writeBr0 v).psel2 = s.psel2 := rfl
@[simp] theorem State.writeBr0_gie : (s.writeBr0 v).gie = s.gie := rfl
@[simp] theorem State.writeBr0_shift : (s.writeBr0 v).shift = s.shift := rfl
@[simp] theorem State.writeBr0_txline : (s.writeBr0 v).txline = s.txline := rfl
@[simp] theorem State.writeBr0_slotFull : (s.writeBr0 v).slotFull = s.slotFull := rfl
@[simp] theorem State.writeBr0_slotVal : (s.writeBr0 v).slotVal = s.slotVal := rfl
@[simp] theorem State.writeBr0_phase : (s.writeBr0 v).phase = s.phase := rfl
@[simp] theorem State.writeBr0_cfg : (s.writeBr0 v).cfg = s.cfgAfterWrite := rfl
@[simp] theorem State.writeBr0_inIsr : (s.writeBr0 v).inIsr = s.inIsr := rfl
@[simp] theorem State.writeBr0_saved : (s.writeBr0 v).saved = s.saved := rfl
@[simp] theorem State.writeBr0_imu : (s.writeBr0 v).imu = s.imu := rfl
@[simp] theorem State.writeBr0_faults : (s.writeBr0 v).faults = s.faults := rfl
@[simp] theorem State.writeBr0_refused : (s.writeBr0 v).refused = s.refused := rfl
@[simp] theorem State.writeBr0_pc : (s.writeBr0 v).pc = s.pc := rfl
@[simp] theorem State.writeBr0_mu : (s.writeBr0 v).mu = s.mu := rfl
@[simp] theorem State.writeBr0_ret : (s.writeBr0 v).ret = s.ret := rfl
@[simp] theorem State.writeBr0_retWritten : (s.writeBr0 v).retWritten = s.retWritten := rfl
@[simp] theorem State.writeBr0_prog : (s.writeBr0 v).prog = s.prog := rfl
@[simp] theorem State.writeBr0_mem : (s.writeBr0 v).mem = s.mem := rfl
@[simp] theorem State.writeBr0_contract : (s.writeBr0 v).contract = s.contract := rfl
@[simp] theorem State.writeBr0_refWait : (s.writeBr0 v).refWait = s.refWait := rfl
@[simp] theorem State.writeBr0_sched : (s.writeBr0 v).sched = s.sched := rfl
@[simp] theorem State.writeBr0_draws : (s.writeBr0 v).draws = s.draws := rfl

end writeBr0

section writeBr1

variable (s : State) (v : Byte)

@[simp] theorem State.writeBr1_bcs : (s.writeBr1 v).bcs = s.bcs := rfl
@[simp] theorem State.writeBr1_trim : (s.writeBr1 v).trim = s.trim := rfl
@[simp] theorem State.writeBr1_osc : (s.writeBr1 v).osc = s.osc := rfl
@[simp] theorem State.writeBr1_ctl0 : (s.writeBr1 v).ctl0 = s.ctl0 := rfl
@[simp] theorem State.writeBr1_ctl1 : (s.writeBr1 v).ctl1 = s.ctl1 := rfl
@[simp] theorem State.writeBr1_br0 : (s.writeBr1 v).br0 = s.br0 := rfl
@[simp] theorem State.writeBr1_br1 : (s.writeBr1 v).br1 = v := rfl
@[simp] theorem State.writeBr1_mctl : (s.writeBr1 v).mctl = s.mctl := rfl
@[simp] theorem State.writeBr1_oe : (s.writeBr1 v).oe = s.oe := rfl
@[simp] theorem State.writeBr1_rxbuf : (s.writeBr1 v).rxbuf = s.rxbuf := rfl
@[simp] theorem State.writeBr1_txbuf : (s.writeBr1 v).txbuf = s.txbuf := rfl
@[simp] theorem State.writeBr1_ie2 : (s.writeBr1 v).ie2 = s.ie2 := rfl
@[simp] theorem State.writeBr1_ifg2 : (s.writeBr1 v).ifg2 = s.ifg2 := rfl
@[simp] theorem State.writeBr1_psel : (s.writeBr1 v).psel = s.psel := rfl
@[simp] theorem State.writeBr1_psel2 : (s.writeBr1 v).psel2 = s.psel2 := rfl
@[simp] theorem State.writeBr1_gie : (s.writeBr1 v).gie = s.gie := rfl
@[simp] theorem State.writeBr1_shift : (s.writeBr1 v).shift = s.shift := rfl
@[simp] theorem State.writeBr1_txline : (s.writeBr1 v).txline = s.txline := rfl
@[simp] theorem State.writeBr1_slotFull : (s.writeBr1 v).slotFull = s.slotFull := rfl
@[simp] theorem State.writeBr1_slotVal : (s.writeBr1 v).slotVal = s.slotVal := rfl
@[simp] theorem State.writeBr1_phase : (s.writeBr1 v).phase = s.phase := rfl
@[simp] theorem State.writeBr1_cfg : (s.writeBr1 v).cfg = s.cfgAfterWrite := rfl
@[simp] theorem State.writeBr1_inIsr : (s.writeBr1 v).inIsr = s.inIsr := rfl
@[simp] theorem State.writeBr1_saved : (s.writeBr1 v).saved = s.saved := rfl
@[simp] theorem State.writeBr1_imu : (s.writeBr1 v).imu = s.imu := rfl
@[simp] theorem State.writeBr1_faults : (s.writeBr1 v).faults = s.faults := rfl
@[simp] theorem State.writeBr1_refused : (s.writeBr1 v).refused = s.refused := rfl
@[simp] theorem State.writeBr1_pc : (s.writeBr1 v).pc = s.pc := rfl
@[simp] theorem State.writeBr1_mu : (s.writeBr1 v).mu = s.mu := rfl
@[simp] theorem State.writeBr1_ret : (s.writeBr1 v).ret = s.ret := rfl
@[simp] theorem State.writeBr1_retWritten : (s.writeBr1 v).retWritten = s.retWritten := rfl
@[simp] theorem State.writeBr1_prog : (s.writeBr1 v).prog = s.prog := rfl
@[simp] theorem State.writeBr1_mem : (s.writeBr1 v).mem = s.mem := rfl
@[simp] theorem State.writeBr1_contract : (s.writeBr1 v).contract = s.contract := rfl
@[simp] theorem State.writeBr1_refWait : (s.writeBr1 v).refWait = s.refWait := rfl
@[simp] theorem State.writeBr1_sched : (s.writeBr1 v).sched = s.sched := rfl
@[simp] theorem State.writeBr1_draws : (s.writeBr1 v).draws = s.draws := rfl

end writeBr1

section writeMctl

variable (s : State) (v : Byte)

@[simp] theorem State.writeMctl_bcs : (s.writeMctl v).bcs = s.bcs := rfl
@[simp] theorem State.writeMctl_trim : (s.writeMctl v).trim = s.trim := rfl
@[simp] theorem State.writeMctl_osc : (s.writeMctl v).osc = s.osc := rfl
@[simp] theorem State.writeMctl_ctl0 : (s.writeMctl v).ctl0 = s.ctl0 := rfl
@[simp] theorem State.writeMctl_ctl1 : (s.writeMctl v).ctl1 = s.ctl1 := rfl
@[simp] theorem State.writeMctl_br0 : (s.writeMctl v).br0 = s.br0 := rfl
@[simp] theorem State.writeMctl_br1 : (s.writeMctl v).br1 = s.br1 := rfl
@[simp] theorem State.writeMctl_mctl : (s.writeMctl v).mctl = v := rfl
@[simp] theorem State.writeMctl_oe : (s.writeMctl v).oe = s.oe := rfl
@[simp] theorem State.writeMctl_rxbuf : (s.writeMctl v).rxbuf = s.rxbuf := rfl
@[simp] theorem State.writeMctl_txbuf : (s.writeMctl v).txbuf = s.txbuf := rfl
@[simp] theorem State.writeMctl_ie2 : (s.writeMctl v).ie2 = s.ie2 := rfl
@[simp] theorem State.writeMctl_ifg2 : (s.writeMctl v).ifg2 = s.ifg2 := rfl
@[simp] theorem State.writeMctl_psel : (s.writeMctl v).psel = s.psel := rfl
@[simp] theorem State.writeMctl_psel2 : (s.writeMctl v).psel2 = s.psel2 := rfl
@[simp] theorem State.writeMctl_gie : (s.writeMctl v).gie = s.gie := rfl
@[simp] theorem State.writeMctl_shift : (s.writeMctl v).shift = s.shift := rfl
@[simp] theorem State.writeMctl_txline : (s.writeMctl v).txline = s.txline := rfl
@[simp] theorem State.writeMctl_slotFull : (s.writeMctl v).slotFull = s.slotFull := rfl
@[simp] theorem State.writeMctl_slotVal : (s.writeMctl v).slotVal = s.slotVal := rfl
@[simp] theorem State.writeMctl_phase : (s.writeMctl v).phase = s.phase := rfl
@[simp] theorem State.writeMctl_cfg : (s.writeMctl v).cfg = s.cfgAfterWrite := rfl
@[simp] theorem State.writeMctl_inIsr : (s.writeMctl v).inIsr = s.inIsr := rfl
@[simp] theorem State.writeMctl_saved : (s.writeMctl v).saved = s.saved := rfl
@[simp] theorem State.writeMctl_imu : (s.writeMctl v).imu = s.imu := rfl
@[simp] theorem State.writeMctl_faults : (s.writeMctl v).faults = s.faults := rfl
@[simp] theorem State.writeMctl_refused : (s.writeMctl v).refused = s.refused := rfl
@[simp] theorem State.writeMctl_pc : (s.writeMctl v).pc = s.pc := rfl
@[simp] theorem State.writeMctl_mu : (s.writeMctl v).mu = s.mu := rfl
@[simp] theorem State.writeMctl_ret : (s.writeMctl v).ret = s.ret := rfl
@[simp] theorem State.writeMctl_retWritten : (s.writeMctl v).retWritten = s.retWritten := rfl
@[simp] theorem State.writeMctl_prog : (s.writeMctl v).prog = s.prog := rfl
@[simp] theorem State.writeMctl_mem : (s.writeMctl v).mem = s.mem := rfl
@[simp] theorem State.writeMctl_contract : (s.writeMctl v).contract = s.contract := rfl
@[simp] theorem State.writeMctl_refWait : (s.writeMctl v).refWait = s.refWait := rfl
@[simp] theorem State.writeMctl_sched : (s.writeMctl v).sched = s.sched := rfl
@[simp] theorem State.writeMctl_draws : (s.writeMctl v).draws = s.draws := rfl

end writeMctl

section setRxie

variable (s : State)

@[simp] theorem State.setRxie_bcs : (s.setRxie).bcs = s.bcs := rfl
@[simp] theorem State.setRxie_trim : (s.setRxie).trim = s.trim := rfl
@[simp] theorem State.setRxie_osc : (s.setRxie).osc = s.osc := rfl
@[simp] theorem State.setRxie_ctl0 : (s.setRxie).ctl0 = s.ctl0 := rfl
@[simp] theorem State.setRxie_ctl1 : (s.setRxie).ctl1 = s.ctl1 := rfl
@[simp] theorem State.setRxie_br0 : (s.setRxie).br0 = s.br0 := rfl
@[simp] theorem State.setRxie_br1 : (s.setRxie).br1 = s.br1 := rfl
@[simp] theorem State.setRxie_mctl : (s.setRxie).mctl = s.mctl := rfl
@[simp] theorem State.setRxie_oe : (s.setRxie).oe = s.oe := rfl
@[simp] theorem State.setRxie_rxbuf : (s.setRxie).rxbuf = s.rxbuf := rfl
@[simp] theorem State.setRxie_txbuf : (s.setRxie).txbuf = s.txbuf := rfl
@[simp] theorem State.setRxie_ie2 : (s.setRxie).ie2 = withBit s.ie2 0 true := rfl
@[simp] theorem State.setRxie_ifg2 : (s.setRxie).ifg2 = s.ifg2 := rfl
@[simp] theorem State.setRxie_psel : (s.setRxie).psel = s.psel := rfl
@[simp] theorem State.setRxie_psel2 : (s.setRxie).psel2 = s.psel2 := rfl
@[simp] theorem State.setRxie_gie : (s.setRxie).gie = s.gie := rfl
@[simp] theorem State.setRxie_shift : (s.setRxie).shift = s.shift := rfl
@[simp] theorem State.setRxie_txline : (s.setRxie).txline = s.txline := rfl
@[simp] theorem State.setRxie_slotFull : (s.setRxie).slotFull = s.slotFull := rfl
@[simp] theorem State.setRxie_slotVal : (s.setRxie).slotVal = s.slotVal := rfl
@[simp] theorem State.setRxie_phase : (s.setRxie).phase = s.phase := rfl
@[simp] theorem State.setRxie_cfg : (s.setRxie).cfg = s.cfg := rfl
@[simp] theorem State.setRxie_inIsr : (s.setRxie).inIsr = s.inIsr := rfl
@[simp] theorem State.setRxie_saved : (s.setRxie).saved = s.saved := rfl
@[simp] theorem State.setRxie_imu : (s.setRxie).imu = s.imu := rfl
@[simp] theorem State.setRxie_faults : (s.setRxie).faults = s.faults := rfl
@[simp] theorem State.setRxie_refused : (s.setRxie).refused = s.refused := rfl
@[simp] theorem State.setRxie_pc : (s.setRxie).pc = s.pc := rfl
@[simp] theorem State.setRxie_mu : (s.setRxie).mu = s.mu := rfl
@[simp] theorem State.setRxie_ret : (s.setRxie).ret = s.ret := rfl
@[simp] theorem State.setRxie_retWritten : (s.setRxie).retWritten = s.retWritten := rfl
@[simp] theorem State.setRxie_prog : (s.setRxie).prog = s.prog := rfl
@[simp] theorem State.setRxie_mem : (s.setRxie).mem = s.mem := rfl
@[simp] theorem State.setRxie_contract : (s.setRxie).contract = s.contract := rfl
@[simp] theorem State.setRxie_refWait : (s.setRxie).refWait = s.refWait := rfl
@[simp] theorem State.setRxie_sched : (s.setRxie).sched = s.sched := rfl
@[simp] theorem State.setRxie_draws : (s.setRxie).draws = s.draws := rfl

end setRxie

section selectPins

variable (s : State)

@[simp] theorem State.selectPins_bcs : (s.selectPins).bcs = s.bcs := rfl
@[simp] theorem State.selectPins_trim : (s.selectPins).trim = s.trim := rfl
@[simp] theorem State.selectPins_osc : (s.selectPins).osc = s.osc := rfl
@[simp] theorem State.selectPins_ctl0 : (s.selectPins).ctl0 = s.ctl0 := rfl
@[simp] theorem State.selectPins_ctl1 : (s.selectPins).ctl1 = s.ctl1 := rfl
@[simp] theorem State.selectPins_br0 : (s.selectPins).br0 = s.br0 := rfl
@[simp] theorem State.selectPins_br1 : (s.selectPins).br1 = s.br1 := rfl
@[simp] theorem State.selectPins_mctl : (s.selectPins).mctl = s.mctl := rfl
@[simp] theorem State.selectPins_oe : (s.selectPins).oe = s.oe := rfl
@[simp] theorem State.selectPins_rxbuf : (s.selectPins).rxbuf = s.rxbuf := rfl
@[simp] theorem State.selectPins_txbuf : (s.selectPins).txbuf = s.txbuf := rfl
@[simp] theorem State.selectPins_ie2 : (s.selectPins).ie2 = s.ie2 := rfl
@[simp] theorem State.selectPins_ifg2 : (s.selectPins).ifg2 = s.ifg2 := rfl
@[simp] theorem State.selectPins_psel : (s.selectPins).psel = withBit (withBit s.psel Config.rxPin true) Config.txPin true := rfl
@[simp] theorem State.selectPins_psel2 : (s.selectPins).psel2 = withBit (withBit s.psel2 Config.rxPin true) Config.txPin true := rfl
@[simp] theorem State.selectPins_gie : (s.selectPins).gie = s.gie := rfl
@[simp] theorem State.selectPins_shift : (s.selectPins).shift = s.shift := rfl
@[simp] theorem State.selectPins_txline : (s.selectPins).txline = s.txline := rfl
@[simp] theorem State.selectPins_slotFull : (s.selectPins).slotFull = s.slotFull := rfl
@[simp] theorem State.selectPins_slotVal : (s.selectPins).slotVal = s.slotVal := rfl
@[simp] theorem State.selectPins_phase : (s.selectPins).phase = s.phase := rfl
@[simp] theorem State.selectPins_cfg : (s.selectPins).cfg = s.cfg := rfl
@[simp] theorem State.selectPins_inIsr : (s.selectPins).inIsr = s.inIsr := rfl
@[simp] theorem State.selectPins_saved : (s.selectPins).saved = s.saved := rfl
@[simp] theorem State.selectPins_imu : (s.selectPins).imu = s.imu := rfl
@[simp] theorem State.selectPins_faults : (s.selectPins).faults = s.faults := rfl
@[simp] theorem State.selectPins_refused : (s.selectPins).refused = s.refused := rfl
@[simp] theorem State.selectPins_pc : (s.selectPins).pc = s.pc := rfl
@[simp] theorem State.selectPins_mu : (s.selectPins).mu = s.mu := rfl
@[simp] theorem State.selectPins_ret : (s.selectPins).ret = s.ret := rfl
@[simp] theorem State.selectPins_retWritten : (s.selectPins).retWritten = s.retWritten := rfl
@[simp] theorem State.selectPins_prog : (s.selectPins).prog = s.prog := rfl
@[simp] theorem State.selectPins_mem : (s.selectPins).mem = s.mem := rfl
@[simp] theorem State.selectPins_contract : (s.selectPins).contract = s.contract := rfl
@[simp] theorem State.selectPins_refWait : (s.selectPins).refWait = s.refWait := rfl
@[simp] theorem State.selectPins_sched : (s.selectPins).sched = s.sched := rfl
@[simp] theorem State.selectPins_draws : (s.selectPins).draws = s.draws := rfl

end selectPins

section storeTxbuf

variable (s : State) (v : Byte)

@[simp] theorem State.storeTxbuf_bcs : (s.storeTxbuf v).bcs = s.bcs := rfl
@[simp] theorem State.storeTxbuf_trim : (s.storeTxbuf v).trim = s.trim := rfl
@[simp] theorem State.storeTxbuf_osc : (s.storeTxbuf v).osc = s.osc := rfl
@[simp] theorem State.storeTxbuf_ctl0 : (s.storeTxbuf v).ctl0 = s.ctl0 := rfl
@[simp] theorem State.storeTxbuf_ctl1 : (s.storeTxbuf v).ctl1 = s.ctl1 := rfl
@[simp] theorem State.storeTxbuf_br0 : (s.storeTxbuf v).br0 = s.br0 := rfl
@[simp] theorem State.storeTxbuf_br1 : (s.storeTxbuf v).br1 = s.br1 := rfl
@[simp] theorem State.storeTxbuf_mctl : (s.storeTxbuf v).mctl = s.mctl := rfl
@[simp] theorem State.storeTxbuf_oe : (s.storeTxbuf v).oe = s.oe := rfl
@[simp] theorem State.storeTxbuf_rxbuf : (s.storeTxbuf v).rxbuf = s.rxbuf := rfl
@[simp] theorem State.storeTxbuf_txbuf : (s.storeTxbuf v).txbuf = v := rfl
@[simp] theorem State.storeTxbuf_ie2 : (s.storeTxbuf v).ie2 = s.ie2 := rfl
@[simp] theorem State.storeTxbuf_ifg2 : (s.storeTxbuf v).ifg2 = withBit s.ifg2 1 false := rfl
@[simp] theorem State.storeTxbuf_psel : (s.storeTxbuf v).psel = s.psel := rfl
@[simp] theorem State.storeTxbuf_psel2 : (s.storeTxbuf v).psel2 = s.psel2 := rfl
@[simp] theorem State.storeTxbuf_gie : (s.storeTxbuf v).gie = s.gie := rfl
@[simp] theorem State.storeTxbuf_shift : (s.storeTxbuf v).shift = s.shift := rfl
@[simp] theorem State.storeTxbuf_txline : (s.storeTxbuf v).txline = s.txline := rfl
@[simp] theorem State.storeTxbuf_slotFull : (s.storeTxbuf v).slotFull = s.slotFull := rfl
@[simp] theorem State.storeTxbuf_slotVal : (s.storeTxbuf v).slotVal = s.slotVal := rfl
@[simp] theorem State.storeTxbuf_phase : (s.storeTxbuf v).phase = s.phase := rfl
@[simp] theorem State.storeTxbuf_cfg : (s.storeTxbuf v).cfg = s.cfg := rfl
@[simp] theorem State.storeTxbuf_inIsr : (s.storeTxbuf v).inIsr = s.inIsr := rfl
@[simp] theorem State.storeTxbuf_saved : (s.storeTxbuf v).saved = s.saved := rfl
@[simp] theorem State.storeTxbuf_imu : (s.storeTxbuf v).imu = s.imu := rfl
@[simp] theorem State.storeTxbuf_faults : (s.storeTxbuf v).faults = s.faults := rfl
@[simp] theorem State.storeTxbuf_refused : (s.storeTxbuf v).refused = s.refused := rfl
@[simp] theorem State.storeTxbuf_pc : (s.storeTxbuf v).pc = s.pc := rfl
@[simp] theorem State.storeTxbuf_mu : (s.storeTxbuf v).mu = s.mu := rfl
@[simp] theorem State.storeTxbuf_ret : (s.storeTxbuf v).ret = s.ret := rfl
@[simp] theorem State.storeTxbuf_retWritten : (s.storeTxbuf v).retWritten = s.retWritten := rfl
@[simp] theorem State.storeTxbuf_prog : (s.storeTxbuf v).prog = s.prog := rfl
@[simp] theorem State.storeTxbuf_mem : (s.storeTxbuf v).mem = s.mem := rfl
@[simp] theorem State.storeTxbuf_contract : (s.storeTxbuf v).contract = s.contract := rfl
@[simp] theorem State.storeTxbuf_refWait : (s.storeTxbuf v).refWait = s.refWait := rfl
@[simp] theorem State.storeTxbuf_sched : (s.storeTxbuf v).sched = s.sched := rfl
@[simp] theorem State.storeTxbuf_draws : (s.storeTxbuf v).draws = s.draws := rfl

end storeTxbuf

section drawn

variable (s : State)

@[simp] theorem State.drawn_bcs : (s.drawn).bcs = s.bcs := rfl
@[simp] theorem State.drawn_trim : (s.drawn).trim = s.trim := rfl
@[simp] theorem State.drawn_osc : (s.drawn).osc = s.osc := rfl
@[simp] theorem State.drawn_ctl0 : (s.drawn).ctl0 = s.ctl0 := rfl
@[simp] theorem State.drawn_ctl1 : (s.drawn).ctl1 = s.ctl1 := rfl
@[simp] theorem State.drawn_br0 : (s.drawn).br0 = s.br0 := rfl
@[simp] theorem State.drawn_br1 : (s.drawn).br1 = s.br1 := rfl
@[simp] theorem State.drawn_mctl : (s.drawn).mctl = s.mctl := rfl
@[simp] theorem State.drawn_oe : (s.drawn).oe = s.oe := rfl
@[simp] theorem State.drawn_rxbuf : (s.drawn).rxbuf = s.rxbuf := rfl
@[simp] theorem State.drawn_txbuf : (s.drawn).txbuf = s.txbuf := rfl
@[simp] theorem State.drawn_ie2 : (s.drawn).ie2 = s.ie2 := rfl
@[simp] theorem State.drawn_ifg2 : (s.drawn).ifg2 = s.ifg2 := rfl
@[simp] theorem State.drawn_psel : (s.drawn).psel = s.psel := rfl
@[simp] theorem State.drawn_psel2 : (s.drawn).psel2 = s.psel2 := rfl
@[simp] theorem State.drawn_gie : (s.drawn).gie = s.gie := rfl
@[simp] theorem State.drawn_shift : (s.drawn).shift = s.shift := rfl
@[simp] theorem State.drawn_txline : (s.drawn).txline = s.txline := rfl
@[simp] theorem State.drawn_slotFull : (s.drawn).slotFull = s.slotFull := rfl
@[simp] theorem State.drawn_slotVal : (s.drawn).slotVal = s.slotVal := rfl
@[simp] theorem State.drawn_phase : (s.drawn).phase = s.phase := rfl
@[simp] theorem State.drawn_cfg : (s.drawn).cfg = s.cfg := rfl
@[simp] theorem State.drawn_inIsr : (s.drawn).inIsr = s.inIsr := rfl
@[simp] theorem State.drawn_saved : (s.drawn).saved = s.saved := rfl
@[simp] theorem State.drawn_imu : (s.drawn).imu = s.imu := rfl
@[simp] theorem State.drawn_faults : (s.drawn).faults = s.faults := rfl
@[simp] theorem State.drawn_refused : (s.drawn).refused = s.refused := rfl
@[simp] theorem State.drawn_pc : (s.drawn).pc = s.pc := rfl
@[simp] theorem State.drawn_mu : (s.drawn).mu = s.mu := rfl
@[simp] theorem State.drawn_ret : (s.drawn).ret = s.ret := rfl
@[simp] theorem State.drawn_retWritten : (s.drawn).retWritten = s.retWritten := rfl
@[simp] theorem State.drawn_prog : (s.drawn).prog = s.prog := rfl
@[simp] theorem State.drawn_mem : (s.drawn).mem = s.mem := rfl
@[simp] theorem State.drawn_contract : (s.drawn).contract = s.contract := rfl
@[simp] theorem State.drawn_refWait : (s.drawn).refWait = s.refWait := rfl
@[simp] theorem State.drawn_sched : (s.drawn).sched = s.sched := rfl
@[simp] theorem State.drawn_draws : (s.drawn).draws = s.draws + 1 := rfl

end drawn

section latch

variable (s : State) (b : Byte)

@[simp] theorem State.latch_bcs : (s.latch b).bcs = s.bcs := rfl
@[simp] theorem State.latch_trim : (s.latch b).trim = s.trim := rfl
@[simp] theorem State.latch_osc : (s.latch b).osc = s.osc := rfl
@[simp] theorem State.latch_ctl0 : (s.latch b).ctl0 = s.ctl0 := rfl
@[simp] theorem State.latch_ctl1 : (s.latch b).ctl1 = s.ctl1 := rfl
@[simp] theorem State.latch_br0 : (s.latch b).br0 = s.br0 := rfl
@[simp] theorem State.latch_br1 : (s.latch b).br1 = s.br1 := rfl
@[simp] theorem State.latch_mctl : (s.latch b).mctl = s.mctl := rfl
@[simp] theorem State.latch_oe : (s.latch b).oe = s.oe := rfl
@[simp] theorem State.latch_rxbuf : (s.latch b).rxbuf = s.rxbuf := rfl
@[simp] theorem State.latch_txbuf : (s.latch b).txbuf = s.txbuf := rfl
@[simp] theorem State.latch_ie2 : (s.latch b).ie2 = s.ie2 := rfl
@[simp] theorem State.latch_ifg2 : (s.latch b).ifg2 = s.ifg2 := rfl
@[simp] theorem State.latch_psel : (s.latch b).psel = s.psel := rfl
@[simp] theorem State.latch_psel2 : (s.latch b).psel2 = s.psel2 := rfl
@[simp] theorem State.latch_gie : (s.latch b).gie = s.gie := rfl
@[simp] theorem State.latch_shift : (s.latch b).shift = s.shift := rfl
@[simp] theorem State.latch_txline : (s.latch b).txline = s.txline := rfl
@[simp] theorem State.latch_slotFull : (s.latch b).slotFull = true := rfl
@[simp] theorem State.latch_slotVal : (s.latch b).slotVal = b := rfl
@[simp] theorem State.latch_phase : (s.latch b).phase = s.phase := rfl
@[simp] theorem State.latch_cfg : (s.latch b).cfg = s.cfg := rfl
@[simp] theorem State.latch_inIsr : (s.latch b).inIsr = s.inIsr := rfl
@[simp] theorem State.latch_saved : (s.latch b).saved = s.saved := rfl
@[simp] theorem State.latch_imu : (s.latch b).imu = s.imu := rfl
@[simp] theorem State.latch_faults : (s.latch b).faults = s.faults := rfl
@[simp] theorem State.latch_refused : (s.latch b).refused = s.refused := rfl
@[simp] theorem State.latch_pc : (s.latch b).pc = s.pc := rfl
@[simp] theorem State.latch_mu : (s.latch b).mu = s.mu := rfl
@[simp] theorem State.latch_ret : (s.latch b).ret = s.ret := rfl
@[simp] theorem State.latch_retWritten : (s.latch b).retWritten = s.retWritten := rfl
@[simp] theorem State.latch_prog : (s.latch b).prog = s.prog := rfl
@[simp] theorem State.latch_mem : (s.latch b).mem = s.mem := rfl
@[simp] theorem State.latch_contract : (s.latch b).contract = s.contract := rfl
@[simp] theorem State.latch_refWait : (s.latch b).refWait = s.refWait := rfl
@[simp] theorem State.latch_sched : (s.latch b).sched = s.sched := rfl
@[simp] theorem State.latch_draws : (s.latch b).draws = s.draws := rfl

end latch

section emptySlot

variable (s : State)

@[simp] theorem State.emptySlot_bcs : (s.emptySlot).bcs = s.bcs := rfl
@[simp] theorem State.emptySlot_trim : (s.emptySlot).trim = s.trim := rfl
@[simp] theorem State.emptySlot_osc : (s.emptySlot).osc = s.osc := rfl
@[simp] theorem State.emptySlot_ctl0 : (s.emptySlot).ctl0 = s.ctl0 := rfl
@[simp] theorem State.emptySlot_ctl1 : (s.emptySlot).ctl1 = s.ctl1 := rfl
@[simp] theorem State.emptySlot_br0 : (s.emptySlot).br0 = s.br0 := rfl
@[simp] theorem State.emptySlot_br1 : (s.emptySlot).br1 = s.br1 := rfl
@[simp] theorem State.emptySlot_mctl : (s.emptySlot).mctl = s.mctl := rfl
@[simp] theorem State.emptySlot_oe : (s.emptySlot).oe = s.oe := rfl
@[simp] theorem State.emptySlot_rxbuf : (s.emptySlot).rxbuf = s.rxbuf := rfl
@[simp] theorem State.emptySlot_txbuf : (s.emptySlot).txbuf = s.txbuf := rfl
@[simp] theorem State.emptySlot_ie2 : (s.emptySlot).ie2 = s.ie2 := rfl
@[simp] theorem State.emptySlot_ifg2 : (s.emptySlot).ifg2 = s.ifg2 := rfl
@[simp] theorem State.emptySlot_psel : (s.emptySlot).psel = s.psel := rfl
@[simp] theorem State.emptySlot_psel2 : (s.emptySlot).psel2 = s.psel2 := rfl
@[simp] theorem State.emptySlot_gie : (s.emptySlot).gie = s.gie := rfl
@[simp] theorem State.emptySlot_shift : (s.emptySlot).shift = s.shift := rfl
@[simp] theorem State.emptySlot_txline : (s.emptySlot).txline = s.txline := rfl
@[simp] theorem State.emptySlot_slotFull : (s.emptySlot).slotFull = false := rfl
@[simp] theorem State.emptySlot_slotVal : (s.emptySlot).slotVal = 0x00#8 := rfl
@[simp] theorem State.emptySlot_phase : (s.emptySlot).phase = s.phase := rfl
@[simp] theorem State.emptySlot_cfg : (s.emptySlot).cfg = s.cfg := rfl
@[simp] theorem State.emptySlot_inIsr : (s.emptySlot).inIsr = s.inIsr := rfl
@[simp] theorem State.emptySlot_saved : (s.emptySlot).saved = s.saved := rfl
@[simp] theorem State.emptySlot_imu : (s.emptySlot).imu = s.imu := rfl
@[simp] theorem State.emptySlot_faults : (s.emptySlot).faults = s.faults := rfl
@[simp] theorem State.emptySlot_refused : (s.emptySlot).refused = s.refused := rfl
@[simp] theorem State.emptySlot_pc : (s.emptySlot).pc = s.pc := rfl
@[simp] theorem State.emptySlot_mu : (s.emptySlot).mu = s.mu := rfl
@[simp] theorem State.emptySlot_ret : (s.emptySlot).ret = s.ret := rfl
@[simp] theorem State.emptySlot_retWritten : (s.emptySlot).retWritten = s.retWritten := rfl
@[simp] theorem State.emptySlot_prog : (s.emptySlot).prog = s.prog := rfl
@[simp] theorem State.emptySlot_mem : (s.emptySlot).mem = s.mem := rfl
@[simp] theorem State.emptySlot_contract : (s.emptySlot).contract = s.contract := rfl
@[simp] theorem State.emptySlot_refWait : (s.emptySlot).refWait = s.refWait := rfl
@[simp] theorem State.emptySlot_sched : (s.emptySlot).sched = s.sched := rfl
@[simp] theorem State.emptySlot_draws : (s.emptySlot).draws = s.draws := rfl

end emptySlot

section setRet

variable (s : State) (v : Half)

@[simp] theorem State.setRet_bcs : (s.setRet v).bcs = s.bcs := rfl
@[simp] theorem State.setRet_trim : (s.setRet v).trim = s.trim := rfl
@[simp] theorem State.setRet_osc : (s.setRet v).osc = s.osc := rfl
@[simp] theorem State.setRet_ctl0 : (s.setRet v).ctl0 = s.ctl0 := rfl
@[simp] theorem State.setRet_ctl1 : (s.setRet v).ctl1 = s.ctl1 := rfl
@[simp] theorem State.setRet_br0 : (s.setRet v).br0 = s.br0 := rfl
@[simp] theorem State.setRet_br1 : (s.setRet v).br1 = s.br1 := rfl
@[simp] theorem State.setRet_mctl : (s.setRet v).mctl = s.mctl := rfl
@[simp] theorem State.setRet_oe : (s.setRet v).oe = s.oe := rfl
@[simp] theorem State.setRet_rxbuf : (s.setRet v).rxbuf = s.rxbuf := rfl
@[simp] theorem State.setRet_txbuf : (s.setRet v).txbuf = s.txbuf := rfl
@[simp] theorem State.setRet_ie2 : (s.setRet v).ie2 = s.ie2 := rfl
@[simp] theorem State.setRet_ifg2 : (s.setRet v).ifg2 = s.ifg2 := rfl
@[simp] theorem State.setRet_psel : (s.setRet v).psel = s.psel := rfl
@[simp] theorem State.setRet_psel2 : (s.setRet v).psel2 = s.psel2 := rfl
@[simp] theorem State.setRet_gie : (s.setRet v).gie = s.gie := rfl
@[simp] theorem State.setRet_shift : (s.setRet v).shift = s.shift := rfl
@[simp] theorem State.setRet_txline : (s.setRet v).txline = s.txline := rfl
@[simp] theorem State.setRet_slotFull : (s.setRet v).slotFull = s.slotFull := rfl
@[simp] theorem State.setRet_slotVal : (s.setRet v).slotVal = s.slotVal := rfl
@[simp] theorem State.setRet_phase : (s.setRet v).phase = s.phase := rfl
@[simp] theorem State.setRet_cfg : (s.setRet v).cfg = s.cfg := rfl
@[simp] theorem State.setRet_inIsr : (s.setRet v).inIsr = s.inIsr := rfl
@[simp] theorem State.setRet_saved : (s.setRet v).saved = s.saved := rfl
@[simp] theorem State.setRet_imu : (s.setRet v).imu = s.imu := rfl
@[simp] theorem State.setRet_faults : (s.setRet v).faults = s.faults := rfl
@[simp] theorem State.setRet_refused : (s.setRet v).refused = s.refused := rfl
@[simp] theorem State.setRet_pc : (s.setRet v).pc = s.pc := rfl
@[simp] theorem State.setRet_mu : (s.setRet v).mu = s.mu := rfl
@[simp] theorem State.setRet_ret : (s.setRet v).ret = v := rfl
@[simp] theorem State.setRet_retWritten : (s.setRet v).retWritten = true := rfl
@[simp] theorem State.setRet_prog : (s.setRet v).prog = s.prog := rfl
@[simp] theorem State.setRet_mem : (s.setRet v).mem = s.mem := rfl
@[simp] theorem State.setRet_contract : (s.setRet v).contract = s.contract := rfl
@[simp] theorem State.setRet_refWait : (s.setRet v).refWait = s.refWait := rfl
@[simp] theorem State.setRet_sched : (s.setRet v).sched = s.sched := rfl
@[simp] theorem State.setRet_draws : (s.setRet v).draws = s.draws := rfl

end setRet

section enterIrq

variable (s : State)

@[simp] theorem State.enterIrq_bcs : (s.enterIrq).bcs = s.bcs := rfl
@[simp] theorem State.enterIrq_trim : (s.enterIrq).trim = s.trim := rfl
@[simp] theorem State.enterIrq_osc : (s.enterIrq).osc = s.osc := rfl
@[simp] theorem State.enterIrq_ctl0 : (s.enterIrq).ctl0 = s.ctl0 := rfl
@[simp] theorem State.enterIrq_ctl1 : (s.enterIrq).ctl1 = s.ctl1 := rfl
@[simp] theorem State.enterIrq_br0 : (s.enterIrq).br0 = s.br0 := rfl
@[simp] theorem State.enterIrq_br1 : (s.enterIrq).br1 = s.br1 := rfl
@[simp] theorem State.enterIrq_mctl : (s.enterIrq).mctl = s.mctl := rfl
@[simp] theorem State.enterIrq_oe : (s.enterIrq).oe = s.oe := rfl
@[simp] theorem State.enterIrq_rxbuf : (s.enterIrq).rxbuf = s.rxbuf := rfl
@[simp] theorem State.enterIrq_txbuf : (s.enterIrq).txbuf = s.txbuf := rfl
@[simp] theorem State.enterIrq_ie2 : (s.enterIrq).ie2 = s.ie2 := rfl
@[simp] theorem State.enterIrq_ifg2 : (s.enterIrq).ifg2 = s.ifg2 := rfl
@[simp] theorem State.enterIrq_psel : (s.enterIrq).psel = s.psel := rfl
@[simp] theorem State.enterIrq_psel2 : (s.enterIrq).psel2 = s.psel2 := rfl
@[simp] theorem State.enterIrq_gie : (s.enterIrq).gie = false := rfl
@[simp] theorem State.enterIrq_shift : (s.enterIrq).shift = s.shift := rfl
@[simp] theorem State.enterIrq_txline : (s.enterIrq).txline = s.txline := rfl
@[simp] theorem State.enterIrq_slotFull : (s.enterIrq).slotFull = s.slotFull := rfl
@[simp] theorem State.enterIrq_slotVal : (s.enterIrq).slotVal = s.slotVal := rfl
@[simp] theorem State.enterIrq_phase : (s.enterIrq).phase = s.phase := rfl
@[simp] theorem State.enterIrq_cfg : (s.enterIrq).cfg = s.cfg := rfl
@[simp] theorem State.enterIrq_inIsr : (s.enterIrq).inIsr = true := rfl
@[simp] theorem State.enterIrq_saved : (s.enterIrq).saved = some ⟨s.pc, s.mu, s.gie⟩ := rfl
@[simp] theorem State.enterIrq_imu : (s.enterIrq).imu = .latch := rfl
@[simp] theorem State.enterIrq_faults : (s.enterIrq).faults = s.faults := rfl
@[simp] theorem State.enterIrq_refused : (s.enterIrq).refused = s.refused := rfl
@[simp] theorem State.enterIrq_pc : (s.enterIrq).pc = s.pc := rfl
@[simp] theorem State.enterIrq_mu : (s.enterIrq).mu = s.mu := rfl
@[simp] theorem State.enterIrq_ret : (s.enterIrq).ret = s.ret := rfl
@[simp] theorem State.enterIrq_retWritten : (s.enterIrq).retWritten = s.retWritten := rfl
@[simp] theorem State.enterIrq_prog : (s.enterIrq).prog = s.prog := rfl
@[simp] theorem State.enterIrq_mem : (s.enterIrq).mem = s.mem := rfl
@[simp] theorem State.enterIrq_contract : (s.enterIrq).contract = s.contract := rfl
@[simp] theorem State.enterIrq_refWait : (s.enterIrq).refWait = s.refWait := rfl
@[simp] theorem State.enterIrq_sched : (s.enterIrq).sched = s.sched := rfl
@[simp] theorem State.enterIrq_draws : (s.enterIrq).draws = s.draws := rfl

end enterIrq

section land

variable (s : State) (v : Byte)

@[simp] theorem State.land_bcs : (s.land v).bcs = s.bcs := rfl
@[simp] theorem State.land_trim : (s.land v).trim = s.trim := rfl
@[simp] theorem State.land_osc : (s.land v).osc = s.osc := rfl
@[simp] theorem State.land_ctl0 : (s.land v).ctl0 = s.ctl0 := rfl
@[simp] theorem State.land_ctl1 : (s.land v).ctl1 = s.ctl1 := rfl
@[simp] theorem State.land_br0 : (s.land v).br0 = s.br0 := rfl
@[simp] theorem State.land_br1 : (s.land v).br1 = s.br1 := rfl
@[simp] theorem State.land_mctl : (s.land v).mctl = s.mctl := rfl
@[simp] theorem State.land_oe : (s.land v).oe = (s.oe || s.rxifg) := rfl
@[simp] theorem State.land_rxbuf : (s.land v).rxbuf = v := rfl
@[simp] theorem State.land_txbuf : (s.land v).txbuf = s.txbuf := rfl
@[simp] theorem State.land_ie2 : (s.land v).ie2 = s.ie2 := rfl
@[simp] theorem State.land_ifg2 : (s.land v).ifg2 = withBit s.ifg2 0 true := rfl
@[simp] theorem State.land_psel : (s.land v).psel = s.psel := rfl
@[simp] theorem State.land_psel2 : (s.land v).psel2 = s.psel2 := rfl
@[simp] theorem State.land_gie : (s.land v).gie = s.gie := rfl
@[simp] theorem State.land_shift : (s.land v).shift = s.shift := rfl
@[simp] theorem State.land_txline : (s.land v).txline = s.txline := rfl
@[simp] theorem State.land_slotFull : (s.land v).slotFull = s.slotFull := rfl
@[simp] theorem State.land_slotVal : (s.land v).slotVal = s.slotVal := rfl
@[simp] theorem State.land_phase : (s.land v).phase = s.phase := rfl
@[simp] theorem State.land_cfg : (s.land v).cfg = s.cfg := rfl
@[simp] theorem State.land_inIsr : (s.land v).inIsr = s.inIsr := rfl
@[simp] theorem State.land_saved : (s.land v).saved = s.saved := rfl
@[simp] theorem State.land_imu : (s.land v).imu = s.imu := rfl
@[simp] theorem State.land_faults : (s.land v).faults = s.faults := rfl
@[simp] theorem State.land_refused : (s.land v).refused = s.refused := rfl
@[simp] theorem State.land_pc : (s.land v).pc = s.pc := rfl
@[simp] theorem State.land_mu : (s.land v).mu = s.mu := rfl
@[simp] theorem State.land_ret : (s.land v).ret = s.ret := rfl
@[simp] theorem State.land_retWritten : (s.land v).retWritten = s.retWritten := rfl
@[simp] theorem State.land_prog : (s.land v).prog = s.prog := rfl
@[simp] theorem State.land_mem : (s.land v).mem = s.mem := rfl
@[simp] theorem State.land_contract : (s.land v).contract = s.contract := rfl
@[simp] theorem State.land_refWait : (s.land v).refWait = s.refWait := rfl
@[simp] theorem State.land_sched : (s.land v).sched = s.sched := rfl
@[simp] theorem State.land_draws : (s.land v).draws = s.draws := rfl

end land

section resetTrim

variable (s : State)

@[simp] theorem State.resetTrim_bcs : (s.resetTrim).bcs = s.bcs := rfl
@[simp] theorem State.resetTrim_trim : (s.resetTrim).trim = 0x00#8 := rfl
@[simp] theorem State.resetTrim_osc : (s.resetTrim).osc = s.osc := rfl
@[simp] theorem State.resetTrim_ctl0 : (s.resetTrim).ctl0 = s.ctl0 := rfl
@[simp] theorem State.resetTrim_ctl1 : (s.resetTrim).ctl1 = s.ctl1 := rfl
@[simp] theorem State.resetTrim_br0 : (s.resetTrim).br0 = s.br0 := rfl
@[simp] theorem State.resetTrim_br1 : (s.resetTrim).br1 = s.br1 := rfl
@[simp] theorem State.resetTrim_mctl : (s.resetTrim).mctl = s.mctl := rfl
@[simp] theorem State.resetTrim_oe : (s.resetTrim).oe = s.oe := rfl
@[simp] theorem State.resetTrim_rxbuf : (s.resetTrim).rxbuf = s.rxbuf := rfl
@[simp] theorem State.resetTrim_txbuf : (s.resetTrim).txbuf = s.txbuf := rfl
@[simp] theorem State.resetTrim_ie2 : (s.resetTrim).ie2 = s.ie2 := rfl
@[simp] theorem State.resetTrim_ifg2 : (s.resetTrim).ifg2 = s.ifg2 := rfl
@[simp] theorem State.resetTrim_psel : (s.resetTrim).psel = s.psel := rfl
@[simp] theorem State.resetTrim_psel2 : (s.resetTrim).psel2 = s.psel2 := rfl
@[simp] theorem State.resetTrim_gie : (s.resetTrim).gie = s.gie := rfl
@[simp] theorem State.resetTrim_shift : (s.resetTrim).shift = s.shift := rfl
@[simp] theorem State.resetTrim_txline : (s.resetTrim).txline = s.txline := rfl
@[simp] theorem State.resetTrim_slotFull : (s.resetTrim).slotFull = s.slotFull := rfl
@[simp] theorem State.resetTrim_slotVal : (s.resetTrim).slotVal = s.slotVal := rfl
@[simp] theorem State.resetTrim_phase : (s.resetTrim).phase = s.phase := rfl
@[simp] theorem State.resetTrim_cfg : (s.resetTrim).cfg = s.cfg := rfl
@[simp] theorem State.resetTrim_inIsr : (s.resetTrim).inIsr = s.inIsr := rfl
@[simp] theorem State.resetTrim_saved : (s.resetTrim).saved = s.saved := rfl
@[simp] theorem State.resetTrim_imu : (s.resetTrim).imu = s.imu := rfl
@[simp] theorem State.resetTrim_faults : (s.resetTrim).faults = s.faults := rfl
@[simp] theorem State.resetTrim_refused : (s.resetTrim).refused = s.refused := rfl
@[simp] theorem State.resetTrim_pc : (s.resetTrim).pc = s.pc := rfl
@[simp] theorem State.resetTrim_mu : (s.resetTrim).mu = s.mu := rfl
@[simp] theorem State.resetTrim_ret : (s.resetTrim).ret = s.ret := rfl
@[simp] theorem State.resetTrim_retWritten : (s.resetTrim).retWritten = s.retWritten := rfl
@[simp] theorem State.resetTrim_prog : (s.resetTrim).prog = s.prog := rfl
@[simp] theorem State.resetTrim_mem : (s.resetTrim).mem = s.mem := rfl
@[simp] theorem State.resetTrim_contract : (s.resetTrim).contract = s.contract := rfl
@[simp] theorem State.resetTrim_refWait : (s.resetTrim).refWait = s.refWait := rfl
@[simp] theorem State.resetTrim_sched : (s.resetTrim).sched = s.sched := rfl
@[simp] theorem State.resetTrim_draws : (s.resetTrim).draws = s.draws := rfl

end resetTrim

section calibrate

variable (s : State) (k : Speed)

@[simp] theorem State.calibrate_bcs : (s.calibrate k).bcs = Config.calBcs k := rfl
@[simp] theorem State.calibrate_trim : (s.calibrate k).trim = Config.calTrim k := rfl
@[simp] theorem State.calibrate_osc : (s.calibrate k).osc = some k := rfl
@[simp] theorem State.calibrate_ctl0 : (s.calibrate k).ctl0 = s.ctl0 := rfl
@[simp] theorem State.calibrate_ctl1 : (s.calibrate k).ctl1 = s.ctl1 := rfl
@[simp] theorem State.calibrate_br0 : (s.calibrate k).br0 = s.br0 := rfl
@[simp] theorem State.calibrate_br1 : (s.calibrate k).br1 = s.br1 := rfl
@[simp] theorem State.calibrate_mctl : (s.calibrate k).mctl = s.mctl := rfl
@[simp] theorem State.calibrate_oe : (s.calibrate k).oe = s.oe := rfl
@[simp] theorem State.calibrate_rxbuf : (s.calibrate k).rxbuf = s.rxbuf := rfl
@[simp] theorem State.calibrate_txbuf : (s.calibrate k).txbuf = s.txbuf := rfl
@[simp] theorem State.calibrate_ie2 : (s.calibrate k).ie2 = s.ie2 := rfl
@[simp] theorem State.calibrate_ifg2 : (s.calibrate k).ifg2 = s.ifg2 := rfl
@[simp] theorem State.calibrate_psel : (s.calibrate k).psel = s.psel := rfl
@[simp] theorem State.calibrate_psel2 : (s.calibrate k).psel2 = s.psel2 := rfl
@[simp] theorem State.calibrate_gie : (s.calibrate k).gie = s.gie := rfl
@[simp] theorem State.calibrate_shift : (s.calibrate k).shift = s.shift := rfl
@[simp] theorem State.calibrate_txline : (s.calibrate k).txline = s.txline := rfl
@[simp] theorem State.calibrate_slotFull : (s.calibrate k).slotFull = s.slotFull := rfl
@[simp] theorem State.calibrate_slotVal : (s.calibrate k).slotVal = s.slotVal := rfl
@[simp] theorem State.calibrate_phase : (s.calibrate k).phase = s.phase := rfl
@[simp] theorem State.calibrate_cfg : (s.calibrate k).cfg = s.cfg := rfl
@[simp] theorem State.calibrate_inIsr : (s.calibrate k).inIsr = s.inIsr := rfl
@[simp] theorem State.calibrate_saved : (s.calibrate k).saved = s.saved := rfl
@[simp] theorem State.calibrate_imu : (s.calibrate k).imu = s.imu := rfl
@[simp] theorem State.calibrate_faults : (s.calibrate k).faults = s.faults := rfl
@[simp] theorem State.calibrate_refused : (s.calibrate k).refused = s.refused := rfl
@[simp] theorem State.calibrate_pc : (s.calibrate k).pc = s.pc := rfl
@[simp] theorem State.calibrate_mu : (s.calibrate k).mu = s.mu := rfl
@[simp] theorem State.calibrate_ret : (s.calibrate k).ret = s.ret := rfl
@[simp] theorem State.calibrate_retWritten : (s.calibrate k).retWritten = s.retWritten := rfl
@[simp] theorem State.calibrate_prog : (s.calibrate k).prog = s.prog := rfl
@[simp] theorem State.calibrate_mem : (s.calibrate k).mem = s.mem := rfl
@[simp] theorem State.calibrate_contract : (s.calibrate k).contract = s.contract := rfl
@[simp] theorem State.calibrate_refWait : (s.calibrate k).refWait = s.refWait := rfl
@[simp] theorem State.calibrate_sched : (s.calibrate k).sched = s.sched := rfl
@[simp] theorem State.calibrate_draws : (s.calibrate k).draws = s.draws := rfl

end calibrate

section disturbShift

variable (s : State)

@[simp] theorem State.disturbShift_bcs : (s.disturbShift).bcs = s.bcs := rfl
@[simp] theorem State.disturbShift_trim : (s.disturbShift).trim = s.trim := rfl
@[simp] theorem State.disturbShift_osc : (s.disturbShift).osc = s.osc := rfl
@[simp] theorem State.disturbShift_ctl0 : (s.disturbShift).ctl0 = s.ctl0 := rfl
@[simp] theorem State.disturbShift_ctl1 : (s.disturbShift).ctl1 = s.ctl1 := rfl
@[simp] theorem State.disturbShift_br0 : (s.disturbShift).br0 = s.br0 := rfl
@[simp] theorem State.disturbShift_br1 : (s.disturbShift).br1 = s.br1 := rfl
@[simp] theorem State.disturbShift_mctl : (s.disturbShift).mctl = s.mctl := rfl
@[simp] theorem State.disturbShift_oe : (s.disturbShift).oe = s.oe := rfl
@[simp] theorem State.disturbShift_rxbuf : (s.disturbShift).rxbuf = s.rxbuf := rfl
@[simp] theorem State.disturbShift_txbuf : (s.disturbShift).txbuf = s.txbuf := rfl
@[simp] theorem State.disturbShift_ie2 : (s.disturbShift).ie2 = s.ie2 := rfl
@[simp] theorem State.disturbShift_ifg2 : (s.disturbShift).ifg2 = s.ifg2 := rfl
@[simp] theorem State.disturbShift_psel : (s.disturbShift).psel = s.psel := rfl
@[simp] theorem State.disturbShift_psel2 : (s.disturbShift).psel2 = s.psel2 := rfl
@[simp] theorem State.disturbShift_gie : (s.disturbShift).gie = s.gie := rfl
@[simp] theorem State.disturbShift_shift : (s.disturbShift).shift = s.shift.map fun f => { f with ok := false } := rfl
@[simp] theorem State.disturbShift_txline : (s.disturbShift).txline = s.txline := rfl
@[simp] theorem State.disturbShift_slotFull : (s.disturbShift).slotFull = s.slotFull := rfl
@[simp] theorem State.disturbShift_slotVal : (s.disturbShift).slotVal = s.slotVal := rfl
@[simp] theorem State.disturbShift_phase : (s.disturbShift).phase = s.phase := rfl
@[simp] theorem State.disturbShift_cfg : (s.disturbShift).cfg = s.cfg := rfl
@[simp] theorem State.disturbShift_inIsr : (s.disturbShift).inIsr = s.inIsr := rfl
@[simp] theorem State.disturbShift_saved : (s.disturbShift).saved = s.saved := rfl
@[simp] theorem State.disturbShift_imu : (s.disturbShift).imu = s.imu := rfl
@[simp] theorem State.disturbShift_faults : (s.disturbShift).faults = s.faults := rfl
@[simp] theorem State.disturbShift_refused : (s.disturbShift).refused = s.refused := rfl
@[simp] theorem State.disturbShift_pc : (s.disturbShift).pc = s.pc := rfl
@[simp] theorem State.disturbShift_mu : (s.disturbShift).mu = s.mu := rfl
@[simp] theorem State.disturbShift_ret : (s.disturbShift).ret = s.ret := rfl
@[simp] theorem State.disturbShift_retWritten : (s.disturbShift).retWritten = s.retWritten := rfl
@[simp] theorem State.disturbShift_prog : (s.disturbShift).prog = s.prog := rfl
@[simp] theorem State.disturbShift_mem : (s.disturbShift).mem = s.mem := rfl
@[simp] theorem State.disturbShift_contract : (s.disturbShift).contract = s.contract := rfl
@[simp] theorem State.disturbShift_refWait : (s.disturbShift).refWait = s.refWait := rfl
@[simp] theorem State.disturbShift_sched : (s.disturbShift).sched = s.sched := rfl
@[simp] theorem State.disturbShift_draws : (s.disturbShift).draws = s.draws := rfl

end disturbShift

section abortShift

variable (s : State)

@[simp] theorem State.abortShift_bcs : s.abortShift.bcs = s.bcs := by
  unfold State.abortShift; split <;> rfl
@[simp] theorem State.abortShift_trim : s.abortShift.trim = s.trim := by
  unfold State.abortShift; split <;> rfl
@[simp] theorem State.abortShift_osc : s.abortShift.osc = s.osc := by
  unfold State.abortShift; split <;> rfl
@[simp] theorem State.abortShift_ctl0 : s.abortShift.ctl0 = s.ctl0 := by
  unfold State.abortShift; split <;> rfl
@[simp] theorem State.abortShift_ctl1 : s.abortShift.ctl1 = s.ctl1 := by
  unfold State.abortShift; split <;> rfl
@[simp] theorem State.abortShift_br0 : s.abortShift.br0 = s.br0 := by
  unfold State.abortShift; split <;> rfl
@[simp] theorem State.abortShift_br1 : s.abortShift.br1 = s.br1 := by
  unfold State.abortShift; split <;> rfl
@[simp] theorem State.abortShift_mctl : s.abortShift.mctl = s.mctl := by
  unfold State.abortShift; split <;> rfl
@[simp] theorem State.abortShift_oe : s.abortShift.oe = s.oe := by
  unfold State.abortShift; split <;> rfl
@[simp] theorem State.abortShift_rxbuf : s.abortShift.rxbuf = s.rxbuf := by
  unfold State.abortShift; split <;> rfl
@[simp] theorem State.abortShift_txbuf : s.abortShift.txbuf = s.txbuf := by
  unfold State.abortShift; split <;> rfl
@[simp] theorem State.abortShift_ie2 : s.abortShift.ie2 = s.ie2 := by
  unfold State.abortShift; split <;> rfl
@[simp] theorem State.abortShift_ifg2 : s.abortShift.ifg2 = s.ifg2 := by
  unfold State.abortShift; split <;> rfl
@[simp] theorem State.abortShift_psel : s.abortShift.psel = s.psel := by
  unfold State.abortShift; split <;> rfl
@[simp] theorem State.abortShift_psel2 : s.abortShift.psel2 = s.psel2 := by
  unfold State.abortShift; split <;> rfl
@[simp] theorem State.abortShift_gie : s.abortShift.gie = s.gie := by
  unfold State.abortShift; split <;> rfl
@[simp] theorem State.abortShift_slotFull : s.abortShift.slotFull = s.slotFull := by
  unfold State.abortShift; split <;> rfl
@[simp] theorem State.abortShift_slotVal : s.abortShift.slotVal = s.slotVal := by
  unfold State.abortShift; split <;> rfl
@[simp] theorem State.abortShift_phase : s.abortShift.phase = s.phase := by
  unfold State.abortShift; split <;> rfl
@[simp] theorem State.abortShift_cfg : s.abortShift.cfg = s.cfg := by
  unfold State.abortShift; split <;> rfl
@[simp] theorem State.abortShift_inIsr : s.abortShift.inIsr = s.inIsr := by
  unfold State.abortShift; split <;> rfl
@[simp] theorem State.abortShift_saved : s.abortShift.saved = s.saved := by
  unfold State.abortShift; split <;> rfl
@[simp] theorem State.abortShift_imu : s.abortShift.imu = s.imu := by
  unfold State.abortShift; split <;> rfl
@[simp] theorem State.abortShift_faults : s.abortShift.faults = s.faults := by
  unfold State.abortShift; split <;> rfl
@[simp] theorem State.abortShift_refused : s.abortShift.refused = s.refused := by
  unfold State.abortShift; split <;> rfl
@[simp] theorem State.abortShift_pc : s.abortShift.pc = s.pc := by
  unfold State.abortShift; split <;> rfl
@[simp] theorem State.abortShift_mu : s.abortShift.mu = s.mu := by
  unfold State.abortShift; split <;> rfl
@[simp] theorem State.abortShift_ret : s.abortShift.ret = s.ret := by
  unfold State.abortShift; split <;> rfl
@[simp] theorem State.abortShift_retWritten : s.abortShift.retWritten = s.retWritten := by
  unfold State.abortShift; split <;> rfl
@[simp] theorem State.abortShift_prog : s.abortShift.prog = s.prog := by
  unfold State.abortShift; split <;> rfl
@[simp] theorem State.abortShift_mem : s.abortShift.mem = s.mem := by
  unfold State.abortShift; split <;> rfl
@[simp] theorem State.abortShift_contract : s.abortShift.contract = s.contract := by
  unfold State.abortShift; split <;> rfl
@[simp] theorem State.abortShift_refWait : s.abortShift.refWait = s.refWait := by
  unfold State.abortShift; split <;> rfl
@[simp] theorem State.abortShift_sched : s.abortShift.sched = s.sched := by
  unfold State.abortShift; split <;> rfl
@[simp] theorem State.abortShift_shift : s.abortShift.shift = none := by
  unfold State.abortShift; split <;> simp_all

end abortShift

section setSwrst

variable (s : State)

@[simp] theorem State.setSwrst_bcs : s.setSwrst.bcs = s.bcs := s.abortShift_bcs
@[simp] theorem State.setSwrst_trim : s.setSwrst.trim = s.trim := s.abortShift_trim
@[simp] theorem State.setSwrst_osc : s.setSwrst.osc = s.osc := s.abortShift_osc
@[simp] theorem State.setSwrst_ctl0 : s.setSwrst.ctl0 = s.ctl0 := s.abortShift_ctl0
@[simp] theorem State.setSwrst_ctl1 : s.setSwrst.ctl1 = withBit s.ctl1 0 true := rfl
@[simp] theorem State.setSwrst_br0 : s.setSwrst.br0 = s.br0 := s.abortShift_br0
@[simp] theorem State.setSwrst_br1 : s.setSwrst.br1 = s.br1 := s.abortShift_br1
@[simp] theorem State.setSwrst_mctl : s.setSwrst.mctl = s.mctl := s.abortShift_mctl
@[simp] theorem State.setSwrst_oe : s.setSwrst.oe = false := rfl
@[simp] theorem State.setSwrst_rxbuf : s.setSwrst.rxbuf = s.rxbuf := s.abortShift_rxbuf
@[simp] theorem State.setSwrst_txbuf : s.setSwrst.txbuf = s.txbuf := s.abortShift_txbuf
@[simp] theorem State.setSwrst_ie2 : s.setSwrst.ie2 = withBit s.ie2 0 false := rfl
@[simp] theorem State.setSwrst_ifg2 : s.setSwrst.ifg2 = withBit (withBit s.ifg2 0 false) 1 true := rfl
@[simp] theorem State.setSwrst_psel : s.setSwrst.psel = s.psel := s.abortShift_psel
@[simp] theorem State.setSwrst_psel2 : s.setSwrst.psel2 = s.psel2 := s.abortShift_psel2
@[simp] theorem State.setSwrst_gie : s.setSwrst.gie = s.gie := s.abortShift_gie
@[simp] theorem State.setSwrst_shift : s.setSwrst.shift = none := s.abortShift_shift
@[simp] theorem State.setSwrst_txline : s.setSwrst.txline = s.abortShift.txline := rfl
@[simp] theorem State.setSwrst_slotFull : s.setSwrst.slotFull = s.slotFull := s.abortShift_slotFull
@[simp] theorem State.setSwrst_slotVal : s.setSwrst.slotVal = s.slotVal := s.abortShift_slotVal
@[simp] theorem State.setSwrst_phase : s.setSwrst.phase = s.phase := s.abortShift_phase
@[simp] theorem State.setSwrst_cfg : s.setSwrst.cfg = s.cfg := s.abortShift_cfg
@[simp] theorem State.setSwrst_inIsr : s.setSwrst.inIsr = s.inIsr := s.abortShift_inIsr
@[simp] theorem State.setSwrst_saved : s.setSwrst.saved = s.saved := s.abortShift_saved
@[simp] theorem State.setSwrst_imu : s.setSwrst.imu = s.imu := s.abortShift_imu
@[simp] theorem State.setSwrst_faults : s.setSwrst.faults = s.faults := s.abortShift_faults
@[simp] theorem State.setSwrst_refused : s.setSwrst.refused = s.refused := s.abortShift_refused
@[simp] theorem State.setSwrst_pc : s.setSwrst.pc = s.pc := s.abortShift_pc
@[simp] theorem State.setSwrst_mu : s.setSwrst.mu = s.mu := s.abortShift_mu
@[simp] theorem State.setSwrst_ret : s.setSwrst.ret = s.ret := s.abortShift_ret
@[simp] theorem State.setSwrst_retWritten : s.setSwrst.retWritten = s.retWritten := s.abortShift_retWritten
@[simp] theorem State.setSwrst_prog : s.setSwrst.prog = s.prog := s.abortShift_prog
@[simp] theorem State.setSwrst_mem : s.setSwrst.mem = s.mem := s.abortShift_mem
@[simp] theorem State.setSwrst_contract : s.setSwrst.contract = s.contract := s.abortShift_contract
@[simp] theorem State.setSwrst_refWait : s.setSwrst.refWait = s.refWait := s.abortShift_refWait
@[simp] theorem State.setSwrst_sched : s.setSwrst.sched = s.sched := s.abortShift_sched
@[simp] theorem State.setSwrst_draws : s.setSwrst.draws = s.abortShift.draws := rfl

end setSwrst

end Sys2Proof.Machine
end

