-- ==== Sys2Proof/Laws/Bits.lean ====
section
/-! SUPPORT. The bits of a register after a field write, and the flags after each operation of Machine/Ops.lean. -/

namespace Sys2Proof.Machine

open Sys2Proof

/-- A field write changes its bit and no other (R77). -/
theorem bit_withBit (r : Byte) (i j : Nat) (b : Bool) (h : i < 8) :
    bit (withBit r i b) j = if j = i then b else bit r j := by
  unfold bit withBit
  by_cases hj : j < 8
  · by_cases hij : j = i
    · subst hij
      cases b <;> simp [h]
    · have h1 : i ≤ j → ¬ j - i = 0 := by omega
      cases b <;> simp [hij, hj]
      · intro _; omega
      · intro h2 h3; exact absurd h3 (h1 h2)
  · have hij : j ≠ i := by omega
    have : 8 ≤ j := by omega
    cases b <;> simp [hij, this]

/-- Writing a bit with the value it has changes nothing. -/
theorem withBit_bit (r : Byte) (i : Nat) (h : i < 8) : withBit r i (bit r i) = r := by
  apply BitVec.eq_of_getLsbD_eq
  intro j hj
  have := bit_withBit r i j (bit r i) h
  unfold bit at this ⊢
  rw [this]
  split <;> simp_all

/-- A write of bit 0 keeps the clock-source field. -/
@[simp] theorem ssel_withBit_zero (r : Byte) (b : Bool) :
    (withBit r 0 b).extractLsb' 6 2 = r.extractLsb' 6 2 := by
  apply BitVec.eq_of_getLsbD_eq
  intro j hj
  have h := bit_withBit r 0 (6 + j) b (by omega)
  unfold bit at h
  simp only [BitVec.getLsbD_extractLsb', hj, decide_true, Bool.true_and, h]
  simp

/-- The field SSEL after a write of it. -/
theorem ssel_of_write : ∀ (r : Byte) (v : BitVec 2),
    (((r &&& 0x3F#8) ||| (v.setWidth 8 <<< 6)).extractLsb' 6 2) = v := by
  intro r v
  apply BitVec.eq_of_getLsbD_eq
  intro j hj
  have : j = 0 ∨ j = 1 := by omega
  rcases this with rfl | rfl <;> simp

/-- A write of SSEL keeps bits 5 to 0. -/
theorem bit_of_ssel_write (r : Byte) (v : BitVec 2) (j : Nat) (hj : j < 6) :
    bit ((r &&& 0x3F#8) ||| (v.setWidth 8 <<< 6)) j = bit r j := by
  have : j = 0 ∨ j = 1 ∨ j = 2 ∨ j = 3 ∨ j = 4 ∨ j = 5 := by omega
  unfold bit
  rcases this with rfl | rfl | rfl | rfl | rfl | rfl <;> simp

variable (s : State)

@[simp] theorem State.setSwrst_swrst : s.setSwrst.swrst = true := by
  simp [State.swrst, bit_withBit]
@[simp] theorem State.setSwrst_ssel : s.setSwrst.ssel = s.ssel := by
  simp [State.ssel]
@[simp] theorem State.setSwrst_rxie : s.setSwrst.rxie = false := by
  simp [State.rxie, bit_withBit]
@[simp] theorem State.setSwrst_txie : s.setSwrst.txie = s.txie := by
  simp [State.txie, bit_withBit]
@[simp] theorem State.setSwrst_rxifg : s.setSwrst.rxifg = false := by
  simp [State.rxifg, bit_withBit]
@[simp] theorem State.setSwrst_txifg : s.setSwrst.txifg = true := by
  simp [State.txifg, bit_withBit]
@[simp] theorem State.clearSwrst_swrst : s.clearSwrst.swrst = false := by
  simp [State.swrst, bit_withBit]
@[simp] theorem State.clearSwrst_ssel : s.clearSwrst.ssel = s.ssel := by
  simp [State.ssel]
@[simp] theorem State.setSsel_ssel (v : BitVec 2) : (s.setSsel v).ssel = v := ssel_of_write s.ctl1 v
@[simp] theorem State.setSsel_swrst (v : BitVec 2) : (s.setSsel v).swrst = s.swrst :=
  bit_of_ssel_write s.ctl1 v 0 (by omega)
@[simp] theorem State.setRxie_rxie : s.setRxie.rxie = true := by
  simp [State.rxie, bit_withBit]
@[simp] theorem State.setRxie_txie : s.setRxie.txie = s.txie := by
  simp [State.txie, bit_withBit]
@[simp] theorem State.storeTxbuf_txifg (v : Byte) : (s.storeTxbuf v).txifg = false := by
  simp [State.txifg, bit_withBit]
@[simp] theorem State.storeTxbuf_rxifg (v : Byte) : (s.storeTxbuf v).rxifg = s.rxifg := by
  simp [State.rxifg, bit_withBit]
@[simp] theorem State.readRxbuf_fst : s.readRxbuf.1 = s.rxbuf := rfl
@[simp] theorem State.readRxbuf_rxifg : s.readRxbuf.2.rxifg = false := by
  simp [State.readRxbuf, State.rxifg, bit_withBit]
@[simp] theorem State.readRxbuf_txifg : s.readRxbuf.2.txifg = s.txifg := by
  simp [State.readRxbuf, State.txifg, bit_withBit]
@[simp] theorem State.land_rxifg (v : Byte) : (s.land v).rxifg = true := by
  simp [State.rxifg, bit_withBit]
@[simp] theorem State.land_txifg (v : Byte) : (s.land v).txifg = s.txifg := by
  simp [State.txifg, bit_withBit]
@[simp] theorem txLoad_txifg : (txLoad s).txifg = true := by
  simp [txLoad, State.txifg, bit_withBit]
@[simp] theorem txLoad_rxifg : (txLoad s).rxifg = s.rxifg := by
  simp [txLoad, State.rxifg, bit_withBit]
@[simp] theorem State.selectPins_pinsSelected : s.selectPins.pinsSelected = true := by
  simp [State.pinsSelected, bit_withBit, Config.rxPin, Config.txPin]

/-- What a frame shows on the wire depends on CFG and the oscillator alone. -/
theorem State.wireOf_congr {s t : State} (hc : s.cfg = t.cfg) (ho : s.osc = t.osc) (f : ShiftFrame) :
    s.wireOf f = t.wireOf f := by
  unfold State.wireOf State.rateOk
  rw [hc, ho]

end Sys2Proof.Machine
end

