-- ==== Sys2Proof/Laws/Memory.lean ====
section
/-! SUPPORT. The data memory: what a read gives after a byte is admitted, and that every operation keeps the
canonical form. -/

namespace Sys2Proof.Machine

open Sys2Proof

/-- The address written holds the byte, and every other address reads as before. -/
theorem memRead_memSet (m : List Host.Cell) (a k : Nat) (b : Byte) :
    memRead (memSet m a b) k = if k = a then some b else memRead m k := by
  by_cases hk : k = a
  · subst hk
    rw [if_pos rfl]
    induction m with
    | nil => simp only [memSet, memRead, if_true]
    | cons c m ih =>
      obtain ⟨k', c⟩ := c
      unfold memSet
      split
      · simp only [memRead, if_true]
      · split
        · simp only [memRead, if_true]
        · rename_i h1 h2
          rw [memRead, if_neg (fun h => h2 h.symm), ih]
  · rw [if_neg hk]
    have hk' : a ≠ k := fun h => hk h.symm
    induction m with
    | nil => simp only [memSet, memRead, hk', if_false]
    | cons c m ih =>
      obtain ⟨k', c⟩ := c
      unfold memSet
      split
      · rw [memRead, if_neg hk']
      · split
        · subst a
          simp only [memRead, hk', if_false]
        · simp only [memRead, ih]

/-- Admitting an address of the address space makes it hold the byte and leaves the others. -/
theorem memRead_memAdmit (m : List Host.Cell) (a k : Nat) (b : Byte) (h : a < addrSpace) :
    memRead (memAdmit m a b) k = if k = a then some b else memRead m k := by
  simp [memAdmit, h, memRead_memSet]

theorem memRises_mono {lo lo' : Nat} {m : List Host.Cell} (h : lo' ≤ lo) (hm : memRises lo m = true) :
    memRises lo' m = true := by
  cases m with
  | nil => rfl
  | cons c m =>
    simp only [memRises, Bool.and_eq_true, decide_eq_true_eq] at hm ⊢
    exact ⟨⟨by omega, hm.1.2⟩, hm.2⟩

theorem memRises_memSet {lo a : Nat} {m : List Host.Cell} (b : Byte) (hlo : lo ≤ a) (ha : a < addrSpace)
    (hm : memRises lo m = true) : memRises lo (memSet m a b) = true := by
  induction m generalizing lo with
  | nil => simp [memSet, memRises, hlo, ha]
  | cons c m ih =>
    obtain ⟨k, c⟩ := c
    have hm' := hm
    simp only [memRises, Bool.and_eq_true, decide_eq_true_eq] at hm'
    unfold memSet
    split
    · simp only [memRises, Bool.and_eq_true, decide_eq_true_eq]
      refine ⟨⟨hlo, ha⟩, ⟨by omega, hm'.1.2⟩, hm'.2⟩
    · split
      · subst a
        simp only [memRises, Bool.and_eq_true, decide_eq_true_eq]
        exact ⟨⟨hlo, ha⟩, hm'.2⟩
      · simp only [memRises, Bool.and_eq_true, decide_eq_true_eq]
        exact ⟨hm'.1, ih (by omega) hm'.2⟩

/-- Admitting an address keeps the canonical form. -/
theorem memWf_memAdmit {m : List Host.Cell} (a : Nat) (b : Byte) (hm : memWf m = true) :
    memWf (memAdmit m a b) = true := by
  unfold memAdmit
  split
  · exact memRises_memSet b (Nat.zero_le a) ‹_› hm
  · exact hm

/-- Admitting several addresses keeps the canonical form. -/
theorem memWf_memAdmitAll {m : List Host.Cell} (cells : List Host.Cell) (hm : memWf m = true) :
    memWf (memAdmitAll m cells) = true := by
  induction cells generalizing m with
  | nil => exact hm
  | cons c cells ih => exact ih (memWf_memAdmit c.1 c.2 hm)

/-- The memory a launch fixes has the canonical form. -/
theorem memWf_launch (prog : List Word) (cells : List Host.Cell) (gie : Bool) (contract : RxContract)
    (refWait : RefWait) : memWf (State.launch prog cells gie contract refWait).mem = true :=
  memWf_memAdmitAll cells rfl

/-- The memory at reset has the canonical form. -/
theorem memWf_reset : memWf State.reset.mem = true := rfl

/-- An address a memory in canonical form admits lies in the address space. -/
theorem memRead_lt {m : List Host.Cell} {lo a : Nat} {b : Byte} (hm : memRises lo m = true)
    (h : memRead m a = some b) : a < addrSpace := by
  induction m generalizing lo with
  | nil => simp [memRead, unlistedByte] at h
  | cons c m ih =>
    obtain ⟨k, c⟩ := c
    simp only [memRises, Bool.and_eq_true, decide_eq_true_eq] at hm
    simp only [memRead] at h
    split at h
    · omega
    · exact ih hm.2 h

end Sys2Proof.Machine
end

