-- ==== Sys2Proof/Laws/Ops.lean ====
section
/-! SUPPORT. For each shared operation and each meaning one lemma that says everything it can do. -/

namespace Sys2Proof.Machine

open Sys2Proof

/-- Reset meets a frame or an empty SHIFT (R162). -/
theorem State.abortShift_cases (s : State) :
    (s.shift = none ∧ s.abortShift = s) ∨
    ∃ f w, s.shift = some f ∧ (w = .aborted ∨ w = s.wireOf f) ∧
      s.abortShift = { s with txline := s.txline ++ [w], shift := none, draws := s.draws + 1 } := by
  unfold State.abortShift
  split
  · exact .inl ⟨‹_›, rfl⟩
  · rename_i f hf
    refine .inr ⟨f, _, hf, ?_, rfl⟩
    split <;> simp

/-- A write of TXBUF faults, is accepted, or under reset is held or dropped (R150, R151). -/
theorem txWrite_cases (who : Writer) (v : Byte) (done : State → State) (s : State) :
    (s.txifg = false ∧ txWrite who v done s = s.raise (.txOverwrite v who)) ∨
    (s.txifg = true ∧ s.swrst = false ∧ txWrite who v done s = done (s.storeTxbuf v)) ∨
    (s.txifg = true ∧ s.swrst = true ∧
      (txWrite who v done s = done (s.drawn.storeTxbuf v) ∨ txWrite who v done s = done s.drawn)) := by
  unfold txWrite
  cases s.txifg <;> cases s.swrst <;> cases Config.freeBool s.draws <;> simp

/-- The wait passes or holds (R10). -/
theorem waitTx_cases (m : Micro) (s : State) :
    (s.txifg = true ∧ waitTx m s = { s with mu := m }) ∨ (s.txifg = false ∧ waitTx m s = s) := by
  unfold waitTx
  cases s.txifg <;> simp

/-- PUT_STR (2) (R153). -/
theorem strRead_cases (addr : Half) (i : Nat) (s : State) :
    (addrSpace ≤ strAddr addr i ∧ strRead addr i s = s.raise (.strWrap addr i)) ∨
    (strAddr addr i < addrSpace ∧ memRead s.mem (strAddr addr i) = none ∧ strRead addr i s = s) ∨
    (strAddr addr i < addrSpace ∧ memRead s.mem (strAddr addr i) = some 0x00#8 ∧
      strRead addr i s = s.advance) ∨
    (∃ c, strAddr addr i < addrSpace ∧ memRead s.mem (strAddr addr i) = some c ∧ c ≠ 0x00#8 ∧
      strRead addr i s = { s with mu := .strWait i c }) := by
  unfold strRead
  split
  · split
    · simp_all
    · split <;> simp_all
  · simp_all

/-- TXE's step: TX_EMIT, TX_LOAD, or nothing where neither is enabled (R160 to R162). -/
theorem txeStep_cases (s : State) :
    (∃ f, s.engineOn = true ∧ s.shift = some f ∧ txeStep s = txEmit f s) ∨
    (s.engineOn = true ∧ s.shift = none ∧ s.txifg = false ∧ txeStep s = txLoad s) ∨
    ((s.engineOn = false ∨ (s.shift = none ∧ s.txifg = true)) ∧ txeStep s = s) := by
  unfold txeStep
  cases s.engineOn <;> cases s.shift <;> cases s.txifg <;> simp

/-- RXE's step: the byte, a draw, or nothing where the engine is off (R180 to R183). -/
theorem rxArrive_cases (b : Byte) (s : State) :
    (s.engineOn = true ∧ s.rateOk = true ∧ rxArrive b s = s.land b) ∨
    (∃ v, s.engineOn = true ∧ s.rateOk = false ∧ rxArrive b s = (s.land v).drawn) ∨
    (s.engineOn = false ∧ rxArrive b s = s) := by
  unfold rxArrive
  cases s.engineOn
  · simp
  · cases s.rateOk
    · exact .inr (.inl ⟨_, rfl, rfl, rfl⟩)
    · simp

theorem execSetClock_cases {speed : Byte} {s t : State} (h : execSetClock speed s = .next t) :
    (speedOf speed = none ∧ t = s.advance) ∨
    (∃ k, speedOf speed = some k ∧ t = (s.calibrate k).disturbShift.advance) := by
  unfold execSetClock at h
  split at h <;> cases h <;> simp_all

theorem initStep5_cases (baud clockSpeed : Byte) (s : State) :
    (∃ c, lookupPair baud clockSpeed = some c ∧ initStep5 baud clockSpeed s =
      { s.writeDivisors (baudTable c.baud c.clk) with cfg := some c, mu := .init .s6 }) ∨
    (lookupPair baud clockSpeed = none ∧ initStep5 baud clockSpeed s = { s with cfg := none, mu := .init .s6 }) := by
  unfold initStep5
  split <;> simp_all

theorem execInitUart_cases {baud clockSpeed : Byte} {s t : State}
    (h : execInitUart baud clockSpeed s = .next t) :
    (s.mu = .init .s2 ∧ t = initStep2 s) ∨ (s.mu = .init .s3 ∧ t = initStep3 s) ∨
    (s.mu = .init .s4 ∧ t = initStep4 s) ∨ (s.mu = .init .s5 ∧ t = initStep5 baud clockSpeed s) ∨
    (s.mu = .init .s6 ∧ t = initStep6 s) ∨ (s.mu = .init .s7 ∧ t = initStep7 s) ∨
    ((∀ k, s.mu ≠ .init k) ∧ t = initStep1 s) := by
  unfold execInitUart at h
  split at h <;> cases h <;> simp_all
  intro k
  cases k <;> simp_all

theorem execUninitUart_eq (s : State) :
    execUninitUart s = .next { uninitWrites s with phase := .uninitialized, cfg := none }.advance := rfl

theorem execPutch_cases {byte : Byte} {s t : State} (h : execPutch byte s = .next t) :
    (s.mu = .putchWrite ∧ t = txWrite .fg byte State.advance s) ∨
    (s.mu ≠ .putchWrite ∧ t = waitTx .putchWrite s) := by
  unfold execPutch at h
  split at h <;> cases h <;> simp_all

theorem execPutStr_cases {addr : Half} {s t : State} (h : execPutStr addr s = .next t) :
    (∃ i, s.mu = .strRead i ∧ t = strRead addr i s) ∨
    (∃ i c, s.mu = .strWait i c ∧ t = waitTx (.strWrite i c) s) ∨
    (∃ i c, s.mu = .strWrite i c ∧ t = txWrite .fg c (fun u => { u with mu := .strRead (i + 1) }) s) ∨
    (t = { s with mu := .strRead 0 }) := by
  unfold execPutStr at h
  split at h <;> cases h <;> simp_all

theorem execUartRx_cases {block : Bool} {s t : State} (h : execUartRx block s = .next t) :
    (s.contract = .declared ∧
      ((s.slotFull = true ∧ t = rxConsume s) ∨
       (s.slotFull = false ∧ s.mu = .rxWait ∧ t = s) ∨
       (s.slotFull = false ∧ s.mu ≠ .rxWait ∧ block = true ∧ t = { s with mu := .rxWait }) ∨
       (s.slotFull = false ∧ s.mu ≠ .rxWait ∧ block = false ∧ t = (s.setRet noData).advance))) ∨
    (s.contract = .reference ∧
      ((s.mu = .rxWait ∧ s.waitDone = true ∧ t = rxReturn s) ∨
       (s.mu = .rxWait ∧ s.waitDone = false ∧ t = s) ∨
       (s.mu ≠ .rxWait ∧ t = { s.emptySlot with mu := .rxWait }))) := by
  unfold execUartRx at h
  split at h
  · cases h; cases hf : s.slotFull <;> simp_all
  · cases h; unfold rxCheck; cases hf : s.slotFull <;> cases block <;> simp_all
  · cases h; cases hf : s.waitDone <;> simp_all
  · cases h; simp_all

theorem execRxIsr_cases {s t : State} (h : execRxIsr s = .next t) :
    (s.inIsr = true ∧ s.imu = .latch ∧ t = isrLatch s) ∨
    (∃ b, s.inIsr = true ∧ s.imu = .echo b ∧ t = isrEcho b s) ∨
    (s.inIsr = true ∧ s.imu = .ret ∧ t = s.returnIrq) ∨
    (s.inIsr = false ∧ s.irqReady = true ∧ t = s.enterIrq) ∨
    (s.inIsr = false ∧ s.irqReady = false ∧ t = s) := by
  unfold execRxIsr at h
  split at h
  · split at h <;> cases h <;> simp_all
  · split at h <;> cases h <;> simp_all

/-- Every operation's micro-step answers a next state: no meaning stops the machine. -/
theorem exec_next (i : Instr) (s : State) : ∃ t, exec i s = .next t := by
  cases i <;> simp only [exec]
  · unfold execSetClock; split <;> exact ⟨_, rfl⟩
  · unfold execInitUart; split <;> exact ⟨_, rfl⟩
  · exact ⟨_, rfl⟩
  · unfold execPutch; split <;> exact ⟨_, rfl⟩
  · unfold execPutStr; split <;> exact ⟨_, rfl⟩
  · unfold execUartRx; split <;> exact ⟨_, rfl⟩
  · unfold execRxIsr
    split
    · split <;> exact ⟨_, rfl⟩
    · exact ⟨_, rfl⟩

/-- The next event: the schedule's head, or a free move. -/
theorem State.nextEvent_cases (s : State) :
    (∃ e es, s.sched = e :: es ∧ s.nextEvent = (e, { s with sched := es })) ∨
    (s.sched = [] ∧ s.nextEvent = (.move (Config.freeMove s.draws), s.drawn)) := by
  unfold State.nextEvent
  split
  · exact .inl ⟨_, _, by assumption, rfl⟩
  · exact .inr ⟨by assumption, rfl⟩

/-- Everything FG's step can do. -/
theorem fgStep_cases {s t : State} (h : fgStep s = .next t) :
    (s.inIsr = true ∧ t = s) ∨
    (s.inIsr = false ∧ s.refused = none ∧ s.fetch = none ∧ t = s) ∨
    (∃ w r, s.inIsr = false ∧ s.refused = none ∧ s.fetch = some w ∧ decodeProgramWord w = .error r ∧
      t = s.refuse (refusalOf r)) ∨
    (∃ w i, s.inIsr = false ∧ s.refused = none ∧ s.fetch = some w ∧ decodeProgramWord w = .ok i ∧
      exec i s = .next t) := by
  unfold fgStep at h
  split at h
  · cases h; exact .inl ⟨‹_›, rfl⟩
  · have hi : s.inIsr = false := by simpa using ‹¬ s.inIsr = true›
    split at h
    · cases h
    · split at h
      · cases h; exact .inr (.inl ⟨hi, by assumption, by assumption, rfl⟩)
      · split at h
        · exact .inr (.inr (.inr ⟨_, _, hi, by assumption, by assumption, by assumption, h⟩))
        · cases h; exact .inr (.inr (.inl ⟨_, _, hi, by assumption, by assumption, by assumption, rfl⟩))

/-- FG at an operation performs its micro-step. -/
theorem fgStep_of_operation {s : State} {i : Instr} (h : s.atOperation i) : fgStep s = exec i s := by
  obtain ⟨hr, hi, w, hf, hd⟩ := h
  unfold fgStep
  rw [hi, hr, hf]
  simp only [hd, Bool.false_eq_true, if_false]

/-- FG at a word the decoder refuses sets REFUSED (R100). -/
theorem fgStep_of_refused_word {s : State} {w : Word} {r : DecodeRefusal} (hr : s.refused = none)
    (hi : s.inIsr = false) (hf : s.fetch = some w) (hd : decodeProgramWord w = .error r) :
    fgStep s = .next (s.refuse (refusalOf r)) := by
  unfold fgStep
  rw [hi, hr, hf]
  simp only [hd, Bool.false_eq_true, if_false]

/-- FG has no step once REFUSED is set (R100). -/
theorem fgStep_of_refused {s : State} {q : Refusal} (hi : s.inIsr = false) (hr : s.refused = some q) :
    fgStep s = .refused q := by
  unfold fgStep
  rw [hi, hr]
  rfl

/-- Everything a step of the machine can do when it answers a next state. -/
theorem step_cases {s t : State} (h : step s = .next t) :
    s.faults = [] ∧
    ((s.badFormat = true ∧ s.refused = none ∧ t = s.refuse .frameFormat) ∨
     (s.badFormat = false ∧ ∃ e u, s.nextEvent = (e, u) ∧ eventStep e u = .next t)) := by
  unfold step machineStep at h
  split at h
  · cases h
  · refine ⟨by assumption, ?_⟩
    split at h
    · split at h
      · cases h
      · cases h; exact .inl ⟨by assumption, by assumption, rfl⟩
    · refine .inr ⟨by simpa using ‹¬ s.badFormat = true›, _, _, rfl, h⟩

/-- Everything an event's step can do when it answers a next state. -/
theorem eventStep_cases {e : Event} {u t : State} (h : eventStep e u = .next t) :
    (e = .move .fg ∧ fgStep u = .next t) ∨
    (e = .move .isr ∧ execRxIsr u = .next t) ∨
    (e = .move .txe ∧ t = txeStep u) ∨
    (∃ b, e = .move (.rxArrive b) ∧ t = rxArrive b u) ∨
    (∃ on, e = .move (.setGie on) ∧ t = appGie on u) ∨
    (∃ r v, e = .cfgWrite r v ∧ t = if u.inIsr then u else u.outsideWrite r v) := by
  cases e with
  | move m =>
    cases m <;> simp only [eventStep, moveStep, exec] at h
    · exact .inl ⟨rfl, h⟩
    · exact .inr (.inl ⟨rfl, h⟩)
    · cases h; exact .inr (.inr (.inl ⟨rfl, rfl⟩))
    · cases h; exact .inr (.inr (.inr (.inl ⟨_, rfl, rfl⟩)))
    · cases h; exact .inr (.inr (.inr (.inr (.inl ⟨_, rfl, rfl⟩))))
  | cfgWrite r v =>
    simp only [eventStep] at h
    cases h
    exact .inr (.inr (.inr (.inr (.inr ⟨_, _, rfl, rfl⟩))))

/-- A step of a state that can step, with the schedule's head named. -/
theorem step_of_sched {s : State} {e : Event} {es : List Event} (hf : s.faults = [])
    (hb : s.badFormat = false) (hs : s.sched = e :: es) :
    step s = eventStep e { s with sched := es } := by
  have hn : s.nextEvent = (e, { s with sched := es }) := by
    unfold State.nextEvent
    rw [hs]
  unfold step machineStep
  split
  · simp_all
  · rw [if_neg (by simp [hb]), hn]

end Sys2Proof.Machine
end

