-- ==== Sys2Proof/Laws/Fairness.lean ====
section
/-! SUPPORT. What a weakly fair run guarantees (spec/00_scope.md R15, spec/60_exceptions.md R216): the interrupt is
eventually taken, a byte sent
lands, the transmit buffer empties, and PUTCH ends. -/

namespace Sys2Proof.Machine

open Sys2Proof

@[simp] theorem State.after_zero (f : Nat → Event) (s : State) : s.after f 0 = s := rfl

@[simp] theorem State.after_succ (f : Nat → Event) (s : State) (n : Nat) :
    s.after f (n + 1) = (s.after f n).stepWith (f n) := rfl

/-- Everything an event does to a state that can step: the answer of its agent's step, or nothing. -/
theorem State.stepWith_of_canStep {s : State} (h : s.canStep = true) (e : Event) :
    s.stepWith e =
      match eventStep e { s with sched := [] } with
      | .next t => t
      | .fault _ => s
      | .refused _ => s := by
  obtain ⟨hf, hb⟩ : s.faults = [] ∧ s.badFormat = false := by
    simpa [State.canStep] using h
  exact congrArg
    (fun o : Host.Outcome State Fault Refusal =>
      match o with
      | .next t => t
      | .fault _ => s
      | .refused _ => s)
    (step_of_sched (s := { s with sched := [e] }) hf hb rfl)

/-- TXE's event on a state that can step is TXE's step. -/
theorem State.stepWith_txe {s : State} (h : s.canStep = true) :
    s.stepWith (.move .txe) = txeStep { s with sched := [] } := by
  rw [State.stepWith_of_canStep h]
  rfl

/-- The interrupt's event under the condition of R216 is interrupt entry. -/
theorem State.stepWith_isr {s : State} (h : s.canStep = true) (hi : s.irqReady = true) :
    s.stepWith (.move .isr) = { s with sched := [] }.enterIrq := by
  have hn : s.inIsr = false := by
    simp only [State.irqReady, Bool.and_eq_true, Bool.not_eq_true'] at hi
    exact hi.2
  rw [State.stepWith_of_canStep h]
  show (match execRxIsr { s with sched := [] } with
    | .next t => t
    | .fault _ => s
    | .refused _ => s) = _
  unfold execRxIsr
  rw [if_neg (by rw [show ({ s with sched := [] } : State).inIsr = s.inIsr from rfl, hn]; decide),
    if_pos (show ({ s with sched := [] } : State).irqReady = true from hi)]

/-- A write of TXBUF, whatever it does, leaves SHIFT to what follows it. -/
theorem txWrite_shift (who : Writer) (v : Byte) (done : State → State) (s : State)
    (hd : ∀ u : State, (done u).shift = u.shift) : (txWrite who v done s).shift = s.shift := by
  rcases txWrite_cases who v done s with ⟨_, h⟩ | ⟨_, _, h⟩ | ⟨_, _, h | h⟩ <;> rw [h] <;> first | rfl | exact hd _

/-- No operation fills SHIFT. -/
theorem exec_shift_none {i : Instr} {s t : State} (h : exec i s = .next t) (hn : s.shift = none) :
    t.shift = none := by
  cases i with
  | setClock v =>
    rcases execSetClock_cases h with ⟨_, rfl⟩ | ⟨k, _, rfl⟩
    · exact hn
    · show s.shift.map _ = none
      rw [hn]
      rfl
  | initUart b c =>
    rcases execInitUart_cases h with ⟨_, rfl⟩ | ⟨_, rfl⟩ | ⟨_, rfl⟩ | ⟨_, rfl⟩ | ⟨_, rfl⟩ | ⟨_, rfl⟩ | ⟨_, rfl⟩
    · exact hn
    · exact hn
    · exact hn
    · rcases initStep5_cases b c s with ⟨_, _, h5⟩ | ⟨_, h5⟩ <;> rw [h5] <;> exact hn
    · exact hn
    · exact hn
    · exact s.abortShift_shift
  | uninitUart =>
    rw [exec, execUninitUart_eq] at h
    cases h
    exact State.abortShift_shift _
  | putch b =>
    rcases execPutch_cases h with ⟨_, rfl⟩ | ⟨_, rfl⟩
    · exact (txWrite_shift .fg b State.advance s fun _ => rfl).trans hn
    · rcases waitTx_cases .putchWrite s with ⟨_, hw⟩ | ⟨_, hw⟩ <;> rw [hw] <;> exact hn
  | putStr a =>
    rcases execPutStr_cases h with ⟨i, _, rfl⟩ | ⟨i, c, _, rfl⟩ | ⟨i, c, _, rfl⟩ | rfl
    · rcases strRead_cases a i s with ⟨_, hr⟩ | ⟨_, _, hr⟩ | ⟨_, _, hr⟩ | ⟨c, _, _, _, hr⟩ <;> rw [hr] <;> exact hn
    · rcases waitTx_cases (.strWrite i c) s with ⟨_, hw⟩ | ⟨_, hw⟩ <;> rw [hw] <;> exact hn
    · exact (txWrite_shift .fg c (fun u => { u with mu := .strRead (i + 1) }) s fun _ => rfl).trans hn
    · exact hn
  | uartRx block =>
    rcases execUartRx_cases h with ⟨_, ⟨_, rfl⟩ | ⟨_, _, rfl⟩ | ⟨_, _, _, rfl⟩ | ⟨_, _, _, rfl⟩⟩ |
      ⟨_, ⟨_, _, rfl⟩ | ⟨_, _, rfl⟩ | ⟨_, rfl⟩⟩ <;> exact hn
  | rxIsr =>
    rcases execRxIsr_cases h with ⟨_, _, rfl⟩ | ⟨b, _, _, rfl⟩ | ⟨_, _, rfl⟩ | ⟨_, _, rfl⟩ | ⟨_, _, rfl⟩
    · exact hn
    · exact (txWrite_shift .isr b (fun u => { u with imu := .ret }) s fun _ => rfl).trans hn
    · unfold State.returnIrq
      split <;> exact hn
    · exact hn
    · exact hn

/-- Only TXE fills SHIFT. -/
theorem State.stepWith_shift_none {s : State} {e : Event} (hs : s.canStep = true) (he : e ≠ .move .txe)
    (hn : s.shift = none) : (s.stepWith e).shift = none := by
  rw [State.stepWith_of_canStep hs]
  cases h : eventStep e { s with sched := [] } with
  | fault r => exact hn
  | refused r => exact hn
  | next t =>
    show t.shift = none
    rcases eventStep_cases h with ⟨_, h⟩ | ⟨_, h⟩ | ⟨h, _⟩ | ⟨b, _, rfl⟩ | ⟨on, _, rfl⟩ | ⟨r, v, _, rfl⟩
    · rcases fgStep_cases h with ⟨_, rfl⟩ | ⟨_, _, _, rfl⟩ | ⟨_, _, _, _, _, _, rfl⟩ | ⟨_, i, _, _, _, _, h⟩
      · exact hn
      · exact hn
      · exact hn
      · exact exec_shift_none h hn
    · exact exec_shift_none (i := .rxIsr) h hn
    · exact absurd h he
    · rcases rxArrive_cases b { s with sched := [] } with ⟨_, _, h⟩ | ⟨_, _, _, h⟩ | ⟨_, h⟩ <;> rw [h] <;> exact hn
    · unfold appGie
      split <;> exact hn
    · split
      · exact hn
      · cases r <;> exact hn

/-- A fair schedule takes a move that stays enabled. -/
theorem FairTo.taken {m : Move} {f : Nat → Event} {s : State} (hf : FairTo m f s) {n : Nat}
    (h : ∀ k, n ≤ k → (s.after f k).enables m = true) : ∃ k, n ≤ k ∧ f k = .move m := by
  obtain ⟨k, hk, hm | hd⟩ := hf n
  · exact ⟨k, hk, hm⟩
  · exact absurd (h k hk) (by simp [hd])

/-- R216: if the interrupt condition holds continuously, outside the handler, the interrupt is eventually taken. -/
theorem WeaklyFair.interrupt_taken {line : Nat → Option Byte} {f : Nat → Event} {s : State}
    (hf : WeaklyFair line f s) {n : Nat}
    (hs : ∀ k, n ≤ k → (s.after f k).canStep = true)
    (hi : ∀ k, n ≤ k → (∀ j, n ≤ j → j ≤ k → (s.after f j).inIsr = false) → (s.after f k).irqReady = true) :
    ∃ k, n ≤ k ∧ (s.after f k).inIsr = true := by
  by_contra hne
  have hno : ∀ k, n ≤ k → (s.after f k).inIsr = false := fun k hk => by
    cases h : (s.after f k).inIsr
    · rfl
    · exact absurd ⟨k, hk, h⟩ hne
  have hr : ∀ k, n ≤ k → (s.after f k).irqReady = true := fun k hk => hi k hk fun j hj _ => hno j hj
  obtain ⟨k, hk, hm⟩ := hf.isr.taken (n := n) fun k hk => by
    show ((s.after f k).canStep && ((s.after f k).irqReady || (s.after f k).inIsr)) = true
    rw [hs k hk, hr k hk]
    rfl
  have h1 := hno (k + 1) (by omega)
  rw [State.after_succ, hm, State.stepWith_isr (hs k hk) (hr k hk)] at h1
  cases h1

/-- R15, R160, R161: while the engine runs and no agent faults, the transmit buffer empties again and again, so no wait on
TXIFG is endless. -/
theorem WeaklyFair.txifg_returns {line : Nat → Option Byte} {f : Nat → Event} {s : State}
    (hf : WeaklyFair line f s) {n : Nat}
    (hs : ∀ k, n ≤ k → (s.after f k).canStep = true) (he : ∀ k, n ≤ k → (s.after f k).engineOn = true) :
    ∃ k, n ≤ k ∧ (s.after f k).txifg = true := by
  by_contra hne
  have hno : ∀ k, n ≤ k → (s.after f k).txifg = false := fun k hk => by
    cases h : (s.after f k).txifg
    · rfl
    · exact absurd ⟨k, hk, h⟩ hne
  -- TXE stays enabled, so it steps from every point on.
  have hen : ∀ k, n ≤ k → (s.after f k).enables .txe = true := fun k hk => by
    show ((s.after f k).canStep && ((s.after f k).engineOn &&
      ((s.after f k).shift.isSome || !(s.after f k).txifg))) = true
    rw [hs k hk, he k hk, hno k hk]
    simp
  -- With SHIFT empty that step would be TX_LOAD, which sets TXIFG.
  have hload : ∀ k, n ≤ k → f k = .move .txe → (s.after f k).shift ≠ none := fun k hk hm hsh => by
    have h1 := hno (k + 1) (by omega)
    rw [State.after_succ, hm, State.stepWith_txe (hs k hk)] at h1
    rcases txeStep_cases { s.after f k with sched := [] } with ⟨_, _, h, _⟩ | ⟨_, _, _, h⟩ | ⟨h | h, _⟩
    · exact absurd (hsh.symm.trans h) (by simp)
    · rw [h] at h1
      exact absurd h1 (by simp)
    · exact absurd ((he k hk).symm.trans h) (by simp)
    · exact absurd ((hno k hk).symm.trans h.2) (by simp)
  obtain ⟨k1, hk1, hm1⟩ := hf.txe.taken hen
  -- So the next of TXE's steps is TX_EMIT, which empties SHIFT for good, and the one after it cannot be.
  have hempty : ∀ d, (s.after f (k1 + 1 + d)).shift = none := by
    intro d
    induction d with
    | zero =>
      rw [Nat.add_zero, State.after_succ, hm1, State.stepWith_txe (hs k1 hk1)]
      rcases txeStep_cases { s.after f k1 with sched := [] } with ⟨_, _, _, h⟩ | ⟨_, h, _⟩ | ⟨h | h, _⟩
      · rw [h]
        rfl
      · exact absurd h (hload k1 hk1 hm1)
      · exact absurd ((he k1 hk1).symm.trans h) (by simp)
      · exact absurd h.1 (hload k1 hk1 hm1)
    | succ d ih =>
      rw [← Nat.add_assoc, State.after_succ]
      exact State.stepWith_shift_none (hs _ (by omega)) (fun h => hload _ (by omega) h ih) ih
  obtain ⟨k2, hk2, hm2⟩ := hf.txe.taken (n := k1 + 1) fun k hk => hen k (by omega)
  refine hload k2 (by omega) hm2 ?_
  have := hempty (k2 - (k1 + 1))
  rwa [Nat.add_sub_cancel' hk2] at this

/-- R15, R180: a byte the line partner keeps sending lands, while the engine runs and no agent faults. -/
theorem WeaklyFair.byte_lands {line : Nat → Option Byte} {f : Nat → Event} {s : State}
    (hf : WeaklyFair line f s) {n : Nat} {b : Byte} (hb : ∀ k, n ≤ k → line k = some b)
    (hs : ∀ k, n ≤ k → (s.after f k).canStep = true) (he : ∀ k, n ≤ k → (s.after f k).engineOn = true) :
    ∃ k, n ≤ k ∧ (s.after f (k + 1)).rxifg = true ∧
      ((s.after f k).rateOk = true → (s.after f (k + 1)).rxbuf = b) := by
  obtain ⟨k, hk, hl⟩ := hf.rxe.2 n
  refine ⟨k, hk, ?_⟩
  rcases hl b (hb k hk) with hm | hd
  · rw [State.after_succ, hm, State.stepWith_of_canStep (hs k hk)]
    show (rxArrive b { s.after f k with sched := [] }).rxifg = true ∧
      ((s.after f k).rateOk = true → (rxArrive b { s.after f k with sched := [] }).rxbuf = b)
    rcases rxArrive_cases b { s.after f k with sched := [] } with ⟨_, _, h⟩ | ⟨v, _, hr, h⟩ | ⟨h, _⟩
    · rw [h]
      exact ⟨State.land_rxifg _ b, fun _ => rfl⟩
    · rw [h]
      exact ⟨State.land_rxifg _ v, fun hr' => absurd (hr.symm.trans hr') (by simp)⟩
    · exact absurd ((he k hk).symm.trans h) (by simp)
  · have h1 : ((s.after f k).canStep && (s.after f k).engineOn) = false := hd
    rw [hs k hk, he k hk] at h1
    cases h1

/-- While no interrupt can be taken, no event but FG's moves FG or takes the empty transmit buffer from it. -/
theorem State.stepWith_keeps_fg {s : State} {e : Event} (hs : s.canStep = true) (he : e ≠ .move .fg)
    (hi : s.inIsr = false) (hr : s.irqReady = false) :
    (s.stepWith e).pc = s.pc ∧ (s.stepWith e).mu = s.mu ∧ (s.stepWith e).prog = s.prog ∧
      (s.stepWith e).refused = s.refused ∧ (s.txifg = true → (s.stepWith e).txifg = true) := by
  rw [State.stepWith_of_canStep hs]
  cases h : eventStep e { s with sched := [] } with
  | fault r => exact ⟨rfl, rfl, rfl, rfl, id⟩
  | refused r => exact ⟨rfl, rfl, rfl, rfl, id⟩
  | next t =>
    show t.pc = s.pc ∧ t.mu = s.mu ∧ t.prog = s.prog ∧ t.refused = s.refused ∧ (s.txifg = true → t.txifg = true)
    rcases eventStep_cases h with ⟨h, _⟩ | ⟨_, h⟩ | ⟨_, rfl⟩ | ⟨b, _, rfl⟩ | ⟨on, _, rfl⟩ | ⟨r, v, _, rfl⟩
    · exact absurd h he
    · rcases execRxIsr_cases h with ⟨h, _⟩ | ⟨_, h, _⟩ | ⟨h, _⟩ | ⟨_, h, _⟩ | ⟨_, _, rfl⟩
      · exact absurd (hi.symm.trans h) (by simp)
      · exact absurd (hi.symm.trans h) (by simp)
      · exact absurd (hi.symm.trans h) (by simp)
      · exact absurd (hr.symm.trans h) (by simp)
      · exact ⟨rfl, rfl, rfl, rfl, id⟩
    · rcases txeStep_cases { s with sched := [] } with ⟨_, _, _, h⟩ | ⟨_, _, _, h⟩ | ⟨_, h⟩ <;> rw [h]
      · exact ⟨rfl, rfl, rfl, rfl, id⟩
      · exact ⟨rfl, rfl, rfl, rfl, fun _ => txLoad_txifg _⟩
      · exact ⟨rfl, rfl, rfl, rfl, id⟩
    · rcases rxArrive_cases b { s with sched := [] } with ⟨_, _, h⟩ | ⟨v, _, _, h⟩ | ⟨_, h⟩ <;> rw [h]
      · exact ⟨rfl, rfl, rfl, rfl, fun ht => (State.land_txifg _ b).trans ht⟩
      · exact ⟨rfl, rfl, rfl, rfl, fun ht => (State.land_txifg _ v).trans ht⟩
      · exact ⟨rfl, rfl, rfl, rfl, id⟩
    · unfold appGie
      split <;> exact ⟨rfl, rfl, rfl, rfl, id⟩
    · split
      · exact ⟨rfl, rfl, rfl, rfl, id⟩
      · cases r <;> exact ⟨rfl, rfl, rfl, rfl, id⟩

/-- FG's event at a PUTCH is the micro-step of PUTCH. -/
theorem State.stepWith_fg_putch {s : State} {b : Byte} (hs : s.canStep = true) (ho : s.atOperation (.putch b)) :
    (s.mu = .putchWrite ∧ s.stepWith (.move .fg) = txWrite .fg b State.advance { s with sched := [] }) ∨
    (s.mu ≠ .putchWrite ∧ s.stepWith (.move .fg) = waitTx .putchWrite { s with sched := [] }) := by
  have ho' : ({ s with sched := [] } : State).atOperation (.putch b) := ho
  obtain ⟨t, ht⟩ := exec_next (.putch b) { s with sched := [] }
  have h : s.stepWith (.move .fg) = t := by
    rw [State.stepWith_of_canStep hs]
    show (match fgStep { s with sched := [] } with
      | .next t => t
      | .fault _ => s
      | .refused _ => s) = t
    rw [fgStep_of_operation ho', ht]
  rw [h]
  exact execPutch_cases ht

/-- At a PUTCH that can go on, FG is enabled. -/
theorem State.enables_fg_putch {s : State} {b : Byte} (hs : s.canStep = true) (ho : s.atOperation (.putch b))
    (ht : s.txifg = true) (hw : s.swrst = false) : s.enables .fg = true := by
  obtain ⟨t, hn⟩ := exec_next (.putch b) s
  have hne : t ≠ s := by
    intro h
    subst h
    rcases execPutch_cases hn with ⟨_, h⟩ | ⟨hm, h⟩
    · rcases txWrite_cases .fg b State.advance t with ⟨h1, _⟩ | ⟨_, _, h1⟩ | ⟨_, h1, _⟩
      · exact absurd (ht.symm.trans h1) (by simp)
      · have := congrArg State.pc (h.trans h1)
        exact Nat.succ_ne_self t.pc (Eq.symm this)
      · exact absurd (hw.symm.trans h1) (by simp)
    · rcases waitTx_cases .putchWrite t with ⟨_, h1⟩ | ⟨h1, _⟩
      · exact hm (congrArg State.mu (h.trans h1))
      · exact absurd (ht.symm.trans h1) (by simp)
  show (s.canStep && (match fgStep s with
    | .next t => t != s
    | .fault _ => false
    | .refused _ => false)) = true
  rw [hs, fgStep_of_operation ho, hn]
  simpa using hne

/-- R15, R150: in a weakly fair run PUTCH ends, while the engine runs, no agent faults and no interrupt comes. -/
theorem WeaklyFair.putch_ends {line : Nat → Option Byte} {f : Nat → Event} {s : State}
    (hf : WeaklyFair line f s) {n : Nat} {b : Byte}
    (hs : ∀ k, n ≤ k → (s.after f k).canStep = true) (he : ∀ k, n ≤ k → (s.after f k).engineOn = true)
    (hi : ∀ k, n ≤ k → (s.after f k).inIsr = false ∧ (s.after f k).irqReady = false)
    (ho : (s.after f n).atOperation (.putch b)) : ∃ k, n ≤ k ∧ (s.after f k).pc = (s.after f n).pc + 1 := by
  by_contra hne
  have hno : ∀ k, n ≤ k → (s.after f k).pc ≠ (s.after f n).pc + 1 := fun k hk h => hne ⟨k, hk, h⟩
  have hw : ∀ k, n ≤ k → (s.after f k).swrst = false := fun k hk => by
    have := he k hk
    simp only [State.engineOn, Bool.and_eq_true, Bool.not_eq_true'] at this
    exact this.1
  -- A step from a PUTCH that has not ended either leaves the write, or is the passing or holding of the wait.
  have hfg : ∀ k, n ≤ k → (s.after f k).pc = (s.after f n).pc → (s.after f k).atOperation (.putch b) →
      f k = .move .fg → (s.after f k).mu ≠ .putchWrite ∧
        s.after f (k + 1) = waitTx .putchWrite { s.after f k with sched := [] } := fun k hk hp hk' hm => by
    rcases State.stepWith_fg_putch (hs k hk) hk' with ⟨_, h⟩ | ⟨hmu, h⟩
    · rw [← hm, ← State.after_succ] at h
      rcases txWrite_cases .fg b State.advance { s.after f k with sched := [] } with ⟨_, h1⟩ | ⟨_, _, h1⟩ | ⟨_, h1, _⟩
      · have := hs (k + 1) (by omega)
        rw [h, h1] at this
        simp [State.canStep, State.raise] at this
      · refine absurd ?_ (hno (k + 1) (by omega))
        rw [h, h1]
        show (s.after f k).pc + 1 = _
        rw [hp]
      · exact absurd ((hw k hk).symm.trans h1) (by simp)
    · exact ⟨hmu, by rw [State.after_succ, hm]; exact h⟩
  -- So FG stays at this PUTCH,
  have hat : ∀ d, (s.after f (n + d)).pc = (s.after f n).pc ∧ (s.after f (n + d)).atOperation (.putch b) := by
    intro d
    induction d with
    | zero => exact ⟨rfl, ho⟩
    | succ d ih =>
      obtain ⟨hp, hr, _, w, hft, hd⟩ := ih
      rw [← Nat.add_assoc]
      have hin := (hi (n + d + 1) (by omega)).1
      by_cases hm : f (n + d) = .move .fg
      · have h := (hfg (n + d) (by omega) hp ⟨hr, ‹_›, w, hft, hd⟩ hm).2
        rcases waitTx_cases .putchWrite { s.after f (n + d) with sched := [] } with ⟨_, h1⟩ | ⟨_, h1⟩ <;>
          rw [h1] at h
        · exact ⟨by rw [h]; exact hp, by rw [h]; exact hr, hin, w, by rw [h]; exact hft, hd⟩
        · exact ⟨by rw [h]; exact hp, by rw [h]; exact hr, hin, w, by rw [h]; exact hft, hd⟩
      · obtain ⟨kp, _, kg, kr, _⟩ := State.stepWith_keeps_fg (hs (n + d) (by omega)) hm
          (hi (n + d) (by omega)).1 (hi (n + d) (by omega)).2
        rw [State.after_succ] at hin ⊢
        exact ⟨kp.trans hp, kr.trans hr, hin, w, by unfold State.fetch at hft ⊢; rw [kg, kp]; exact hft, hd⟩
  have hat' : ∀ k, n ≤ k → (s.after f k).pc = (s.after f n).pc ∧ (s.after f k).atOperation (.putch b) := fun k hk => by
    have := hat (k - n)
    rwa [Nat.add_sub_cancel' hk] at this
  -- TXIFG returns and stays,
  obtain ⟨k1, hk1, ht1⟩ := hf.txifg_returns hs he
  have hstep : ∀ k, n ≤ k → (s.after f k).txifg = true → (s.after f (k + 1)).txifg = true := fun k hk ht => by
    by_cases hm : f k = .move .fg
    · rw [(hfg k hk (hat' k hk).1 (hat' k hk).2 hm).2]
      rcases waitTx_cases .putchWrite { s.after f k with sched := [] } with ⟨_, h1⟩ | ⟨_, h1⟩ <;> rw [h1] <;> exact ht
    · exact (State.stepWith_keeps_fg (hs k hk) hm (hi k hk).1 (hi k hk).2).2.2.2.2 ht
  have htx : ∀ d, (s.after f (k1 + d)).txifg = true := fun d => by
    induction d with
    | zero => exact ht1
    | succ d ih => exact hstep (k1 + d) (by omega) ih
  have htx' : ∀ k, k1 ≤ k → (s.after f k).txifg = true := fun k hk => by
    have := htx (k - k1)
    rwa [Nat.add_sub_cancel' hk] at this
  -- so FG is enabled, passes the wait, and its next step is the write.
  have hen : ∀ k, k1 ≤ k → (s.after f k).enables .fg = true := fun k hk =>
    State.enables_fg_putch (hs k (by omega)) (hat' k (by omega)).2 (htx' k hk) (hw k (by omega))
  obtain ⟨k2, hk2, hm2⟩ := hf.fg.taken hen
  have hmu : ∀ d, (s.after f (k2 + 1 + d)).mu = .putchWrite := fun d => by
    induction d with
    | zero =>
      rw [Nat.add_zero, (hfg k2 (by omega) (hat' k2 (by omega)).1 (hat' k2 (by omega)).2 hm2).2]
      rcases waitTx_cases .putchWrite { s.after f k2 with sched := [] } with ⟨_, h1⟩ | ⟨h1, _⟩
      · rw [h1]
      · exact absurd ((htx' k2 hk2).symm.trans h1) (by simp)
    | succ d ih =>
      have hk : n ≤ k2 + 1 + d := by omega
      have hm : f (k2 + 1 + d) ≠ .move .fg := fun hm =>
        (hfg _ hk (hat' _ hk).1 (hat' _ hk).2 hm).1 ih
      exact (State.stepWith_keeps_fg (hs _ hk) hm (hi _ hk).1 (hi _ hk).2).2.1.trans ih
  obtain ⟨k3, hk3, hm3⟩ := hf.fg.taken (n := k2 + 1) fun k hk => hen k (by omega)
  refine (hfg k3 (by omega) (hat' k3 (by omega)).1 (hat' k3 (by omega)).2 hm3).1 ?_
  have := hmu (k3 - (k2 + 1))
  rwa [Nat.add_sub_cancel' hk3] at this

end Sys2Proof.Machine
end

