-- ==== Sys2Proof/Laws/Interrupt.lean ====
section
/-! SUPPORT. What becomes of a frame that lands while the handler runs (spec/60_exceptions.md R220). -/

namespace Sys2Proof.Machine

open Sys2Proof

/-- R216, R219: the return makes the interrupt takeable again exactly where a byte is pending and enabled and GIE was 1 at
the entry. -/
theorem State.returnIrq_irqReady {s : State} {r : SavedFg} (h : s.saved = some r) :
    s.returnIrq.irqReady = (s.rxifg && s.rxie && r.gie) := by
  unfold State.returnIrq
  rw [h]
  show (s.rxifg && s.rxie && r.gie && !false) = _
  rw [Bool.not_false, Bool.and_true]

/-- R220: a frame that lands after the handler's read, whether before an echo or before the return, is pending, so the
interrupt can be taken again after the return. -/
theorem arrival_after_read_taken {s : State} {r : SavedFg} (b : Byte) (he : s.engineOn = true)
    (hs : s.saved = some r) (hg : r.gie = true) (hi : s.rxie = true) :
    (rxArrive b s).returnIrq.irqReady = true := by
  rcases rxArrive_cases b s with ⟨_, _, h⟩ | ⟨v, _, _, h⟩ | ⟨h, _⟩
  · rw [h, State.returnIrq_irqReady (s := s.land b) hs, State.land_rxifg, hg]
    show (true && s.rxie && true) = true
    rw [hi]
    rfl
  · rw [h, State.returnIrq_irqReady (s := (s.land v).drawn) hs, hg]
    show ((s.land v).rxifg && s.rxie && true) = true
    rw [State.land_rxifg, hi]
    rfl
  · exact absurd (he.symm.trans h) (by simp)

/-- R181, R186 (log 28): a frame that lands between the entry, where RXIFG is 1, and the handler's read raises OE, and it
is its byte that this run of the handler latches; the read clears RXIFG. -/
theorem arrival_before_read_latched {s : State} (b : Byte) (he : s.engineOn = true) (hr : s.rateOk = true)
    (hf : s.rxifg = true) :
    (isrLatch (rxArrive b s)).slotVal = b ∧ (isrLatch (rxArrive b s)).slotFull = true ∧
      (isrLatch (rxArrive b s)).oe = true ∧ (isrLatch (rxArrive b s)).rxifg = false := by
  rcases rxArrive_cases b s with ⟨_, _, h⟩ | ⟨v, _, h, _⟩ | ⟨h, _⟩
  · rw [h]
    refine ⟨rfl, rfl, ?_, State.readRxbuf_rxifg (s.land b)⟩
    show (s.oe || s.rxifg) = true
    rw [hf, Bool.or_true]
  · exact absurd (hr.symm.trans h) (by simp)
  · exact absurd (he.symm.trans h) (by simp)

end Sys2Proof.Machine
end

