-- ==== Sys2Proof/Laws/PerInstr.lean ====
section
/-! SUPPORT. A statement made per operation: its encoding belongs to the row of spec/opcode_table.json that bears
its mnemonic. -/

namespace Sys2Proof.Laws.TableRow

open Sys2Proof

/-- The word of the operation is selected by a row with the operation's mnemonic. -/
def Statement (i : Instr) : Prop :=
  ∃ r ∈ opcodeTable, r.mnemonic = i.mnemonic ∧ r.selects (encode i) = true

/-- Bits that a field's mask covers survive the row's mask of them. -/
theorem masked {n : Nat} (base mask : Word) (v : BitVec n)
    (hb : base &&& mask = base) (hm : ∀ j, j < n → mask.getLsbD j = false) :
    (base ||| v.setWidth 32) &&& mask = base := by
  apply BitVec.eq_of_getLsbD_eq
  intro j hj
  have h1 := congrArg (fun w => w.getLsbD j) hb
  simp only [BitVec.getLsbD_and, BitVec.getLsbD_or] at h1 ⊢
  by_cases hjn : j < n
  · simp only [hm j hjn, Bool.and_false] at h1 ⊢
    exact h1
  · have : (v.setWidth 32).getLsbD j = false := by
      simp only [BitVec.getLsbD_setWidth, BitVec.getLsbD_of_ge v j (by omega), Bool.and_false]
    simpa [this] using h1

theorem setClock (speed : Byte) : Statement (.setClock speed) := by
  refine ⟨⟨"SET_CLOCK", 0x10000000#32, 0xFFFFFF00#32⟩, by decide, rfl, ?_⟩
  exact beq_iff_eq.mpr (masked _ _ speed (by decide) (by decide))

theorem initUart (baud clockSpeed : Byte) : Statement (.initUart baud clockSpeed) := by
  refine ⟨⟨"INIT_UART", 0x20000000#32, 0xFF00FF00#32⟩, by decide, rfl, beq_iff_eq.mpr ?_⟩
  apply BitVec.eq_of_getLsbD_eq
  intro j hj
  have : j < 8 ∨ (8 ≤ j ∧ j < 16) ∨ (16 ≤ j ∧ j < 24) ∨ 24 ≤ j := by omega
  simp only [encode, BitVec.getLsbD_and, BitVec.getLsbD_or, BitVec.getLsbD_shiftLeft, BitVec.getLsbD_setWidth]
  have hm : ∀ k, k < 32 → (k < 8 ∨ (16 ≤ k ∧ k < 24)) → (0xFF00FF00#32).getLsbD k = false := by decide
  have hz : ∀ k, k < 32 → (k < 8 ∨ (16 ≤ k ∧ k < 24)) → (0x20000000#32).getLsbD k = false := by decide
  have ho : ∀ k, k < 32 → ¬ (k < 8 ∨ (16 ≤ k ∧ k < 24)) →
      ((0x20000000#32).getLsbD k && (0xFF00FF00#32).getLsbD k) = (0x20000000#32).getLsbD k := by decide
  rcases this with h | h | h | h
  · rw [hm j hj (by omega), hz j hj (by omega), Bool.and_false]
  · rw [BitVec.getLsbD_of_ge clockSpeed j (by omega)]
    simpa [h.2] using ho j hj (by omega)
  · rw [hm j hj (by omega), hz j hj (by omega), Bool.and_false]
  · rw [BitVec.getLsbD_of_ge clockSpeed j (by omega), BitVec.getLsbD_of_ge baud (j - 16) (by omega)]
    simpa using ho j hj (by omega)

theorem uninitUart : Statement .uninitUart := by
  exact ⟨⟨"UNINIT_UART", 0x30000000#32, 0xFFFFFFFF#32⟩, by decide, rfl, by decide⟩

theorem putch (byte : Byte) : Statement (.putch byte) := by
  refine ⟨⟨"PUTCH", 0x40000000#32, 0xFFFFFF00#32⟩, by decide, rfl, ?_⟩
  exact beq_iff_eq.mpr (masked _ _ byte (by decide) (by decide))

theorem putStr (addr : Half) : Statement (.putStr addr) := by
  refine ⟨⟨"PUT_STR", 0x50000000#32, 0xFFFF0000#32⟩, by decide, rfl, ?_⟩
  exact beq_iff_eq.mpr (masked _ _ addr (by decide) (by decide))

theorem uartRx (block : Bool) : Statement (.uartRx block) := by
  refine ⟨⟨"UART_RX", 0x60000000#32, 0xFFFFFFFE#32⟩, by decide, rfl, ?_⟩
  cases block <;> decide

theorem rxIsr : Statement .rxIsr := by
  exact ⟨⟨"RX_ISR", 0x70000000#32, 0xFFFFFFFF#32⟩, by decide, rfl, by decide⟩

end Sys2Proof.Laws.TableRow
end

