-- ==== Sys2Proof/Machine/Assembler.lean ====
section
/-! DEFINITION. The assembler syntax of spec/30_encoding.md R104, the pseudo-operations of R105, and the source's
call syntax of R106. No step of the machine uses it. A line is a list of characters. -/

namespace Sys2Proof.Machine

open Sys2Proof

/-- The quote of a character literal. -/
def quoteChar : Char := Char.ofNat 39

/-- The text between commas; a comma inside a character literal separates nothing. -/
def splitArgs (cur : List Char) : List Char → List (List Char)
  | [] => [cur]
  | [a] => if a = ',' then [cur, []] else [cur ++ [a]]
  | [a, b] => if a = ',' then cur :: splitArgs [] [b] else splitArgs (cur ++ [a]) [b]
  | a :: b :: c :: cs =>
    if a = ',' then cur :: splitArgs [] (b :: c :: cs)
    else if a = quoteChar ∧ c = quoteChar then splitArgs (cur ++ [a, b, c]) cs
    else splitArgs (cur ++ [a]) (b :: c :: cs)

/-- The text without the blanks before and after it. -/
def trimBlanks (t : List Char) : List Char :=
  ((t.dropWhile (· == ' ')).reverse.dropWhile (· == ' ')).reverse

/-- The value of a digit, hexadecimal ones included. -/
def digitValue (c : Char) : Option Nat :=
  let n := c.toNat
  if 48 ≤ n ∧ n ≤ 57 then some (n - 48)
  else if 65 ≤ n ∧ n ≤ 70 then some (n - 55)
  else if 97 ≤ n ∧ n ≤ 102 then some (n - 87)
  else none

/-- The value of a digit string in a base, read from the left. -/
def digitsValue (base acc : Nat) : List Char → Option Nat
  | [] => some acc
  | c :: cs =>
    match digitValue c with
    | some d => if d < base then digitsValue base (acc * base + d) cs else none
    | none => none

/-- A number, decimal or `0x` hexadecimal, or a character literal's ASCII code (R104). -/
def argValue (t : List Char) : Option Nat :=
  match t with
  | [] => none
  | [a, b, c] =>
    if a = quoteChar ∧ c = quoteChar then if b.toNat < 128 then some b.toNat else none
    else if a = '0' ∧ b = 'x' then digitsValue 16 0 [c]
    else digitsValue 10 0 [a, b, c]
  | a :: b :: c :: cs =>
    if a = '0' ∧ b = 'x' then digitsValue 16 0 (c :: cs) else digitsValue 10 0 (a :: b :: c :: cs)
  | t => digitsValue 10 0 t

/-- An argument of at most 8 bits. -/
def byteArg (t : List Char) : Option Byte :=
  match argValue t with
  | some n => if n < 256 then some (BitVec.ofNat 8 n) else none
  | none => none

/-- A baud: its enumeration value or its spelled rate (R104). -/
def baudArg (t : List Char) : Option Byte :=
  if t = ['B', '9', '6', '0', '0'] then some 0#8
  else if t = ['B', '1', '1', '5', '2', '0', '0'] then some 1#8
  else byteArg t

/-- An address of at most 16 bits. -/
def addrArg (t : List Char) : Option Half :=
  match argValue t with
  | some n => if n < 65536 then some (BitVec.ofNat 16 n) else none
  | none => none

/-- A block flag, 0 or 1. -/
def flagArg (t : List Char) : Option Bool :=
  match argValue t with
  | some 0 => some false
  | some 1 => some true
  | _ => none

/-- The operations a mnemonic with its arguments stands for (R104, R105). -/
def assembleOp (name : String) (args : List (List Char)) : Option (List Instr) :=
  match args with
  | [] =>
    if name = "UNINIT_UART" then some [.uninitUart]
    else if name = "RX_ISR" then some [.rxIsr]
    else if name = "GETC" then some Pseudo.getc.expand
    else if name = "POLL" then some Pseudo.poll.expand
    else none
  | [x] =>
    if name = "SET_CLOCK" then (byteArg x).map fun v => [.setClock v]
    else if name = "PUTCH" then (byteArg x).map fun v => [.putch v]
    else if name = "PUT_STR" then (addrArg x).map fun v => [.putStr v]
    else if name = "UART_RX" then (flagArg x).map fun v => [.uartRx v]
    else none
  | [x, y] =>
    match baudArg x, byteArg y with
    | some b, some k =>
      if name = "INIT_UART" then some [.initUart b k]
      else if name = "BEGIN" then some (Pseudo.begin b k).expand
      else none
    | _, _ => none
  | _ => none

/-- One line of the syntax of R104: the mnemonic, then its arguments separated by commas. -/
def assembleLine (line : List Char) : Option (List Instr) :=
  let t := trimBlanks line
  let name := t.takeWhile (· != ' ')
  let rest := trimBlanks (t.dropWhile (· != ' '))
  let args := if rest.isEmpty then [] else (splitArgs [] rest).map trimBlanks
  assembleOp (String.ofList name) args

/-- The words of a line. -/
def assembleWords (line : List Char) : Option (List Word) := (assembleLine line).map (·.map encode)

/-- The source's entry point of an operation (R92, R106). -/
def entryPoint : Instr → String
  | .setClock _ => "set_clock"
  | .initUart _ _ => "init_uart"
  | .uninitUart => "uninit_uart"
  | .putch _ => "putch"
  | .putStr _ => "put_str"
  | .uartRx _ => "uart_rx"
  | .rxIsr => "receive interrupt handler"

end Sys2Proof.Machine
end

