-- ==== Sys2Proof/Tests/Slice0.lean ====
section
/-! SUPPORT. Tests whose expected results are the vectors of spec/95_test_vectors.md, smoke tests of the
well-formedness checks and of the placing of a word, and for every statement with hypotheses a witness that
meets them. -/

namespace Sys2Proof.Tests

open Sys2Proof Sys2Proof.Machine

/-! ### Start states -/

/-- `ACT(0, 8)` of spec/95_test_vectors.md section 0. -/
def act : State :=
  { State.reset with
    bcs := Config.calBcs .mhz8, trim := Config.calTrim .mhz8, osc := some .mhz8, ctl1 := 0x80#8, br0 := 0x41#8,
    br1 := 0x03#8, mctl := 0x04#8, ie2 := 0x01#8, psel := 0x06#8, psel2 := 0x06#8, phase := .active,
    cfg := some ⟨.b9600, .mhz8⟩, pc := 2 }

/-- A byte has arrived and interrupts are enabled. -/
def arrived : State := { act with rxbuf := 0x55#8, ifg2 := 0x0B#8, gie := true }

/-- Inside the handler at `m`. -/
def inHandler (c : RxContract) (m : IsrMicro) : State :=
  { arrived with contract := c, gie := false, inIsr := true, saved := some ⟨2, .idle, true⟩, imu := m }

/-- The state an answer holds, where it is a next state. -/
def next? : Host.Outcome State Fault Refusal → Option State
  | .next t => some t
  | .fault _ => none
  | .refused _ => none

/-! ### Well-formedness -/

/-- R99: the one ill-formed operation of a program. -/
theorem test_wf_rxIsr : Instr.inProgram .rxIsr = false := by decide

theorem test_wf_program : programWellFormed [.setClock 8#8, .rxIsr] = false := by decide

theorem test_wf_program_ok : programWellFormed [.setClock 8#8, .initUart 0#8 8#8, .uartRx true] = true := by decide

/-! ### Decoding: words written bit by bit from R91 and R93 to R99 (op, rsv, a1, a0) -/

/-- ENC-1: op 0001, speed 16. -/
theorem test_decode_setClock : decode 0b0001_0000_00000000_00000000_00010000#32 = .ok (.setClock 16#8) := by decide
/-- ENC-4: op 0010, a1 = baud 1, a0 = speed 16. -/
theorem test_decode_initUart :
    decode 0b0010_0000_00000001_00000000_00010000#32 = .ok (.initUart 1#8 16#8) := by decide
/-- ENC-5: a baud that misses the table still decodes (R102). -/
theorem test_decode_initUart_miss :
    decode 0b0010_0000_11111111_00000000_00010000#32 = .ok (.initUart 255#8 16#8) := by decide
/-- ENC-8: op 0011. -/
theorem test_decode_uninitUart : decode 0b0011_0000_00000000_00000000_00000000#32 = .ok .uninitUart := by decide
/-- ENC-10: op 0100, a0 = the byte 0x41. -/
theorem test_decode_putch : decode 0b0100_0000_00000000_00000000_01000001#32 = .ok (.putch 0x41#8) := by decide
/-- ENC-13: op 0101, a0 = the address 0x0200. -/
theorem test_decode_putStr : decode 0b0101_0000_00000000_00000010_00000000#32 = .ok (.putStr 0x0200#16) := by decide
/-- ENC-15: op 0110, block 1. -/
theorem test_decode_uartRx : decode 0b0110_0000_00000000_00000000_00000001#32 = .ok (.uartRx true) := by decide
/-- ENC-18: op 0111; refused as a program word. -/
theorem test_decode_rxIsr :
    decode 0b0111_0000_00000000_00000000_00000000#32 = .ok .rxIsr ∧
    decodeProgramWord 0b0111_0000_00000000_00000000_00000000#32 = .error .handlerInProgram := by decide

/-- ENC-2, ENC-11, ENC-14, ENC-16. -/
theorem test_decode_values :
    decodeProgramWord 0x100000FF#32 = .ok (.setClock 255#8) ∧
    decodeProgramWord 0x40000000#32 = .ok (.putch 0x00#8) ∧
    decodeProgramWord 0x5000FFFF#32 = .ok (.putStr 0xFFFF#16) ∧
    decodeProgramWord 0x60000000#32 = .ok (.uartRx false) := by decide

/-- ENC-3, ENC-6, ENC-7, ENC-9, ENC-12, ENC-17, ENC-19: a required-zero bit is set. -/
theorem test_decode_reserved_bits :
    [0x10000108#32, 0x21000001#32, 0x20000101#32, 0x30000001#32, 0x40010041#32, 0x60000002#32, 0x70000001#32].map
      decodeProgramWord = List.replicate 7 (.error .reservedBits) := by decide

/-- ENC-20 to ENC-22. -/
theorem test_decode_reserved_op :
    [0x00000000#32, 0x80000000#32, 0xFFFFFFFF#32].map decodeProgramWord =
      List.replicate 3 (.error .reservedOp) := by decide

/-- R104: the encoder's words for the assembler's examples. -/
theorem test_encode :
    encode (.setClock 16#8) = 0x10000010#32 ∧ encode (.initUart 1#8 16#8) = 0x20010010#32 ∧
    encode .uninitUart = 0x30000000#32 ∧ encode (.putch 0x41#8) = 0x40000041#32 ∧
    encode (.putStr 0x0200#16) = 0x50000200#32 ∧ encode (.uartRx true) = 0x60000001#32 ∧
    encode .rxIsr = 0x70000000#32 := by decide

/-- R104: the syntax of the programs P1 to P4. -/
theorem test_assemble_init : assembleWords "INIT_UART B115200, 16".toList = some [0x20010010#32] := by decide
theorem test_assemble_char : assembleWords "PUTCH '!'".toList = some [0x40000021#32] := by decide
theorem test_assemble_getc : assembleWords "GETC".toList = some [0x60000001#32] := by decide
/-- R105: BEGIN is SET_CLOCK then INIT_UART. -/
theorem test_assemble_begin :
    assembleWords "BEGIN 0, 8".toList = some [0x10000008#32, 0x20000008#32] := by decide

/-- The table's numbering of a row's bits. -/
theorem test_decodeTableWord : decodeTableWord 32 0x20010010 = some (.initUart 1#8 16#8) := by decide
theorem test_decodeTableWord_refuses : decodeTableWord 32 0x30000001 = none := by decide

/-- A placed PUTCH is what the next step from reset performs: it passes its wait, since TXIFG = 1 at reset. -/
theorem test_placed_putch :
    (next? (step (State.reset.withFetchWord 32 0x40000041))).map State.mu = some .putchWrite := by decide
/-- A placed RX_ISR word is the handler's dispatch: the next step is its body, which fills the latch. -/
theorem test_placed_rxIsr :
    (next? (step (State.reset.withFetchWord 32 0x70000000))).map State.slotFull = some true := by decide

/-! ### SET_CLOCK -/

/-- SC-7: after SET_CLOCK 8 an unsupported speed changes neither TRIM nor OSC_SPEED. -/
theorem test_setClock_unsupported :
    exec (.setClock 3#8) act = .next { act with pc := 3 } := rfl
/-- SC-10: the same speed again makes the frame in SHIFT unreliable, RATE_OK true. -/
theorem test_setClock_disturbs :
    (next? (exec (.setClock 8#8) { act with shift := some ⟨0x41#8, true⟩ })).map (fun t => (t.shift, t.rateOk)) =
      some (some ⟨0x41#8, false⟩, true) := by decide

/-! ### INIT_UART, UNINIT_UART -/

/-- LC-1 to LC-6: BR0, BR1 and MCTL of each row. -/
theorem test_init_divisors :
    ([(0#8, 1#8), (0#8, 8#8), (0#8, 16#8), (1#8, 1#8), (1#8, 8#8), (1#8, 16#8)].map fun p =>
      let t := initStep5 p.1 p.2 { State.reset with mu := .init .s5 }
      (t.br0, t.br1, t.mctl)) =
    [(0x68#8, 0x00#8, 0x02#8), (0x41#8, 0x03#8, 0x04#8), (0x82#8, 0x06#8, 0x0C#8), (0x08#8, 0x00#8, 0x0C#8),
     (0x45#8, 0x00#8, 0x08#8), (0x8A#8, 0x00#8, 0x0E#8)] := by decide
/-- LC-13: a miss after a hit keeps the registers and loses CFG. -/
theorem test_init_miss :
    (next? (exec (.initUart 2#8 8#8) { act with mu := .init .s5 })).map (fun t => (t.br0, t.br1, t.mctl, t.cfg)) =
      some (0x41#8, 0x03#8, 0x04#8, none) := by decide
/-- LC-14: UNINIT_UART from reset changes pc only. -/
theorem test_uninit_reset : exec .uninitUart State.reset = .next { State.reset with pc := 1 } := rfl
/-- LC-15: UNINIT_UART keeps the latch and the pins. -/
theorem test_uninit_keeps :
    (next? (exec .uninitUart { act with slotFull := true, slotVal := 0x5A#8 })).map
      (fun t => (t.slotFull, t.slotVal, t.ctl1, t.psel, t.br0)) = some (true, 0x5A#8, 0x01#8, 0x06#8, 0x41#8) := by
  decide
/-- R141's rates in hundredths of a bit per second. -/
theorem test_bit_rates :
    [bitRateHundredths .b9600 .mhz1, bitRateHundredths .b9600 .mhz8, bitRateHundredths .b9600 .mhz16,
     bitRateHundredths .b115200 .mhz1, bitRateHundredths .b115200 .mhz8, bitRateHundredths .b115200 .mhz16] =
    [960384, 960096, 959952, 11428571, 11510791, 11521152] := by decide

/-! ### PUTCH, PUT_STR, the transmit engine -/

/-- TX-1: the byte is in TXBUF, TXIFG = 0, pc = 3. -/
theorem test_putch_write :
    (next? (exec (.putch 0x41#8) { act with mu := .putchWrite })).map (fun t => (t.txbuf, t.txifg, t.pc)) =
      some (0x41#8, false, 3) := by decide
/-- TX-15 (b): the write finds TXIFG = 0. -/
theorem test_putch_overwrite :
    (next? (exec (.putch 0x41#8) { act with mu := .putchWrite, ifg2 := 0x08#8 })).map State.faults =
      some [.txOverwrite 0x41#8 .fg] := by decide
/-- TX-9: the read at 0x10000 records STR_WRAP with addr and i. -/
theorem test_putStr_wrap :
    (next? (exec (.putStr 0xFFFE#16) { act with mu := .strRead 2 })).map State.faults =
      some [.strWrap 0xFFFE#16 2] := by decide
/-- TX-10: the terminator at the top address ends the operation. -/
theorem test_putStr_top :
    (next? (exec (.putStr 0xFFFF#16) { act with mem := [(0xFFFF, 0x00#8)], mu := .strRead 0 })).map
      (fun t => (t.pc, t.faults)) = some (3, []) := by decide
/-- TX-1: TX_LOAD, then TX_EMIT. -/
theorem test_txe :
    (let t := txeStep { act with txbuf := 0x41#8, ifg2 := 0x08#8 }
     (t.shift, t.txifg, (txeStep t).txline)) =
    (some ⟨0x41#8, true⟩, true, [Wire.frame 0x41#8 .b9600]) := by decide
/-- TX-4. -/
theorem test_frame_bits :
    [0x41#8, 0x42#8, 0x80#8, 0x55#8].map frameBits =
    [[false, true, false, false, false, false, false, true, false, true],
     [false, false, true, false, false, false, false, true, false, true],
     [false, false, false, false, false, false, false, false, true, true],
     [false, true, false, true, false, true, false, true, false, true]] := by decide

/-! ### The receive engine, RX_ISR, UART_RX -/

/-- RX-7: the second arrival overruns the first. -/
theorem test_arrive_overrun :
    (let t := rxArrive 0x42#8 (rxArrive 0x41#8 act)
     (t.rxbuf, t.rxifg, t.oe, t.stat)) = (0x42#8, true, true, 0x20#8) := by decide
/-- RX-1: the body under DECLARED. -/
theorem test_rxIsr_latch :
    (next? (exec .rxIsr { act with inIsr := true, rxbuf := 0x41#8, ifg2 := 0x0B#8 })).map
      (fun t => (t.slotFull, t.slotVal, t.rxifg, t.txbuf)) = some (true, 0x41#8, false, 0x00#8) := by decide
/-- RX-14: the echo finds TXIFG = 0. -/
theorem test_rxIsr_echo_overwrite :
    (next? (exec .rxIsr
      { act with contract := .reference, inIsr := true, imu := .echo 0x42#8, ifg2 := 0x08#8 })).map State.faults =
      some [.txOverwrite 0x42#8 .isr] := by decide
/-- RX-16: a frame that lands after the body is taken after the return. -/
theorem test_arrival_after_body :
    (rxArrive 0x42#8 (inHandler .declared .ret)).returnIrq.irqReady = true := by decide
/-- RX-2: no data is −1. -/
theorem test_uartRx_sentinel :
    (next? (exec (.uartRx false) { act with slotVal := 0x41#8 })).map (fun t => (t.ret, t.slotVal, t.pc)) =
      some (0xFFFF#16, 0x41#8, 3) := by decide
/-- RX-12: under REFERENCE micro-step 1 discards the latched byte and waits. -/
theorem test_uartRx_reference :
    (next? (exec (.uartRx false)
      { act with contract := .reference, slotFull := true, slotVal := 0x41#8 })).map
      (fun t => (t.slotFull, t.slotVal, t.mu)) = some (false, 0x00#8, .rxWait) := by decide

/-! ### Faults, refusals, reset, memory -/

/-- EX-1: the word is refused and pc stays. -/
theorem test_refused_word :
    (next? (step { State.reset with prog := [0x80000000#32], sched := [.move .fg] })).map
      (fun t => (t.refused, t.pc)) = some (some .reservedOp, 0) := by decide
/-- EX-3: no agent steps after a fault. -/
theorem test_fault_stops :
    step { act with faults := [.txOverwrite 0x41#8 .fg], sched := [.move (.rxArrive 0x55#8)] } =
      .fault (.txOverwrite 0x41#8 .fg) := rfl
/-- EX-4: with a byte in the transmit path the run has not ended. -/
theorem test_ended :
    ({ act with prog := [0#32, 0#32] } : State).endedWell = true ∧
    ({ act with prog := [0#32, 0#32], ifg2 := 0x08#8 } : State).endedWell = false := by decide
/-- R15: the agents in turn, the line partner sending 0x55 all the time. -/
def inTurn (n : Nat) : Event :=
  match n % 4 with
  | 0 => .move .txe
  | 1 => .move .isr
  | 2 => .move .fg
  | _ => .move (.rxArrive 0x55#8)

/-- Taking every agent in turn is weakly fair. -/
theorem test_inTurn_fair (s : State) : WeaklyFair (fun _ => some 0x55#8) inTurn s where
  txe n := ⟨4 * n, by omega, .inl (by simp [inTurn])⟩
  isr n := ⟨4 * n + 1, by omega, .inl (by simp [inTurn, Nat.add_mod])⟩
  fg n := ⟨4 * n + 2, by omega, .inl (by simp [inTurn, Nat.add_mod])⟩
  rxe := ⟨fun k b h => by
      unfold inTurn at h
      split at h <;> cases h
      rfl,
    fun n => ⟨4 * n + 3, by omega, fun b h => .inl (by cases h; simp [inTurn, Nat.add_mod])⟩⟩

/-- With TXE never scheduled the schedule is not fair to it, since the full buffer keeps it enabled. -/
theorem test_starved_not_fair :
    ¬ FairTo .txe (fun _ => .move .isr) { act with txbuf := 0x41#8, ifg2 := 0x08#8 } := by
  intro h
  obtain ⟨k, _, h1 | h1⟩ := h 0
  · cases h1
  · have hst : ∀ k, (({ act with txbuf := 0x41#8, ifg2 := 0x08#8 } : State).after
        (fun _ => .move .isr) k) = { act with txbuf := 0x41#8, ifg2 := 0x08#8 } := by
      intro k
      induction k with
      | zero => rfl
      | succ k ih => rw [State.after_succ, ih]; rfl
    rw [hst k] at h1
    exact absurd h1 (by decide)

/-- EX-4: two of TXE's steps drain the path. -/
theorem test_drained_in_turn :
    (({ act with txbuf := 0x41#8, ifg2 := 0x08#8 } : State).after inTurn 5).drained = true := by decide

/-- R26: the six calibration addresses. -/
theorem test_cal_read : calRead 0x10F9 = some (Config.calBcs .mhz16) ∧ calRead 0x10FA = none := ⟨rfl, rfl⟩
/-- R49: a few of the register map's addresses. -/
theorem test_regmap : [Reg.ie2, .ifg2, .bcs, .txbuf].map regAddr = [0x0001, 0x0003, 0x0057, 0x0067] := by decide
/-- R71: 0x10000 is no address; admitted addresses come out in order. -/
theorem test_mem_admit :
    memAdmitAll [] [(0x0201, 0x42#8), (0x10000, 0x43#8), (0x0200, 0x41#8)] = [(0x0200, 0x41#8), (0x0201, 0x42#8)] := by
  decide

/-! ### Witnesses: each shows a state and operands that meet the hypotheses of the statement it is named after -/

theorem witness_DecodeInvertsEncode : (Instr.putch 0xFF#8).inProgram = true := by decide

theorem witness_EncodeInvertsDecode : decode 0x5000FFFF#32 = .ok (.putStr 0xFFFF#16) := by decide

/-- Both ends of the reserved `op` values; a required-zero bit next to an argument; the handler; a row. -/
theorem witness_DecoderReasonsInOrder :
    opField 0x0FFFFFFF#32 = 0x0#4 ∧ 8 ≤ (opField 0x80000000#32).toNat ∧ 8 ≤ (opField 0xFFFFFFFF#32).toNat ∧
    (opField 0x10000100#32 ≠ 0x0#4 ∧ (opField 0x10000100#32).toNat < 8 ∧
      opcodeTable.all (fun r => !r.selects 0x10000100#32) = true) ∧
    (opField 0x70000001#32 ≠ 0x0#4 ∧ (opField 0x70000001#32).toNat < 8 ∧
      opcodeTable.all (fun r => !r.selects 0x70000001#32) = true) ∧
    opcodeTable.any (fun r => r.selects 0x70000000#32) = true ∧
    opcodeTable.any (fun r => r.selects 0x6FFFFFFF#32) = false := by decide

/-- A state at the operation of the one word of its program, with the schedule given. -/
def atWord (w : Word) (e : Event) (s : State) : State := { s with pc := 0, prog := [w], sched := [e] }

theorem witness_StepPerformsOperationAtPc :
    (atWord 0x40000041#32 (.move .fg) act).atEvent (.move .fg) [] ∧
    (atWord 0x40000041#32 (.move .fg) act).atOperation (.putch 0x41#8) :=
  ⟨by decide, by decide, by decide, _, rfl, by decide⟩

theorem witness_StepDispatchesHandler :
    ({ act with sched := [.move .isr] } : State).atEvent (.move .isr) [] := by decide

theorem witness_RefusedWordStopsForeground :
    ((atWord 0x70000000#32 (.move .fg) act).atEvent (.move .fg) [] ∧ act.inIsr = false ∧
      (atWord 0x70000000#32 (.move .fg) act).refused = none ∧
      (atWord 0x70000000#32 (.move .fg) act).fetch = some 0x70000000#32 ∧
      decodeProgramWord 0x70000000#32 = .error .handlerInProgram) ∧
    ({ act with refused := some .reservedOp, sched := [.move .fg] } : State).atEvent (.move .fg) [] := by decide

theorem witness_FaultedStateHasNoStep :
    ({ act with faults := [.strWrap 0xFFFE#16 2] } : State).faults = [.strWrap 0xFFFE#16 2] ∧
    ({ act with prog := [0#32, 0#32] } : State).endedWell = true ∧
    ({ act with pc := 0, prog := [0x50000400#32], mu := .strRead 0 } : State).fgStuck = true := by decide

theorem witness_FrameFormatIsRefused :
    (let s : State := { act with ctl0 := 0x01#8 }
     s.faults = [] ∧ s.ctl0 ≠ 0x00#8 ∧ s.swrst = false ∧ s.refused = none) ∧
    ({ act with ctl0 := 0x80#8, refused := some .frameFormat } : State).refused = some .frameFormat := by decide

/-- Each register, out of reset and under reset. -/
theorem witness_OutsideWriteLosesRate :
    ∀ r : CfgReg,
      (let s : State := { act with sched := [.cfgWrite r 0x55#8] }
       s.atEvent (.cfgWrite r 0x55#8) [] ∧ s.inIsr = false ∧ s.swrst = false) ∧
      (let s : State := { State.reset with sched := [.cfgWrite r 0x03#8] }
       s.atEvent (.cfgWrite r 0x03#8) [] ∧ s.inIsr = false ∧ s.swrst = true) := by
  intro r
  cases r <;> decide

/-- The values next to the three speeds, and both ends. -/
theorem witness_SetClockUnsupportedIsNoOp :
    [0#8, 2#8, 7#8, 9#8, 15#8, 17#8, 255#8].all (fun v => v ≠ 1#8 ∧ v ≠ 8#8 ∧ v ≠ 16#8) = true := by decide

theorem witness_BaudTableRows : lookup 1#8 16#8 ≠ none := by decide

/-- One state for each micro-step; a hit and a miss at micro-step 5. -/
theorem witness_InitUartMicroSteps :
    act.mu = .idle ∧
    (∀ k : InitStep, ({ act with mu := .init k } : State).mu = .init k) ∧
    ({ act with ctl1 := 0x81#8 } : State).swrst = true ∧
    act.shift = none ∧ ({ act with shift := some ⟨0x41#8, true⟩ } : State).shift = some ⟨0x41#8, true⟩ ∧
    lookupPair 0#8 8#8 = some ⟨.b9600, .mhz8⟩ ∧ lookupPair 2#8 8#8 = none ∧ lookupPair 0#8 4#8 = none :=
  ⟨rfl, fun _ => rfl, by decide, rfl, rfl, by decide, by decide, by decide⟩

theorem witness_InitUartHit : State.reset.mu = .idle ∧ lookupPair 1#8 16#8 = some ⟨.b115200, .mhz16⟩ := by decide

theorem witness_InitUartMiss :
    act.mu = .idle ∧ lookupPair 2#8 8#8 = none ∧ lookupPair 0#8 0#8 = none ∧ lookupPair 255#8 255#8 = none := by decide

/-- INIT_UART at micro-step `k`, with the registers as its steps so far leave them. -/
def inInit (m : Move) : State :=
  { atWord 0x20000008#32 (.move m) act with
    mu := .init .s6, phase := .configuring, ctl1 := 0x81#8, ie2 := 0x00#8 }

theorem inInit_swrst (m : Move) : (inInit m).swrst = true := by
  show bit 0x81#8 0 = true
  decide

theorem inInit_lifecycle (m : Move) : LifecycleInv (inInit m) := by
  refine ⟨rfl, ?_, ⟨fun h => (nomatch h), fun h => ?_⟩, fun _ => ⟨?_, ?_, rfl, rfl⟩, fun h => ?_, fun h => (nomatch h), rfl⟩
  · show (Phase.configuring == .configuring && (0x81#8).extractLsb' 6 2 == 0b10#2) = true
    decide
  · exact nomatch (inInit_swrst m).symm.trans h
  · show bit 0x00#8 0 = false
    decide
  · show bit 0x0A#8 0 = false
    decide
  · exact nomatch (inInit_swrst m).symm.trans h

/-- INIT_UART between its steps 6 and 7, with a byte already arrived and GIE = 1. -/
def beforeStep7 : State :=
  { atWord 0x20000008#32 (.move .isr) act with mu := .init .s7, ie2 := 0x00#8, ifg2 := 0x0B#8, gie := true }

theorem beforeStep7_lifecycle : LifecycleInv beforeStep7 := by
  refine ⟨by decide, by decide, by decide, by decide, by decide, by decide, rfl⟩

/-- The last two places inside INIT_UART. -/
theorem witness_InitUartObservedAtomic :
    (∀ m ∈ [Move.isr, .txe, .rxArrive 0x41#8],
      LifecycleInv (inInit m) ∧ (inInit m).inIsr = false ∧ (inInit m).mu = .init .s6 ∧
      (inInit m).atEvent (.move m) []) ∧
    (LifecycleInv beforeStep7 ∧ beforeStep7.inIsr = false ∧ beforeStep7.mu = .init .s7 ∧
      beforeStep7.atEvent (.move .isr) []) :=
  ⟨fun m _ => ⟨inInit_lifecycle m, rfl, rfl, rfl, rfl, rfl⟩, beforeStep7_lifecycle, rfl, rfl, rfl, rfl, rfl⟩

theorem witness_InitThenUninit :
    act.mu = .idle ∧ act.os16 = false ∧ ∀ j, j < 6 → 1 ≤ j → bit act.ctl1 j = false := by decide

/-- Both waits; an accepted write, a write under reset, and a write that finds TXIFG = 0. -/
theorem witness_PutchMicroSteps :
    (act.mu = .idle ∧ act.txifg = true ∧ ({ act with ifg2 := 0x08#8 } : State).txifg = false) ∧
    (let s : State := { act with mu := .putchWrite }
     s.mu = .putchWrite ∧ s.txifg = true ∧ s.swrst = false) ∧
    (let s : State := { State.reset with mu := .putchWrite }
     s.mu = .putchWrite ∧ s.txifg = true ∧ s.swrst = true) ∧
    (let s : State := { act with mu := .putchWrite, ifg2 := 0x08#8 }
     s.mu = .putchWrite ∧ s.txifg = false) := by decide

theorem witness_OverwriteIsFault :
    (let s : State := { act with ifg2 := 0x08#8 }
     s.txifg = false ∧ { s with mu := .putchWrite }.mu = .putchWrite ∧
     { s with mu := .strWrite 0 0x41#8 }.mu = .strWrite 0 0x41#8 ∧
     { s with inIsr := true, imu := .echo 0x55#8 }.inIsr = true ∧
     { s with inIsr := true, imu := .echo 0x55#8 }.imu = .echo 0x55#8) := by decide

/-- The last address and the one past it; an unadmitted address, a terminator and a byte; both waits. -/
theorem witness_PutStrMicroSteps :
    (let s : State := { act with mem := [(0xFFFE, 0x41#8), (0xFFFF, 0x00#8)] }
     65535 < (0xFFFE#16).toNat + 2 ∧ (0xFFFE#16).toNat + 1 ≤ 65535 ∧
     memRead s.mem 0xFFFD = none ∧ memRead s.mem 0xFFFF = some 0x00#8 ∧
     memRead s.mem 0xFFFE = some 0x41#8 ∧ s.txifg = true ∧ s.swrst = false ∧
     ({ s with ctl1 := 0x81#8 } : State).swrst = true ∧
     ({ s with ifg2 := 0x08#8 } : State).txifg = false) := by decide

/-- TX-8's start state, scheduled for `cs`. -/
def stringState (mem : List Host.Cell) (n : Nat) : State :=
  { atWord 0x50000200#32 (.move .fg) act with mem := mem, sched := .move .fg :: (sendSchedule n ++ [.move .fg]) }

/-- "AB", and the empty string. -/
theorem witness_PutStrPutsSequenceOnLine :
    (let s := stringState [(0x0200, 0x41#8), (0x0201, 0x42#8), (0x0202, 0x00#8)] 2
     s.faults = [] ∧ s.ctl0 = 0x00#8 ∧ s.engineOn = true ∧ s.cfg = some ⟨.b9600, .mhz8⟩ ∧ s.osc = some .mhz8 ∧
     s.shift = none ∧ s.txifg = true ∧ s.mu = .idle ∧ s.atOperation (.putStr 0x0200#16) ∧
     memRead s.mem 0x0200 = some 0x41#8 ∧ memRead s.mem 0x0201 = some 0x42#8 ∧ memRead s.mem 0x0202 = some 0x00#8 ∧
     s.sched = .move .fg :: (sendSchedule 2 ++ .move .fg :: [])) ∧
    (let s := stringState [(0x0200, 0x00#8)] 0
     s.atOperation (.putStr 0x0200#16) ∧ memRead s.mem 0x0200 = some 0x00#8 ∧
     s.sched = .move .fg :: (sendSchedule 0 ++ .move .fg :: [])) :=
  ⟨⟨rfl, rfl, by decide, rfl, rfl, rfl, by decide, rfl, ⟨rfl, rfl, _, rfl, by decide⟩, by decide, by decide,
    by decide, rfl⟩, ⟨rfl, rfl, _, rfl, by decide⟩, by decide, rfl⟩

/-- TXBUF full and SHIFT empty, TXE's step next. -/
def txFull : State := { act with txbuf := 0x41#8, ifg2 := 0x08#8, sched := [.move .txe] }

/-- Enabled under both values of SSEL; and each reason for which it is not. -/
theorem witness_TxLoadStep :
    (txFull.atEvent (.move .txe) [] ∧ txFull.shift = none ∧ txFull.swrst = false ∧ txFull.ssel = 0b10#2 ∧
      txFull.txifg = false) ∧
    ({ txFull with ctl1 := 0xC0#8 } : State).ssel = 0b11#2 ∧ ({ txFull with ctl1 := 0x81#8 } : State).swrst = true ∧
    ({ txFull with ctl1 := 0x00#8 } : State).ssel = 0b00#2 ∧ ({ txFull with ctl1 := 0x40#8 } : State).ssel = 0b01#2 ∧
    act.txifg = true := by decide

/-- A frame in SHIFT, TXE's step next. -/
def txBusy (ok : Bool) (osc : Option Speed) : State :=
  { act with shift := some ⟨0x41#8, ok⟩, osc := osc, sched := [.move .txe] }

theorem witness_TxEmitStep :
    ((txBusy true (some .mhz8)).atEvent (.move .txe) [] ∧ (txBusy true (some .mhz8)).engineOn = true ∧
      (txBusy true (some .mhz8)).rateOk = true ∧ (txBusy true (some .mhz8)).cfg = some ⟨.b9600, .mhz8⟩ ∧
      (txBusy true (some .mhz8)).shift = some ⟨0x41#8, true⟩) ∧
    ((txBusy false (some .mhz8)).atEvent (.move .txe) [] ∧
      (txBusy false (some .mhz8)).shift = some ⟨0x41#8, false⟩) ∧
    ((txBusy true none).atEvent (.move .txe) [] ∧ (txBusy true none).rateOk = false) ∧
    (let s : State := { txBusy true none with ctl1 := 0x40#8 }
     s.atEvent (.move .txe) [] ∧ s.ssel = 0b01#2 ∧ s.swrst = false ∧ s.shift ≠ none) := by decide

theorem witness_ResetStopsTransmission :
    (let s : State := { State.reset with sched := [.move .txe] }
     s.atEvent (.move .txe) [] ∧ s.swrst = true ∧ s.ssel = 0b00#2) ∧
    (let s : State := { act with ctl1 := 0x00#8, sched := [.move .txe] }
     s.atEvent (.move .txe) [] ∧ s.swrst = false ∧ s.ssel = 0b00#2) ∧
    (txBusy true none).mu = .idle ∧ (txBusy true none).shift ≠ none ∧ act.shift = none := by decide

/-- TX_EMIT appends; a reset abort by UNINIT_UART appends. -/
theorem witness_TxlineAppendOnly :
    (∃ t, step (txBusy true (some .mhz8)) = .next t ∧ t.txline ≠ (txBusy true (some .mhz8)).txline) ∧
    (∃ t, step (atWord 0x30000000#32 (.move .fg) (txBusy true (some .mhz8))) = .next t ∧
      t.txline ≠ (txBusy true (some .mhz8)).txline) := by
  refine ⟨⟨_, rfl, by decide⟩, ⟨_, rfl, ?_⟩⟩
  show [] ++ [_] ≠ ([] : List Wire)
  exact List.cons_ne_nil _ _

/-- A load keeps, an accepted byte is added, an emission sends the oldest, a reset empties. -/
theorem witness_TransmitKeepsOrder :
    (∃ t, step txFull = .next t) ∧
    (∃ t, step { atWord 0x40000042#32 (.move .fg) act with mu := .putchWrite } = .next t ∧ t.pending = [0x42#8]) ∧
    (∃ t, step (txBusy true (some .mhz8)) = .next t ∧ t.pending = []) ∧
    (∃ t, step (atWord 0x30000000#32 (.move .fg) (txBusy true (some .mhz8))) = .next t) :=
  ⟨⟨_, rfl⟩, ⟨_, rfl, by decide⟩, ⟨_, rfl, by decide⟩, ⟨_, rfl⟩⟩

theorem witness_FrameBitsInverse : frameByte [false, true, false, false, false, false, false, true, false, true] =
    some 0x41#8 := by decide

theorem witness_ArrivalLands :
    (let s : State := { act with ifg2 := 0x0B#8, sched := [.move (.rxArrive 0x42#8)] }
     s.atEvent (.move (.rxArrive 0x42#8)) [] ∧ s.swrst = false ∧ s.ssel = 0b10#2 ∧ s.rateOk = true ∧
     s.rxifg = true ∧ act.rxifg = false ∧ ({ s with ctl1 := 0xC0#8 } : State).ssel = 0b11#2 ∧
     ({ s with ctl1 := 0x81#8 } : State).swrst = true ∧ ({ s with ctl1 := 0x00#8 } : State).ssel = 0b00#2 ∧
     ({ s with ctl1 := 0x40#8 } : State).ssel = 0b01#2) := by decide

theorem witness_InterruptEntry :
    (arrived.inIsr = false ∧ arrived.rxifg = true ∧ arrived.rxie = true ∧ arrived.gie = true) ∧
    (act.inIsr = false ∧ act.rxifg = false) ∧ ({ arrived with gie := false } : State).gie = false ∧
    ({ arrived with ie2 := 0x00#8 } : State).rxie = false ∧
    (let s : State := { arrived with inIsr := true, sched := [.move .fg] }
     s.inIsr = true ∧ s.atEvent (.move .fg) []) := by decide

theorem witness_HandlerDeclared :
    (inHandler .declared .latch).inIsr = true ∧ (inHandler .declared .latch).imu = .latch ∧
    (inHandler .declared .latch).contract = .declared := by decide

theorem witness_HandlerReference :
    (inHandler .reference .latch).inIsr = true ∧ (inHandler .reference .latch).imu = .latch ∧
    (inHandler .reference .latch).contract = .reference ∧
    (inHandler .reference (.echo 0x55#8)).imu = .echo 0x55#8 ∧
    (inHandler .reference (.echo 0x55#8)).txifg = true ∧ (inHandler .reference (.echo 0x55#8)).swrst = false ∧
    ({ inHandler .reference (.echo 0x55#8) with ctl1 := 0x81#8 } : State).swrst = true ∧
    ({ inHandler .reference (.echo 0x55#8) with ifg2 := 0x09#8 } : State).txifg = false := by decide

theorem witness_InterruptReturn :
    (inHandler .declared .ret).inIsr = true ∧ (inHandler .declared .ret).imu = .ret ∧
    (inHandler .declared .ret).saved = some ⟨2, .idle, true⟩ := by decide

theorem witness_InterruptIsTransparent :
    arrived.irqReady = true ∧ arrived.saved = none ∧ arrived.contract = .declared := by decide

theorem witness_LatchForgetsOlderByte :
    (inHandler .reference .latch).inIsr = true ∧ (inHandler .reference .latch).imu = .latch := by decide

/-- A state of UART_RX: the contract, the micro-step, and the latch. -/
def reading (c : RxContract) (r : RefWait) (m : Micro) (full : Bool) (v : Byte) : State :=
  { act with contract := c, refWait := r, mu := m, slotFull := full, slotVal := v }

/-- The latch full and empty, at the start and in the wait; the byte 0xFF among them. -/
theorem witness_UartRxDeclared :
    (reading .declared .nonzero .idle true 0xFF#8).slotFull = true ∧
    (reading .declared .nonzero .rxWait true 0x00#8).mu = .rxWait ∧
    (reading .declared .nonzero .idle false 0xFF#8).slotFull = false ∧
    (reading .declared .nonzero .rxWait false 0xFF#8).mu = .rxWait ∧
    (reading .declared .nonzero .rxWait false 0xFF#8).contract = .declared := by decide

/-- A 0x00 arrival under both values of REF_WAIT (RX-13), a nonzero one, and none. -/
theorem witness_UartRxReference :
    (reading .reference .nonzero .idle true 0x41#8).mu = .idle ∧
    ((reading .reference .nonzero .rxWait true 0x01#8).slotVal ≠ 0x00#8) ∧
    ((reading .reference .arrival .rxWait true 0x00#8).slotFull = true) ∧
    ((reading .reference .nonzero .rxWait true 0x00#8).slotVal = 0x00#8) ∧
    ((reading .reference .arrival .rxWait false 0x00#8).slotFull = false) ∧
    (reading .reference .arrival .rxWait false 0x00#8).contract = .reference := by decide

/-- P2's GETC and POLL words, with two bytes arriving and FG scheduled twice in the wait. -/
theorem witness_DeclaredReceiveSequence :
    (let s : State :=
      { act with
        gie := true, pc := 0, prog := [0x60000000#32, 0x60000000#32, 0x60000001#32]
        sched := receiveEvents 0xFF#8 ++ (.move .fg :: .move .fg :: (List.replicate 2 (.move .fg) ++
          (receiveEvents 0x00#8 ++ [.move .fg]))) }
     s.contract = .declared ∧ s.faults = [] ∧ s.refused = none ∧ s.ctl0 = 0x00#8 ∧ s.engineOn = true ∧
     s.rateOk = true ∧ s.rxie = true ∧ s.rxifg = false ∧ s.gie = true ∧ s.inIsr = false ∧ s.saved = none ∧
     s.phase = .active ∧ s.mu = .idle ∧ s.prog[s.pc]? = some 0x60000000#32 ∧
     s.prog[s.pc + 1]? = some 0x60000000#32 ∧ s.prog[s.pc + 2]? = some 0x60000001#32) := by decide

theorem act_swrst (w : Word) (e : Event) : (atWord w e act).swrst = false := by
  show bit 0x80#8 0 = false
  decide

theorem act_lifecycle (w : Word) (e : Event) : LifecycleInv (atWord w e act) := by
  refine ⟨rfl, rfl, ⟨fun _ => act_swrst w e, fun _ => rfl⟩, fun h => ?_, fun _ => ?_, fun h => (nomatch h), rfl⟩
  · exact nomatch (act_swrst w e).symm.trans h
  · show (0x80#8).extractLsb' 6 2 = 0b10#2
    decide

theorem act_interrupt (w : Word) (e : Event) : InterruptInv (atWord w e act) := by
  refine ⟨rfl, fun r h => ?_, fun h => ?_, fun h => ?_⟩
  · exact nomatch (show none = some r from h)
  · exact nomatch (show false = true from h)
  · exact nomatch (show false = true from h)

/-- INIT_UART's first micro-step from an active state. -/
theorem witness_LifecycleKept :
    (let s := atWord 0x20000008#32 (.move .fg) act
     LifecycleInv s ∧ InterruptInv s ∧ s.exclusive = true ∧ ∃ t, step s = .next t ∧ t.phase = .configuring) :=
  ⟨act_lifecycle _ _, act_interrupt _ _, rfl, _, rfl, rfl⟩

theorem witness_InterruptContextKept :
    (let s : State := { inHandler .declared .ret with sched := [.move .isr] }
     InterruptInv s ∧ ∃ t, step s = .next t ∧ t.inIsr = false) :=
  ⟨⟨rfl, fun r h => by cases h; exact ⟨rfl, rfl, rfl⟩, fun _ => rfl, fun _ _ => Or.inr rfl⟩, _, rfl, rfl⟩

theorem witness_DivisorsFollowCfg :
    (let s : State := { atWord 0x20010010#32 (.move .fg) act with mu := .init .s5 }
     DivisorInv s ∧ s.exclusive = true ∧ ∃ t, step s = .next t ∧ t.cfg = some ⟨.b115200, .mhz16⟩) :=
  ⟨fun _ h => by cases h; decide, rfl, _, rfl, rfl⟩

theorem witness_ClockFollowsSpeed :
    (let s := atWord 0x10000010#32 (.move .fg) act
     ClockInv s ∧ ∃ t, step s = .next t ∧ t.osc = some .mhz16) :=
  ⟨fun _ h => by cases h; exact ⟨rfl, rfl⟩, _, rfl, rfl⟩

theorem witness_LaunchDataKept :
    (let s := atWord 0x50000200#32 (.move .fg) { act with mem := [(0x0200, 0x41#8)] }
     memWf s.mem = true ∧ ∃ t, step s = .next t) := ⟨by decide, _, rfl⟩

theorem witness_ProgramCounterNeverBack :
    (let s := atWord 0x30000000#32 (.move .fg) act
     InterruptInv s ∧ s.pc ≤ s.prog.length ∧ ∃ t, step s = .next t ∧ t.pc = 1) :=
  ⟨act_interrupt _ _, by decide, _, rfl, rfl⟩

theorem witness_FaultsAndRefusedSticky :
    (∃ t, step { atWord 0x40000042#32 (.move .fg) txFull with mu := .putchWrite } = .next t ∧
      t.faults = [.txOverwrite 0x42#8 .fg]) ∧
    (let s : State := { act with refused := some .reservedOp, sched := [.move .txe] }
     s.refused = some .reservedOp ∧ ∃ t, step s = .next t) := ⟨⟨_, rfl, by decide⟩, rfl, _, rfl⟩

theorem witness_ForeignBitsKept : ∃ t, step (atWord 0x30000000#32 (.move .fg) act) = .next t := ⟨_, rfl⟩

theorem witness_RetOnlyByUartRx :
    (let s := atWord 0x60000000#32 (.move .fg) act
     ∃ t, step s = .next t ∧ (t.ret ≠ s.ret ∨ t.retWritten ≠ s.retWritten)) := ⟨_, rfl, Or.inl (by decide)⟩

theorem witness_GieOnlyByApplicationAndInterrupt :
    (let s : State := { arrived with sched := [.move .isr] }
     ∃ t, step s = .next t ∧ t.gie ≠ s.gie) ∧
    (let s : State := { act with sched := [.move (.setGie true)] }
     ∃ t, step s = .next t ∧ t.gie ≠ s.gie) := ⟨⟨_, rfl, by decide⟩, ⟨_, rfl, by decide⟩⟩

theorem witness_ForegroundPreempted :
    (let s : State := { inHandler .declared .latch with sched := [.move .fg] }
     s.inIsr = true ∧ s.badFormat = false ∧ s.nextEvent.1 ≠ .move .isr ∧ ∃ t, step s = .next t) :=
  ⟨by decide, by decide, by decide, _, rfl⟩

/-- PUTCH passes its wait and is about to write. -/
theorem witness_DeclaredNeverOverwrites :
    (let s := atWord 0x40000041#32 (.move .fg) act
     s.contract = .declared ∧ InterruptInv s ∧ DeclaredWriteInv s ∧ ∃ t, step s = .next t ∧ t.mu = .putchWrite) :=
  ⟨rfl, act_interrupt _ _, fun _ _ => by decide, _, rfl, rfl⟩

theorem witness_RetIsByteOrSentinel :
    (let s := atWord 0x60000000#32 (.move .fg) act
     RetInv s ∧ ∃ t, step s = .next t ∧ t.ret = noData) := ⟨fun h => (by cases h), _, rfl, by decide⟩

theorem witness_NothingSentUnderReset :
    (let s := inInit .txe
     LifecycleInv s ∧ s.swrst = true ∧ ∃ t, step s = .next t) := ⟨inInit_lifecycle _, by decide, _, rfl⟩

end Sys2Proof.Tests
end

section
/-! PROOFS. The step as an operation's micro-step (O5, O6), the data the launch fixes (O51), and PUT_STR's run on one
fair schedule (O26). -/

namespace Sys2Proof.Machine

open Sys2Proof

/-! ### The step -/

/-- Settles O5: the event is FG's, and FG at an operation performs its micro-step. -/
theorem stepPerformsOperationAtPc : Obligations.StepPerformsOperationAtPc := by
  intro s es i ⟨hf, hb, hs⟩ ho
  have hu : ({ s with sched := es } : State).atOperation i := ho
  exact (step_of_sched hf hb hs).trans (fgStep_of_operation hu)

/-- Settles O6: the event is the interrupt context's, whose step is RX_ISR's. -/
theorem stepDispatchesHandler : Obligations.StepDispatchesHandler :=
  fun _ _ ⟨hf, hb, hs⟩ => step_of_sched hf hb hs

/-! ### What the launch fixes -/

/-- What a launch fixes and no agent may write: the memory, the program and the run's parameters (R7, R71, R107). -/
def State.launchData (s : State) : List Host.Cell × List Word × RxContract × RefWait :=
  (s.mem, s.prog, s.contract, s.refWait)

@[simp] theorem State.abortShift_launchData (s : State) : s.abortShift.launchData = s.launchData := by
  simp [State.launchData]

theorem txWrite_launchData (who : Writer) (v : Byte) (done : State → State) (s : State)
    (hd : ∀ u : State, (done u).launchData = u.launchData) :
    (txWrite who v done s).launchData = s.launchData := by
  rcases txWrite_cases who v done s with ⟨_, h⟩ | ⟨_, _, h⟩ | ⟨_, _, h | h⟩ <;> rw [h]
  · rfl
  · exact hd _
  · exact hd _
  · exact hd _

theorem waitTx_launchData (m : Micro) (s : State) : (waitTx m s).launchData = s.launchData := by
  rcases waitTx_cases m s with ⟨_, h⟩ | ⟨_, h⟩ <;>
    exact (congrArg State.launchData h :)

theorem strRead_launchData (addr : Half) (i : Nat) (s : State) : (strRead addr i s).launchData = s.launchData := by
  rcases strRead_cases addr i s with ⟨_, h⟩ | ⟨_, _, h⟩ | ⟨_, _, h⟩ | ⟨_, _, _, _, h⟩ <;>
    exact (congrArg State.launchData h :)

theorem initStep5_launchData (baud clockSpeed : Byte) (s : State) :
    (initStep5 baud clockSpeed s).launchData = s.launchData := by
  rcases initStep5_cases baud clockSpeed s with ⟨_, _, h⟩ | ⟨_, h⟩ <;>
    exact (congrArg State.launchData h :)

theorem txeStep_launchData (s : State) : (txeStep s).launchData = s.launchData := by
  rcases txeStep_cases s with ⟨_, _, _, h⟩ | ⟨_, _, _, h⟩ | ⟨_, h⟩ <;>
    exact (congrArg State.launchData h :)

theorem rxArrive_launchData (b : Byte) (s : State) : (rxArrive b s).launchData = s.launchData := by
  rcases rxArrive_cases b s with ⟨_, _, h⟩ | ⟨_, _, _, h⟩ | ⟨_, h⟩ <;>
    exact (congrArg State.launchData h :)

theorem State.returnIrq_launchData (s : State) : s.returnIrq.launchData = s.launchData := by
  unfold State.returnIrq
  split <;> rfl

/-- No operation's micro-step writes what the launch fixed. -/
theorem exec_launchData {i : Instr} {s t : State} (h : exec i s = .next t) : t.launchData = s.launchData := by
  cases i with
  | setClock speed =>
    rcases execSetClock_cases h with ⟨_, rfl⟩ | ⟨_, _, rfl⟩ <;> rfl
  | initUart baud clockSpeed =>
    rcases execInitUart_cases h with ⟨_, rfl⟩ | ⟨_, rfl⟩ | ⟨_, rfl⟩ | ⟨_, rfl⟩ | ⟨_, rfl⟩ | ⟨_, rfl⟩ | ⟨_, rfl⟩
    · rfl
    · rfl
    · rfl
    · exact initStep5_launchData baud clockSpeed s
    · rfl
    · rfl
    · exact s.abortShift_launchData
  | uninitUart =>
    rw [exec, execUninitUart_eq] at h
    cases h
    exact (s.setSsel 0b00#2).abortShift_launchData
  | putch byte =>
    rcases execPutch_cases h with ⟨_, rfl⟩ | ⟨_, rfl⟩
    · exact txWrite_launchData .fg byte State.advance s fun _ => rfl
    · exact waitTx_launchData _ s
  | putStr addr =>
    rcases execPutStr_cases h with ⟨i, _, rfl⟩ | ⟨i, c, _, rfl⟩ | ⟨i, c, _, rfl⟩ | rfl
    · exact strRead_launchData addr i s
    · exact waitTx_launchData _ s
    · exact txWrite_launchData .fg c _ s fun _ => rfl
    · rfl
  | uartRx block =>
    rcases execUartRx_cases h with ⟨_, ⟨_, rfl⟩ | ⟨_, _, rfl⟩ | ⟨_, _, _, rfl⟩ | ⟨_, _, _, rfl⟩⟩ |
      ⟨_, ⟨_, _, rfl⟩ | ⟨_, _, rfl⟩ | ⟨_, rfl⟩⟩ <;> rfl
  | rxIsr =>
    rcases execRxIsr_cases h with ⟨_, _, rfl⟩ | ⟨b, _, _, rfl⟩ | ⟨_, _, rfl⟩ | ⟨_, _, rfl⟩ | ⟨_, _, rfl⟩
    · rfl
    · exact txWrite_launchData .isr b _ s fun _ => rfl
    · exact s.returnIrq_launchData
    · rfl
    · rfl

theorem fgStep_launchData {s t : State} (h : fgStep s = .next t) : t.launchData = s.launchData := by
  rcases fgStep_cases h with ⟨_, rfl⟩ | ⟨_, _, _, rfl⟩ | ⟨_, _, _, _, _, _, rfl⟩ | ⟨_, i, _, _, _, _, h⟩
  · rfl
  · rfl
  · rfl
  · exact exec_launchData h

theorem eventStep_launchData {e : Event} {u t : State} (h : eventStep e u = .next t) :
    t.launchData = u.launchData := by
  rcases eventStep_cases h with ⟨_, h⟩ | ⟨_, h⟩ | ⟨_, rfl⟩ | ⟨b, _, rfl⟩ | ⟨on, _, rfl⟩ | ⟨r, v, _, rfl⟩
  · exact fgStep_launchData h
  · exact exec_launchData (i := .rxIsr) h
  · exact txeStep_launchData u
  · exact rxArrive_launchData b u
  · unfold appGie
    split <;> rfl
  · split
    · rfl
    · cases r <;> rfl

theorem State.nextEvent_launchData {s u : State} {e : Event} (h : s.nextEvent = (e, u)) :
    u.launchData = s.launchData := by
  rcases s.nextEvent_cases with ⟨_, _, _, hn⟩ | ⟨_, hn⟩
  · cases h.symm.trans hn
    rfl
  · cases h.symm.trans hn
    rfl

/-- No step of any agent writes what the launch fixed (R71, R88, R107). -/
theorem step_launchData {s t : State} (h : step s = .next t) : t.launchData = s.launchData := by
  obtain ⟨_, ⟨_, _, rfl⟩ | ⟨_, e, u, hn, he⟩⟩ := step_cases h
  · rfl
  · exact (eventStep_launchData he).trans (State.nextEvent_launchData hn)

/-- Settles O51: the memory itself is unchanged, so every address reads as before. -/
theorem launchDataKept : Obligations.LaunchDataKept := by
  intro s t h
  obtain ⟨hm, hp, hc, hw⟩ : t.mem = s.mem ∧ t.prog = s.prog ∧ t.contract = s.contract ∧ t.refWait = s.refWait := by
    simpa only [State.launchData, Prod.mk.injEq] using step_launchData h
  rw [hm]
  exact ⟨fun _ => rfl, id, hp, hc, hw⟩

/-! ### Runs -/

/-- A run that begins with a step to `t` goes on from `t`. -/
theorem run_succ_of_step {M : Host.Core} {s t : M.State} (h : M.step s = .next t) (n : Nat) :
    M.run (n + 1) s = M.run n t := by
  rw [Host.Core.run, h]

/-- `run_succ_of_step` for the machine of this package. -/
theorem core_run_succ {s t : State} (h : step s = .next t) (n : Nat) :
    Sys2Proof.core.run (n + 1) s = Sys2Proof.core.run n t :=
  run_succ_of_step (M := Sys2Proof.core) h n

/-! ### PUT_STR on one fair schedule -/

/-- A register bit that is 1, cleared and set again, leaves the register as it was. -/
theorem withBit_false_true {r : Byte} {i : Nat} (hi : i < 8) (h : bit r i = true) :
    withBit (withBit r i false) i true = r := by
  apply BitVec.eq_of_getLsbD_eq
  intro j _
  show bit (withBit (withBit r i false) i true) j = bit r j
  rw [bit_withBit _ _ _ _ hi, bit_withBit _ _ _ _ hi]
  split
  · subst j
    exact h.symm
  · rfl

section PutStr

variable {addr : Half} {s : State}

theorem execPutStr_of_idle (h : s.mu = .idle) : execPutStr addr s = .next { s with mu := .strRead 0 } := by
  rw [execPutStr, h]

theorem execPutStr_of_strRead {i : Nat} (h : s.mu = .strRead i) : execPutStr addr s = .next (strRead addr i s) := by
  rw [execPutStr, h]

theorem execPutStr_of_strWait {i : Nat} {v : Byte} (h : s.mu = .strWait i v) :
    execPutStr addr s = .next (waitTx (.strWrite i v) s) := by
  rw [execPutStr, h]

theorem execPutStr_of_strWrite {i : Nat} {v : Byte} (h : s.mu = .strWrite i v) :
    execPutStr addr s = .next (txWrite .fg v (fun t => { t with mu := .strRead (i + 1) }) s) := by
  rw [execPutStr, h]

end PutStr

/-- FG is at `PUT_STR addr` with the line configured as `c`, and its bytes go out as frames: nothing stops the machine,
the engine runs, and RATE_OK holds (R45, R160). -/
structure Sending (addr : Half) (c : LineCfg) (s : State) : Prop where
  noFault : s.faults = []
  ctl0 : s.ctl0 = 0x00#8
  engine : s.engineOn = true
  cfg : s.cfg = some c
  osc : s.osc = some c.clk
  atOp : s.atOperation (.putStr addr)

section Sending

variable {addr : Half} {c : LineCfg} {s : State} {es : List Event}

/-- What FG's waits and writes and TXE's steps change is no part of `Sending`. -/
theorem Sending.update (h : Sending addr c s) (b f : Byte) (sh : Option ShiftFrame) (l : List Wire) (m : Micro)
    (es : List Event) :
    Sending addr c { s with txbuf := b, ifg2 := f, shift := sh, txline := l, mu := m, sched := es } :=
  ⟨h.noFault, h.ctl0, h.engine, h.cfg, h.osc, h.atOp⟩

/-- FG's place in PUT_STR is no part of `Sending`. -/
theorem Sending.at_micro (h : Sending addr c s) (m : Micro) (es : List Event) :
    Sending addr c { s with mu := m, sched := es } :=
  h.update s.txbuf s.ifg2 s.shift s.txline m es

theorem Sending.rateOk (h : Sending addr c s) : s.rateOk = true := by
  simp [State.rateOk, h.cfg, h.osc]

theorem Sending.badFormat (h : Sending addr c s) : s.badFormat = false := by
  simp [State.badFormat, h.ctl0]

theorem Sending.swrst (h : Sending addr c s) : s.swrst = false := by
  have := h.engine
  simp only [State.engineOn, Bool.and_eq_true, Bool.not_eq_true'] at this
  exact this.1

theorem Sending.step_fg (h : Sending addr c s) (hs : s.sched = .move .fg :: es) :
    step s = execPutStr addr { s with sched := es } :=
  stepPerformsOperationAtPc s es (.putStr addr) ⟨h.noFault, h.badFormat, hs⟩ h.atOp

theorem Sending.step_txe (h : Sending addr c s) (hs : s.sched = .move .txe :: es) :
    step s = .next (txeStep { s with sched := es }) :=
  step_of_sched h.noFault h.badFormat hs

/-- PUT_STR (1) (R153). -/
theorem Sending.step_start (h : Sending addr c s) (hm : s.mu = .idle) (hs : s.sched = .move .fg :: es) :
    step s = .next { s with mu := .strRead 0, sched := es } :=
  (h.step_fg hs).trans (execPutStr_of_idle (s := { s with sched := es }) hm)

/-- PUT_STR (2) at a byte to be sent (R153). -/
theorem Sending.step_read {i : Nat} {v : Byte} (h : Sending addr c s) (hm : s.mu = .strRead i)
    (hr : memRead s.mem (addr.toNat + i) = some v) (hv : v ≠ 0x00#8) (ha : addr.toNat + i < addrSpace)
    (hs : s.sched = .move .fg :: es) : step s = .next { s with mu := .strWait i v, sched := es } := by
  rw [h.step_fg hs, execPutStr_of_strRead (s := { s with sched := es }) hm]
  simp [strRead, strAddr, ha, hr, hv]

/-- PUT_STR (2) at the terminator (R153). -/
theorem Sending.step_end {i : Nat} (h : Sending addr c s) (hm : s.mu = .strRead i)
    (hr : memRead s.mem (addr.toNat + i) = some 0x00#8) (ha : addr.toNat + i < addrSpace)
    (hs : s.sched = .move .fg :: es) : step s = .next { s with pc := s.pc + 1, mu := .idle, sched := es } := by
  rw [h.step_fg hs, execPutStr_of_strRead (s := { s with sched := es }) hm]
  simp [strRead, strAddr, ha, hr, State.advance]

/-- PUT_STR (3) where TXBUF is empty (R153). -/
theorem Sending.step_wait {i : Nat} {v : Byte} (h : Sending addr c s) (hm : s.mu = .strWait i v)
    (ht : s.txifg = true) (hs : s.sched = .move .fg :: es) :
    step s = .next { s with mu := .strWrite i v, sched := es } := by
  rw [h.step_fg hs, execPutStr_of_strWait (s := { s with sched := es }) hm]
  exact congrArg Host.Outcome.next (if_pos ht)

/-- PUT_STR (4) where TXBUF is empty: the byte is accepted (R151, R153). -/
theorem Sending.step_write {i : Nat} {v : Byte} (h : Sending addr c s) (hm : s.mu = .strWrite i v)
    (ht : s.txifg = true) (hs : s.sched = .move .fg :: es) :
    step s = .next
      { s with txbuf := v, ifg2 := withBit s.ifg2 1 false, mu := .strRead (i + 1), sched := es } := by
  rw [h.step_fg hs, execPutStr_of_strWrite (s := { s with sched := es }) hm]
  rcases txWrite_cases .fg v (fun t => { t with mu := .strRead (i + 1) }) { s with sched := es } with
    ⟨hf, _⟩ | ⟨_, _, hw⟩ | ⟨_, hf, _⟩
  · exact absurd (ht.symm.trans hf) (by decide)
  · exact congrArg Host.Outcome.next hw
  · exact absurd (h.swrst.symm.trans hf) (by decide)

/-- TX_LOAD of an undisturbed byte (R160). -/
theorem Sending.step_load (h : Sending addr c s) (hsh : s.shift = none) (ht : s.txifg = false)
    (hs : s.sched = .move .txe :: es) :
    step s = .next { s with shift := some ⟨s.txbuf, true⟩, ifg2 := withBit s.ifg2 1 true, sched := es } := by
  rw [h.step_txe hs]
  rcases txeStep_cases { s with sched := es } with ⟨f, _, hf, _⟩ | ⟨_, _, _, hl⟩ | ⟨hf | ⟨_, hf⟩, _⟩
  · exact absurd (hsh.symm.trans hf) (by simp)
  · rw [hl, txLoad, show ({ s with sched := es } : State).rateOk = true from h.rateOk]
  · exact absurd (h.engine.symm.trans hf) (by decide)
  · exact absurd (ht.symm.trans hf) (by decide)

/-- An undisturbed byte in SHIFT shows its frame at the configured baud (R161). -/
theorem Sending.wireOf (h : Sending addr c s) (v : Byte) : s.wireOf ⟨v, true⟩ = .frame v c.baud := by
  simp [State.wireOf, h.cfg, h.rateOk]

/-- TX_EMIT of an undisturbed byte (R161). -/
theorem Sending.step_emit {v : Byte} (h : Sending addr c s) (hsh : s.shift = some ⟨v, true⟩)
    (hs : s.sched = .move .txe :: es) :
    step s = .next { s with shift := none, txline := s.txline ++ [.frame v c.baud], sched := es } := by
  rw [h.step_txe hs]
  rcases txeStep_cases { s with sched := es } with ⟨f, _, hf, he⟩ | ⟨_, hf, _⟩ | ⟨hf | ⟨hf, _⟩, _⟩
  · obtain rfl : f = ⟨v, true⟩ := Option.some.inj (hf.symm.trans hsh)
    rw [he, ← h.wireOf v]
    rfl
  · exact absurd (hsh.symm.trans hf) (by simp)
  · exact absurd (h.engine.symm.trans hf) (by decide)
  · exact absurd (hsh.symm.trans hf) (by simp)

/-- FG reads, waits for and writes byte `i`, and is at the next one (R153). -/
theorem Sending.run_write {i : Nat} {v : Byte} (h : Sending addr c s) (hm : s.mu = .strRead i)
    (ht : s.txifg = true) (hr : memRead s.mem (addr.toNat + i) = some v) (hv : v ≠ 0x00#8)
    (ha : addr.toNat + i < addrSpace) (hs : s.sched = .move .fg :: .move .fg :: .move .fg :: es) (n : Nat) :
    Sys2Proof.core.run (n + 3) s = Sys2Proof.core.run n
      { s with txbuf := v, ifg2 := withBit s.ifg2 1 false, mu := .strRead (i + 1), sched := es } :=
  (core_run_succ (h.step_read hm hr hv ha hs) _).trans <|
    (core_run_succ ((h.at_micro (.strWait i v) _).step_wait rfl ht rfl) _).trans <|
      core_run_succ ((h.at_micro (.strWrite i v) _).step_write rfl ht rfl) _

/-- TXE loads and emits the byte in TXBUF, and the path is empty again (R160, R161). -/
theorem Sending.run_emit (h : Sending addr c s) (hsh : s.shift = none) (ht : s.txifg = false)
    (hs : s.sched = .move .txe :: .move .txe :: es) (n : Nat) :
    Sys2Proof.core.run (n + 2) s = Sys2Proof.core.run n
      { s with
        ifg2 := withBit s.ifg2 1 true, shift := none, txline := s.txline ++ [.frame s.txbuf c.baud], sched := es } :=
  (core_run_succ (h.step_load hsh ht hs) _).trans <|
    core_run_succ ((h.update s.txbuf _ (some ⟨s.txbuf, true⟩) s.txline s.mu _).step_emit rfl rfl) _

/-- One byte's five steps: its frame is on the line, TXIFG and SHIFT are as before, and FG is at the next byte. -/
theorem Sending.run_byte {i : Nat} {v : Byte} (h : Sending addr c s) (hm : s.mu = .strRead i)
    (hsh : s.shift = none) (ht : s.txifg = true) (hr : memRead s.mem (addr.toNat + i) = some v) (hv : v ≠ 0x00#8)
    (ha : addr.toNat + i < addrSpace)
    (hs : s.sched = .move .fg :: .move .fg :: .move .fg :: .move .txe :: .move .txe :: es) (n : Nat) :
    Sys2Proof.core.run (n + 5) s = Sys2Proof.core.run n
      { s with
        txbuf := v, txline := s.txline ++ [.frame v c.baud], mu := .strRead (i + 1), sched := es } := by
  have hfull : bit (withBit s.ifg2 1 false) 1 = false := by simp [bit_withBit]
  refine (h.run_write hm ht hr hv ha hs (n + 2)).trans
    (((h.update v (withBit s.ifg2 1 false) s.shift s.txline (.strRead (i + 1)) _).run_emit hsh hfull rfl n).trans ?_)
  rw [withBit_false_true (by decide) ht, hsh]

/-- From PUT_STR (2) at byte `i`, the rest of the sequence `cs` goes on the line and the operation ends, by induction on
the bytes still to be sent. -/
theorem Sending.run_rest (cs : List Byte) (i : Nat) (h : Sending addr c s) (hm : s.mu = .strRead i)
    (hsh : s.shift = none) (ht : s.txifg = true)
    (hr : ∀ k (hk : k < cs.length), memRead s.mem (addr.toNat + (i + k)) = some cs[k] ∧ cs[k] ≠ 0x00#8)
    (hz : memRead s.mem (addr.toNat + (i + cs.length)) = some 0x00#8)
    (ha : addr.toNat + (i + cs.length) < addrSpace)
    (hs : s.sched = sendSchedule cs.length ++ .move .fg :: es) :
    ∃ b, Sys2Proof.core.run (5 * cs.length + 1) s = .next
      { s with
        txbuf := b, txline := s.txline ++ cs.map (fun v => Wire.frame v c.baud), pc := s.pc + 1, mu := .idle,
        sched := es } := by
  induction cs generalizing s i with
  | nil =>
    refine ⟨s.txbuf, ?_⟩
    rw [List.length_nil, core_run_succ (h.step_end hm hz ha hs), List.map_nil, List.append_nil]
    rfl
  | cons v cs ih =>
    obtain ⟨hrv, hv⟩ := hr 0 (Nat.succ_pos _)
    rw [List.length_cons] at ha hz hs ⊢
    have hshift : ∀ k, i + (k + 1) = i + 1 + k := fun k => by omega
    have hrun := h.run_byte hm hsh ht hrv hv (by omega) hs (5 * cs.length + 1)
    obtain ⟨b, hb⟩ := ih (i + 1) (h.update v s.ifg2 s.shift (s.txline ++ [.frame v c.baud]) (.strRead (i + 1)) _)
      rfl hsh ht
      (fun k hk => by
        have := hr (k + 1) (Nat.succ_lt_succ hk)
        rwa [hshift] at this)
      (by rwa [hshift] at hz) (by rwa [hshift] at ha) rfl
    refine ⟨b, (hrun.trans hb).trans ?_⟩
    rw [List.append_assoc]
    rfl

end Sending

/-- Settles O26: PUT_STR's start, then the sequence from its byte 0 on. -/
theorem putStrPutsSequenceOnLine : Obligations.PutStrPutsSequenceOnLine := by
  intro cs addr c s es hf h0 he hc ho hsh ht hm hop hr hz ha hs
  have h : Sending addr c s := ⟨hf, h0, he, hc, ho, hop⟩
  have ha' : addr.toNat + (0 + cs.length) < addrSpace := by
    rw [Nat.zero_add]
    exact Nat.lt_succ_of_le ha
  obtain ⟨b, hb⟩ := (h.at_micro (.strRead 0) _).run_rest cs 0 rfl hsh ht
    (by simpa only [Nat.zero_add] using hr) (by simpa only [Nat.zero_add] using hz) ha' rfl
  exact ⟨_, (core_run_succ (h.step_start hm hs) _).trans hb, rfl, rfl, rfl, hsh, ht, hf, rfl⟩

end Sys2Proof.Machine
end

section
/-! PROOFS. One step of the machine by agent, and the frame of each operation and agent: the fields it may write. -/

namespace Sys2Proof.Machine

open Sys2Proof

/-! ### One step, by agent -/

/-- An event's step to a next state, by the agent whose step it is (R14) and what lets it act. -/
inductive AgentStep : Event → State → State → Prop where
  | fgHeld (u : State) : AgentStep (.move .fg) u u
  | fgRefused {u : State} (r : Refusal) (hi : u.inIsr = false) (hr : u.refused = none) : AgentStep (.move .fg) u (u.refuse r)
  | fgOp {u t : State} {w : Word} {i : Instr} (hi : u.inIsr = false) (hf : u.fetch = some w)
      (hd : decodeProgramWord w = .ok i) (h : exec i u = .next t) : AgentStep (.move .fg) u t
  | isr {u t : State} (h : execRxIsr u = .next t) : AgentStep (.move .isr) u t
  | txe (u : State) : AgentStep (.move .txe) u (txeStep u)
  | arrive (b : Byte) (u : State) : AgentStep (.move (.rxArrive b)) u (rxArrive b u)
  | app (on : Bool) (u : State) : AgentStep (.move (.setGie on)) u (appGie on u)
  | outside (r : CfgReg) (v : Byte) {u : State} (hi : u.inIsr = false) :
      AgentStep (.cfgWrite r v) u (u.outsideWrite r v)
  | outsideHeld (r : CfgReg) (v : Byte) (u : State) : AgentStep (.cfgWrite r v) u u

theorem agentStep_of_eventStep {e : Event} {u t : State} (h : eventStep e u = .next t) : AgentStep e u t := by
  rcases eventStep_cases h with ⟨rfl, h⟩ | ⟨rfl, h⟩ | ⟨rfl, rfl⟩ | ⟨b, rfl, rfl⟩ | ⟨on, rfl, rfl⟩ | ⟨r, v, rfl, rfl⟩
  · rcases fgStep_cases h with ⟨_, rfl⟩ | ⟨_, _, _, rfl⟩ | ⟨_, _, hi, hr, _, _, rfl⟩ | ⟨_, _, hi, _, hf, hd, h⟩
    · exact .fgHeld _
    · exact .fgHeld _
    · exact .fgRefused _ hi hr
    · exact .fgOp hi hf hd h
  · exact .isr h
  · exact .txe u
  · exact .arrive b u
  · exact .app on u
  · cases hi : u.inIsr
    · exact .outside r v hi
    · exact .outsideHeld r v u

/-- A step to a next state: no fault stands, and either the frame format is refused, or the agent of the next event acts
on the state that has passed the event, in which only the model's own two fields differ. -/
theorem step_agent {s t : State} (h : step s = .next t) :
    s.faults = [] ∧
    ((s.refused = none ∧ s.badFormat = true ∧ t = s.refuse .frameFormat) ∨
     ∃ es n, AgentStep s.nextEvent.1 { s with sched := es, draws := n } t) := by
  obtain ⟨hf, ⟨hb, hr, ht⟩ | ⟨_, e, u, hn, he⟩⟩ := step_cases h
  · exact ⟨hf, .inl ⟨hr, hb, ht⟩⟩
  · refine ⟨hf, .inr ?_⟩
    rcases s.nextEvent_cases with ⟨_, es, _, hn'⟩ | ⟨_, hn'⟩
    · cases hn.symm.trans hn'
      exact ⟨es, s.draws, hn' ▸ agentStep_of_eventStep he⟩
    · cases hn.symm.trans hn'
      exact ⟨s.sched, s.draws + 1, hn' ▸ agentStep_of_eventStep he⟩

/-- A word that decodes as a program word is not the handler's (R99). -/
theorem inProgram_of_decodeProgramWord {w : Word} {i : Instr} (h : decodeProgramWord w = .ok i) :
    i.inProgram = true := by
  unfold decodeProgramWord at h
  split at h
  · cases h
  · split at h
    · cases h; assumption
    · cases h

/-- Where the schedule holds no outside write, the next event is a move (R243). -/
theorem State.nextEvent_ne_cfgWrite {s : State} (h : s.exclusive = true) (r : CfgReg) (v : Byte) :
    s.nextEvent.1 ≠ .cfgWrite r v := by
  rcases s.nextEvent_cases with ⟨e, es, hs, hn⟩ | ⟨_, hn⟩
  · rw [hn]
    rintro rfl
    simp [State.exclusive, hs, Event.isMove] at h
  · rw [hn]
    exact nofun

/-! ### The frame of each operation and agent: the fields it may write -/

section Frames

variable {s t : State}

theorem execSetClock_frame {v : Byte} (h : exec (.setClock v) s = .next t) :
    t = { s with bcs := t.bcs, trim := t.trim, osc := t.osc, shift := t.shift, pc := t.pc, mu := t.mu } := by
  rcases execSetClock_cases h with ⟨_, rfl⟩ | ⟨_, _, rfl⟩ <;> rfl

theorem execInitUart_frame {baud clockSpeed : Byte} (h : exec (.initUart baud clockSpeed) s = .next t) :
    t = { s with
      ctl0 := t.ctl0, ctl1 := t.ctl1, br0 := t.br0, br1 := t.br1, mctl := t.mctl, oe := t.oe, ie2 := t.ie2,
      ifg2 := t.ifg2, psel := t.psel, psel2 := t.psel2, shift := t.shift, txline := t.txline, slotFull := t.slotFull,
      slotVal := t.slotVal, phase := t.phase, cfg := t.cfg, draws := t.draws, mu := t.mu, pc := t.pc } := by
  rcases execInitUart_cases h with ⟨_, rfl⟩ | ⟨_, rfl⟩ | ⟨_, rfl⟩ | ⟨_, rfl⟩ | ⟨_, rfl⟩ | ⟨_, rfl⟩ | ⟨_, rfl⟩
  · rfl
  · rfl
  · rfl
  · rcases initStep5_cases baud clockSpeed s with ⟨_, _, h5⟩ | ⟨_, h5⟩
    · rw [h5]; rfl
    · rw [h5]
  · rfl
  · rfl
  · rcases s.abortShift_cases with ⟨_, ha⟩ | ⟨_, _, _, _, ha⟩ <;>
      (simp only [initStep1, State.setSwrst, ha]; rfl)

theorem execUninitUart_frame (h : exec .uninitUart s = .next t) :
    t = { s with
      ctl0 := t.ctl0, ctl1 := t.ctl1, mctl := t.mctl, oe := t.oe, ie2 := t.ie2, ifg2 := t.ifg2, shift := t.shift,
      txline := t.txline, phase := t.phase, cfg := t.cfg, draws := t.draws, mu := t.mu, pc := t.pc } := by
  rw [exec, execUninitUart_eq] at h
  cases h
  rcases (s.setSsel 0b00#2).abortShift_cases with ⟨_, ha⟩ | ⟨_, _, _, _, ha⟩ <;>
    (simp only [uninitWrites, State.setSwrst, ha]; rfl)

/-- A write of TXBUF faults, or what follows it acts on a state in which at most TXBUF, TXIFG and the count of free
values have changed (R150, R151). -/
theorem txWrite_frame (who : Writer) (v : Byte) (done : State → State) (s : State) :
    txWrite who v done s = s.raise (.txOverwrite v who) ∨
    ∃ b f n, (f = s.ifg2 ∨ f = withBit s.ifg2 1 false) ∧
      txWrite who v done s = done { s with txbuf := b, ifg2 := f, draws := n } := by
  rcases txWrite_cases who v done s with ⟨_, h⟩ | ⟨_, _, h⟩ | ⟨_, _, h | h⟩
  · exact .inl h
  · exact .inr ⟨v, _, s.draws, .inr rfl, h⟩
  · exact .inr ⟨v, _, s.draws + 1, .inr rfl, h⟩
  · exact .inr ⟨s.txbuf, _, s.draws + 1, .inl rfl, h⟩

/-- PUTCH and PUT_STR write TXBUF, clear at most TXIFG, record at most one fault, and move FG. -/
structure Transmits (s t : State) : Prop where
  frame : t = { s with
    txbuf := t.txbuf, ifg2 := t.ifg2, draws := t.draws, faults := t.faults, mu := t.mu, pc := t.pc }
  ifg2 : t.ifg2 = s.ifg2 ∨ t.ifg2 = withBit s.ifg2 1 false
  faults : t.faults = s.faults ∨ ∃ f, t.faults = s.faults ++ [f]

/-- FG's moves in its operation are a case of `Transmits`. -/
theorem Transmits.place (s : State) (k : Nat) (m : Micro) : Transmits s { s with pc := k, mu := m } :=
  ⟨rfl, .inl rfl, .inl rfl⟩

theorem waitTx_transmits (m : Micro) (s : State) : Transmits s (waitTx m s) := by
  rcases waitTx_cases m s with ⟨_, h⟩ | ⟨_, h⟩ <;> rw [h]
  · exact .place s s.pc m
  · exact .place s s.pc s.mu

/-- TXWRITE by FG, with FG's next place after it. -/
theorem txWrite_transmits (v : Byte) (k : Nat) (m : Micro) {done : State → State}
    (hd : ∀ b f n, done { s with txbuf := b, ifg2 := f, draws := n } =
      { s with txbuf := b, ifg2 := f, draws := n, pc := k, mu := m }) : Transmits s (txWrite .fg v done s) := by
  rcases txWrite_frame .fg v done s with h | ⟨b, f, n, hf, h⟩ <;> rw [h]
  · exact ⟨rfl, .inl rfl, .inr ⟨_, rfl⟩⟩
  · rw [hd]
    exact ⟨rfl, hf, .inl rfl⟩

theorem execPutch_transmits {v : Byte} (h : exec (.putch v) s = .next t) : Transmits s t := by
  rcases execPutch_cases h with ⟨_, rfl⟩ | ⟨_, rfl⟩
  · exact txWrite_transmits v (s.pc + 1) .idle fun _ _ _ => rfl
  · exact waitTx_transmits _ s

theorem execPutStr_transmits {addr : Half} (h : exec (.putStr addr) s = .next t) : Transmits s t := by
  rcases execPutStr_cases h with ⟨i, _, rfl⟩ | ⟨i, c, _, rfl⟩ | ⟨i, c, _, rfl⟩ | rfl
  · rcases strRead_cases addr i s with ⟨_, hr⟩ | ⟨_, _, hr⟩ | ⟨_, _, hr⟩ | ⟨c, _, _, _, hr⟩ <;> rw [hr]
    · exact ⟨rfl, .inl rfl, .inr ⟨_, rfl⟩⟩
    · exact .place s s.pc s.mu
    · exact .place s (s.pc + 1) .idle
    · exact .place s s.pc (.strWait i c)
  · exact waitTx_transmits _ s
  · exact txWrite_transmits c s.pc (.strRead (i + 1)) fun _ _ _ => rfl
  · exact .place s s.pc (.strRead 0)

theorem execUartRx_frame {block : Bool} (h : exec (.uartRx block) s = .next t) :
    t = { s with
      slotFull := t.slotFull, slotVal := t.slotVal, ret := t.ret, retWritten := t.retWritten, mu := t.mu,
      pc := t.pc } := by
  rcases execUartRx_cases h with ⟨_, ⟨_, rfl⟩ | ⟨_, _, rfl⟩ | ⟨_, _, _, rfl⟩ | ⟨_, _, _, rfl⟩⟩ |
    ⟨_, ⟨_, _, rfl⟩ | ⟨_, _, rfl⟩ | ⟨_, rfl⟩⟩ <;> rfl

/-- What no operation of a program writes: the interrupt context and GIE, the received byte, REFUSED, and what a launch
fixes. -/
theorem exec_frame {i : Instr} (hi : i.inProgram = true) (h : exec i s = .next t) :
    t = { t with
      gie := s.gie, inIsr := s.inIsr, saved := s.saved, imu := s.imu, rxbuf := s.rxbuf, refused := s.refused,
      prog := s.prog, mem := s.mem, contract := s.contract, refWait := s.refWait, sched := s.sched } := by
  cases i with
  | setClock v => rw [execSetClock_frame h]
  | initUart b c => rw [execInitUart_frame h]
  | uninitUart => rw [execUninitUart_frame h]
  | putch v => rw [(execPutch_transmits h).frame]
  | putStr a => rw [(execPutStr_transmits h).frame]
  | uartRx block => rw [execUartRx_frame h]
  | rxIsr => cases hi

/-- RX_ISR outside the handler is the entry or nothing; in it, the body writes the latch, IFG2 and TXBUF and may record
a fault, and the return gives FG its place and GIE. -/
theorem execRxIsr_frame (h : execRxIsr s = .next t) :
    t = { s with
      ifg2 := t.ifg2, txbuf := t.txbuf, slotFull := t.slotFull, slotVal := t.slotVal, imu := t.imu,
      draws := t.draws, faults := t.faults, gie := t.gie, inIsr := t.inIsr, saved := t.saved, mu := t.mu,
      pc := t.pc } := by
  rcases execRxIsr_cases h with ⟨_, _, rfl⟩ | ⟨b, _, _, rfl⟩ | ⟨_, _, rfl⟩ | ⟨_, _, rfl⟩ | ⟨_, _, rfl⟩
  · rfl
  · unfold isrEcho
    rcases txWrite_frame .isr b (fun t => { t with imu := .ret }) s with h | ⟨b, f, n, _, h⟩
    · rw [h]; rfl
    · rw [h]
  · unfold State.returnIrq
    split <;> rfl
  · rfl
  · rfl

theorem txeStep_frame (s : State) :
    txeStep s = { s with shift := (txeStep s).shift, txline := (txeStep s).txline, ifg2 := (txeStep s).ifg2 } := by
  rcases txeStep_cases s with ⟨_, _, _, h⟩ | ⟨_, _, _, h⟩ | ⟨_, h⟩
  · rw [h]; rfl
  · rw [h]; rfl
  · rw [h]

theorem rxArrive_frame (b : Byte) (s : State) :
    rxArrive b s = { s with
      oe := (rxArrive b s).oe, rxbuf := (rxArrive b s).rxbuf, ifg2 := (rxArrive b s).ifg2,
      draws := (rxArrive b s).draws } := by
  rcases rxArrive_cases b s with ⟨_, _, h⟩ | ⟨_, _, _, h⟩ | ⟨_, h⟩
  · rw [h]; rfl
  · rw [h]; rfl
  · rw [h]

theorem appGie_frame (on : Bool) (s : State) : appGie on s = { s with gie := (appGie on s).gie } := by
  unfold appGie
  split <;> rfl

theorem State.outsideWrite_frame (r : CfgReg) (v : Byte) (s : State) :
    s.outsideWrite r v = { s with
      ctl0 := (s.outsideWrite r v).ctl0, ctl1 := (s.outsideWrite r v).ctl1, br0 := (s.outsideWrite r v).br0,
      br1 := (s.outsideWrite r v).br1, mctl := (s.outsideWrite r v).mctl, cfg := (s.outsideWrite r v).cfg } := by
  cases r <;> rfl

/-- An agent's step is FG's micro-step of the operation at pc, or RX_ISR's step, or changes at most REFUSED, GIE, the line
configuration and what the engines write. -/
theorem AgentStep.operation_or_frame {e : Event} (ha : AgentStep e s t) :
    (e = .move .fg ∧ ∃ w i, s.fetch = some w ∧ decodeProgramWord w = .ok i ∧ i.inProgram = true ∧
      exec i s = .next t) ∨
    (e = .move .isr ∧ execRxIsr s = .next t) ∨
    t = { s with
      refused := t.refused, gie := t.gie, ctl0 := t.ctl0, ctl1 := t.ctl1, br0 := t.br0, br1 := t.br1, mctl := t.mctl,
      cfg := t.cfg, shift := t.shift, txline := t.txline, ifg2 := t.ifg2, oe := t.oe, rxbuf := t.rxbuf,
      draws := t.draws } := by
  cases ha with
  | fgHeld => exact .inr (.inr rfl)
  | fgRefused => exact .inr (.inr rfl)
  | fgOp _ hf hd hx => exact .inl ⟨rfl, _, _, hf, hd, inProgram_of_decodeProgramWord hd, hx⟩
  | isr hx => exact .inr (.inl ⟨rfl, hx⟩)
  | txe => exact .inr (.inr (by rw [txeStep_frame]))
  | arrive b => exact .inr (.inr (by rw [rxArrive_frame]))
  | app on => exact .inr (.inr (by rw [appGie_frame]))
  | outside r v => exact .inr (.inr (by rw [State.outsideWrite_frame]))
  | outsideHeld => exact .inr (.inr rfl)

end Frames

end Sys2Proof.Machine
end

section
/-! PROOFS. FG's place in its program, and the life of the peripheral (O47, O19). -/

namespace Sys2Proof.Machine

open Sys2Proof

/-! ### FG's place -/

section Place

variable {s t : State} {i : Instr}

/-- FG's place in its operation after a micro-step: it goes on to the next operation, stays, or is at a micro-step of the
same operation (R22). -/
def Moves (i : Instr) (s t : State) : Prop :=
  (t.pc = s.pc + 1 ∧ t.mu = .idle) ∨ (t.pc = s.pc ∧ (t.mu = s.mu ∨ t.mu.fits i = true))

theorem Moves.advance {i : Instr} (hp : t.pc = s.pc + 1) (hm : t.mu = .idle) : Moves i s t := .inl ⟨hp, hm⟩

theorem Moves.stay {i : Instr} (hp : t.pc = s.pc) (hm : t.mu = s.mu) : Moves i s t := .inr ⟨hp, .inl hm⟩

theorem Moves.within {i : Instr} (hp : t.pc = s.pc) (hm : t.mu.fits i = true) : Moves i s t := .inr ⟨hp, .inr hm⟩

theorem waitTx_moves {m : Micro} (hm : m.fits i = true) (s : State) : Moves i s (waitTx m s) := by
  rcases waitTx_cases m s with ⟨_, h⟩ | ⟨_, h⟩ <;> rw [h]
  · exact .within rfl hm
  · exact .stay rfl rfl

theorem txWrite_moves (v : Byte) {done : State → State}
    (hd : ∀ b f n, Moves i s (done { s with txbuf := b, ifg2 := f, draws := n })) :
    Moves i s (txWrite .fg v done s) := by
  rcases txWrite_frame .fg v done s with h | ⟨b, f, n, _, h⟩ <;> rw [h]
  · exact .stay rfl rfl
  · exact hd b f n

theorem execInitUart_moves {b c : Byte} (h : exec (.initUart b c) s = .next t) : Moves (.initUart b c) s t := by
  rcases execInitUart_cases h with ⟨_, rfl⟩ | ⟨_, rfl⟩ | ⟨_, rfl⟩ | ⟨_, rfl⟩ | ⟨_, rfl⟩ | ⟨_, rfl⟩ | ⟨_, rfl⟩
  · exact .within rfl rfl
  · exact .within rfl rfl
  · exact .within rfl rfl
  · rcases initStep5_cases b c s with ⟨_, _, h5⟩ | ⟨_, h5⟩ <;> rw [h5] <;> exact .within rfl rfl
  · exact .within rfl rfl
  · exact .advance rfl rfl
  · exact .within s.abortShift_pc rfl

theorem execPutStr_moves {addr : Half} (h : exec (.putStr addr) s = .next t) : Moves (.putStr addr) s t := by
  rcases execPutStr_cases h with ⟨i, _, rfl⟩ | ⟨i, c, _, rfl⟩ | ⟨i, c, _, rfl⟩ | rfl
  · rcases strRead_cases addr i s with ⟨_, hr⟩ | ⟨_, _, hr⟩ | ⟨_, _, hr⟩ | ⟨c, _, _, _, hr⟩ <;> rw [hr]
    · exact .stay rfl rfl
    · exact .stay rfl rfl
    · exact .advance rfl rfl
    · exact .within rfl rfl
  · exact waitTx_moves rfl s
  · exact txWrite_moves c fun _ _ _ => .within rfl rfl
  · exact .within rfl rfl

/-- Every operation of a program moves FG by its own micro-steps or to the next operation. -/
theorem exec_moves (hi : i.inProgram = true) (h : exec i s = .next t) : Moves i s t := by
  cases i with
  | setClock v => rcases execSetClock_cases h with ⟨_, rfl⟩ | ⟨_, _, rfl⟩ <;> exact .advance rfl rfl
  | initUart b c => exact execInitUart_moves h
  | uninitUart =>
    rw [exec, execUninitUart_eq] at h
    cases h
    exact .advance (congrArg (· + 1) (s.setSsel 0b00#2).abortShift_pc) rfl
  | putch v =>
    rcases execPutch_cases h with ⟨_, rfl⟩ | ⟨_, rfl⟩
    · exact txWrite_moves v fun _ _ _ => .advance rfl rfl
    · exact waitTx_moves rfl s
  | putStr addr => exact execPutStr_moves h
  | uartRx block =>
    rcases execUartRx_cases h with ⟨_, ⟨_, rfl⟩ | ⟨_, _, rfl⟩ | ⟨_, _, _, rfl⟩ | ⟨_, _, _, rfl⟩⟩ |
      ⟨_, ⟨_, _, rfl⟩ | ⟨_, _, rfl⟩ | ⟨_, rfl⟩⟩
    · exact .advance rfl rfl
    · exact .stay rfl rfl
    · exact .within rfl rfl
    · exact .advance rfl rfl
    · exact .advance rfl rfl
    · exact .stay rfl rfl
    · exact .within rfl rfl
  | rxIsr => cases hi

/-- Under the interrupt invariant RX_ISR leaves FG where it is: the return gives FG the place it has (R219). -/
theorem execRxIsr_keeps_place (hv : InterruptInv s) (h : execRxIsr s = .next t) : t.pc = s.pc ∧ t.mu = s.mu := by
  obtain ⟨_, hsaved, _⟩ := hv
  rcases execRxIsr_cases h with ⟨_, _, rfl⟩ | ⟨b, _, _, rfl⟩ | ⟨_, _, rfl⟩ | ⟨_, _, rfl⟩ | ⟨_, _, rfl⟩
  · exact ⟨rfl, rfl⟩
  · unfold isrEcho
    rcases txWrite_frame .isr b (fun t => { t with imu := .ret }) s with h | ⟨b, f, n, _, h⟩ <;> rw [h] <;>
      exact ⟨rfl, rfl⟩
  · unfold State.returnIrq
    split
    · exact ⟨rfl, rfl⟩
    · rename_i r hr
      obtain ⟨hp, hm, _⟩ := hsaved r hr
      exact ⟨hp, hm⟩
  · exact ⟨rfl, rfl⟩
  · exact ⟨rfl, rfl⟩

end Place

/-! ### The life of the peripheral -/

section Lifecycle

variable {s t : State} {w : Word} {i : Instr} {k : InitStep}

/-- At an operation, `mu` is one of its micro-steps exactly where the state's check says so. -/
theorem State.muFits_iff (hf : s.fetch = some w) (hd : decodeProgramWord w = .ok i) :
    s.muFits = true ↔ s.mu.fits i = true := by
  unfold State.muFits
  rw [hf]
  simp only [hd, Bool.or_eq_true, beq_iff_eq, or_iff_right_iff_imp]
  intro h
  rw [h]
  rfl

theorem State.muFits_of_idle (h : s.mu = .idle) : s.muFits = true := by
  simp [State.muFits, h]

theorem State.muFits_congr (hp : t.pc = s.pc) (hm : t.mu = s.mu) (hg : t.prog = s.prog) : t.muFits = s.muFits := by
  unfold State.muFits State.fetch
  rw [hp, hm, hg]

/-- A move of FG at its operation keeps `mu` a micro-step of the operation at `pc`. -/
theorem Moves.muFits (h : Moves i s t) (hg : t.prog = s.prog) (hf : s.fetch = some w)
    (hd : decodeProgramWord w = .ok i) (hs : s.muFits = true) : t.muFits = true := by
  rcases h with ⟨_, hm⟩ | ⟨hp, hm⟩
  · exact State.muFits_of_idle hm
  · have hft : t.fetch = some w := by
      unfold State.fetch
      rw [hg, hp]
      exact hf
    rw [State.muFits_iff hft hd]
    rcases hm with hm | hm
    · rw [hm]
      exact (State.muFits_iff hf hd).mp hs
    · exact hm

/-- Only INIT_UART has micro-steps of INIT_UART. -/
theorem Micro.ne_init_of_fits {m : Micro} (h : m.fits i = true) (hi : ∀ b c, i ≠ .initUart b c) (k : InitStep) :
    m ≠ .init k := by
  rintro rfl
  cases i with
  | initUart b c => exact hi b c rfl
  | _ => cases h

/-- What R39 says of a peripheral under reset. -/
def State.Quiet (s : State) : Prop := s.rxie = false ∧ s.rxifg = false ∧ s.oe = false ∧ s.shift = none

/-- Outside INIT_UART, PHASE is not Configuring (R44). -/
theorem State.phaseFits_iff_of_ne_init (h : ∀ k, s.mu ≠ .init k) : s.phaseFits = true ↔ s.phase ≠ .configuring := by
  unfold State.phaseFits
  split <;> simp_all

/-- INIT_UART before its micro-step 2 to 6: PHASE is Configuring, and from step 2 on the source is SMCLK (R44, R127). -/
theorem State.phaseFits_iff_of_init (hm : s.mu = .init k) (hk : k ≠ .s7) :
    s.phaseFits = true ↔ s.phase = .configuring ∧ (k ≠ .s2 → s.ssel = 0b10#2) := by
  unfold State.phaseFits
  rw [hm]
  cases k <;> simp_all

/-- INIT_UART before its micro-step 7: PHASE is Active (R44). -/
theorem State.phaseFits_iff_of_init_s7 (hm : s.mu = .init .s7) : s.phaseFits = true ↔ s.phase = .active := by
  unfold State.phaseFits
  rw [hm]
  simp

theorem State.phaseFits_congr (hm : t.mu = s.mu) (hp : t.phase = s.phase) (h1 : t.ctl1 = s.ctl1) :
    t.phaseFits = s.phaseFits := by
  unfold State.phaseFits State.ssel
  rw [hm, hp, h1]

/-- Before INIT_UART's micro-steps 2 to 6 the peripheral is held in reset, and from step 2 on the source is SMCLK. -/
theorem LifecycleInv.configuring (h : LifecycleInv s) (hm : s.mu = .init k) (hk : k ≠ .s7) :
    s.phase = .configuring ∧ s.swrst = true ∧ s.Quiet ∧ (k ≠ .s2 → s.ssel = 0b10#2) := by
  obtain ⟨_, hphase, hactive, hquiet, _⟩ := h
  obtain ⟨hp, hl⟩ := (State.phaseFits_iff_of_init hm hk).mp hphase
  have hr : s.swrst = true := by
    cases hs : s.swrst
    · exact absurd (hactive.mpr hs) (by simp [hp])
    · rfl
  exact ⟨hp, hr, hquiet hr, hl⟩

/-- Held in reset before one of INIT_UART's micro-steps 2 to 6, the peripheral meets the lifecycle invariant. -/
theorem lifecycleInv_of_configuring (hm : s.mu = .init k) (hk : k ≠ .s7) (hfit : s.muFits = true)
    (hp : s.phase = .configuring) (hr : s.swrst = true) (hq : s.Quiet) (h0 : s.ctl0 = 0x00#8)
    (hl : k ≠ .s2 → s.ssel = 0b10#2) : LifecycleInv s := by
  refine ⟨hfit, (State.phaseFits_iff_of_init hm hk).mpr ⟨hp, hl⟩, ?_, fun _ => hq, ?_, ?_, h0⟩
  · simp [hp, hr]
  · simp [hr]
  · intro h7
    cases hm.symm.trans h7
    exact absurd rfl hk

/-- The registers and flags of the lifecycle invariant that only INIT_UART, UNINIT_UART and an arrival write. -/
def State.lifeRegs (s : State) : Phase × Byte × Byte × Byte × Bool := (s.phase, s.ctl0, s.ctl1, s.ie2, s.oe)

/-- A step that leaves the lifecycle's registers as they are, and under reset sets no RXIFG and fills no SHIFT, keeps the
lifecycle invariant, where FG stays or moves outside INIT_UART. -/
theorem LifecycleInv.carry (h : LifecycleInv s) (hfit : t.muFits = true)
    (hplace : t.mu = s.mu ∨ (∀ k, s.mu ≠ .init k) ∧ ∀ k, t.mu ≠ .init k) (hregs : t.lifeRegs = s.lifeRegs)
    (hifg : s.rxifg = false → t.rxifg = false) (hsh : s.shift = none → t.shift = none) : LifecycleInv t := by
  obtain ⟨_, hphase, hactive, hquiet, hssel, hs7, hctl0⟩ := h
  obtain ⟨hp, h0, h1, hie, hoe⟩ :
      t.phase = s.phase ∧ t.ctl0 = s.ctl0 ∧ t.ctl1 = s.ctl1 ∧ t.ie2 = s.ie2 ∧ t.oe = s.oe := by
    simpa only [State.lifeRegs, Prod.mk.injEq] using hregs
  have hr : t.swrst = s.swrst := congrArg (bit · 0) h1
  have hsel : t.ssel = s.ssel := congrArg (BitVec.extractLsb' 6 2) h1
  have hrxie : t.rxie = s.rxie := congrArg (bit · 0) hie
  refine ⟨hfit, ?_, ?_, ?_, ?_, ?_, h0.trans hctl0⟩
  · rcases hplace with hm | ⟨hs, ht⟩
    · rw [State.phaseFits_congr hm hp h1]
      exact hphase
    · rw [State.phaseFits_iff_of_ne_init ht, hp]
      exact (State.phaseFits_iff_of_ne_init hs).mp hphase
  · rw [hp, hr]
    exact hactive
  · rw [hr, hrxie, hoe]
    intro hs
    obtain ⟨hq1, hq2, hq3, hq4⟩ := hquiet hs
    exact ⟨hq1, hifg hq2, hq3, hsh hq4⟩
  · rw [hr, hsel]
    exact hssel
  · rw [hrxie]
    rcases hplace with hm | ⟨_, ht⟩
    · rw [hm]
      exact hs7
    · exact fun h7 => absurd h7 (ht .s7)

theorem State.setSwrst_quiet (s : State) : s.setSwrst.Quiet :=
  ⟨s.setSwrst_rxie, s.setSwrst_rxifg, rfl, s.setSwrst_shift⟩

theorem Transmits.rxifg (h : Transmits s t) : t.rxifg = s.rxifg := by
  unfold State.rxifg
  rcases h.ifg2 with h | h <;> rw [h]
  simp [bit_withBit]

theorem Transmits.lifecycle (ht : Transmits s t) (h : LifecycleInv s) (hfit : t.muFits = true)
    (hplace : t.mu = s.mu ∨ (∀ k, s.mu ≠ .init k) ∧ ∀ k, t.mu ≠ .init k) : LifecycleInv t :=
  h.carry hfit hplace (congrArg State.lifeRegs ht.frame :) ht.rxifg.trans (congrArg State.shift ht.frame :).trans

/-- The handler never sets RXIFG (R186). -/
theorem execRxIsr_rxifg (h : execRxIsr s = .next t) (hs : s.rxifg = false) : t.rxifg = false := by
  rcases execRxIsr_cases h with ⟨_, _, rfl⟩ | ⟨b, _, _, rfl⟩ | ⟨_, _, rfl⟩ | ⟨_, _, rfl⟩ | ⟨_, _, rfl⟩
  · exact s.readRxbuf_rxifg
  · unfold isrEcho
    rcases txWrite_frame .isr b (fun t => { t with imu := .ret }) s with h | ⟨b, f, n, rfl | rfl, h⟩ <;> rw [h]
    · exact hs
    · exact hs
    · exact (s.storeTxbuf_rxifg b).trans hs
  · unfold State.returnIrq
    split <;> exact hs
  · exact hs
  · exact hs

/-- Under reset the engines are off (R160, R180). -/
theorem State.engineOn_of_swrst (h : s.swrst = true) : s.engineOn = false := by
  simp [State.engineOn, h]

theorem txeStep_of_swrst (h : s.swrst = true) : txeStep s = s := by
  simp [txeStep, State.engineOn_of_swrst h]

theorem rxArrive_of_swrst (b : Byte) (h : s.swrst = true) : rxArrive b s = s := by
  simp [rxArrive, State.engineOn_of_swrst h]

/-! #### INIT_UART and UNINIT_UART -/

theorem initStep1_lifecycle (h : LifecycleInv s) (hfit : (initStep1 s).muFits = true) :
    LifecycleInv (initStep1 s) := by
  obtain ⟨_, _, _, _, _, _, h0⟩ := h
  exact lifecycleInv_of_configuring (k := .s2) rfl (by decide) hfit rfl s.setSwrst_swrst s.setSwrst_quiet
    (s.setSwrst_ctl0.trans h0) (fun hk => absurd rfl hk)

theorem execInitUart_lifecycle {b c : Byte} (h : LifecycleInv s) (hx : exec (.initUart b c) s = .next t)
    (hfit : t.muFits = true) : LifecycleInv t := by
  have h0 : s.ctl0 = 0x00#8 := by
    obtain ⟨_, _, _, _, _, _, h0⟩ := h
    exact h0
  rcases execInitUart_cases hx with ⟨hm, rfl⟩ | ⟨hm, rfl⟩ | ⟨hm, rfl⟩ | ⟨hm, rfl⟩ | ⟨hm, rfl⟩ | ⟨hm, rfl⟩ | ⟨hm, rfl⟩
  · obtain ⟨hp, hr, hq, _⟩ := h.configuring hm (by decide)
    exact lifecycleInv_of_configuring (k := .s3) rfl (by decide) hfit hp ((s.setSsel_swrst _).trans hr) hq h0
      fun _ => s.setSsel_ssel _
  · obtain ⟨hp, hr, hq, hl⟩ := h.configuring hm (by decide)
    exact lifecycleInv_of_configuring (k := .s4) rfl (by decide) hfit hp hr hq rfl fun _ => hl (by decide)
  · obtain ⟨hp, hr, hq, hl⟩ := h.configuring hm (by decide)
    exact lifecycleInv_of_configuring (k := .s5) rfl (by decide) hfit hp hr hq h0 fun _ => hl (by decide)
  · obtain ⟨hp, hr, hq, hl⟩ := h.configuring hm (by decide)
    rcases initStep5_cases b c s with ⟨_, _, h5⟩ | ⟨_, h5⟩ <;> rw [h5] at hfit ⊢ <;>
      exact lifecycleInv_of_configuring (k := .s6) rfl (by decide) hfit hp hr hq h0 fun _ => hl (by decide)
  · obtain ⟨_, _, ⟨hrxie, _⟩, hl⟩ := h.configuring hm (by decide)
    have hr : (initStep6 s).swrst = false := s.clearSwrst_swrst
    refine ⟨hfit, rfl, ⟨fun _ => hr, fun _ => rfl⟩, fun hr' => absurd (hr.symm.trans hr') (by decide), fun _ => ?_,
      fun _ => hrxie, h0⟩
    exact s.clearSwrst_ssel.trans (hl (by decide))
  · obtain ⟨_, hphase, hactive, _, hssel, _, _⟩ := h
    have hp : s.phase = .active := (State.phaseFits_iff_of_init_s7 hm).mp hphase
    have hr : s.swrst = false := hactive.mp hp
    have hidle : (initStep7 s).mu = .idle := rfl
    refine ⟨hfit, ?_, hactive, fun hr' => absurd (hr.symm.trans hr') (by decide), hssel, nofun, h0⟩
    rw [State.phaseFits_iff_of_ne_init (by simp [hidle])]
    exact fun hc => absurd (hp.symm.trans hc) (by decide)
  · exact initStep1_lifecycle h hfit

theorem execUninitUart_lifecycle (hx : exec .uninitUart s = .next t) : LifecycleInv t := by
  rw [exec, execUninitUart_eq] at hx
  cases hx
  have hr : (s.setSsel 0b00#2).setSwrst.swrst = true := State.setSwrst_swrst _
  refine ⟨rfl, rfl, ⟨nofun, fun hr' => absurd (hr.symm.trans hr') (by decide)⟩, fun _ => State.setSwrst_quiet _,
    fun hr' => absurd (hr.symm.trans hr') (by decide), nofun, rfl⟩

/-- Every operation of a program keeps the lifecycle invariant. -/
theorem exec_lifecycle (h : LifecycleInv s) (hf : s.fetch = some w) (hd : decodeProgramWord w = .ok i)
    (hx : exec i s = .next t) : LifecycleInv t := by
  have hi := inProgram_of_decodeProgramWord hd
  obtain ⟨hfits, _⟩ := id h
  have hmoves := exec_moves hi hx
  have hfit : t.muFits = true := hmoves.muFits (congrArg State.prog (exec_frame hi hx) :) hf hd hfits
  have hplace (hne : ∀ b c, i ≠ .initUart b c) : t.mu = s.mu ∨ (∀ k, s.mu ≠ .init k) ∧ ∀ k, t.mu ≠ .init k := by
    have hs := Micro.ne_init_of_fits ((State.muFits_iff hf hd).mp hfits) hne
    rcases hmoves with ⟨_, hm⟩ | ⟨_, hm | hm⟩
    · exact .inr ⟨hs, by simp [hm]⟩
    · exact .inl hm
    · exact .inr ⟨hs, Micro.ne_init_of_fits hm hne⟩
  cases i with
  | initUart b c => exact execInitUart_lifecycle h hx hfit
  | uninitUart => exact execUninitUart_lifecycle hx
  | setClock v =>
    have ht := execSetClock_frame hx
    exact h.carry hfit (hplace nofun) (congrArg State.lifeRegs ht :) (congrArg State.rxifg ht :).trans
      (exec_shift_none hx)
  | putch v => exact (execPutch_transmits hx).lifecycle h hfit (hplace nofun)
  | putStr addr => exact (execPutStr_transmits hx).lifecycle h hfit (hplace nofun)
  | uartRx block =>
    have ht := execUartRx_frame hx
    exact h.carry hfit (hplace nofun) (congrArg State.lifeRegs ht :) (congrArg State.rxifg ht :).trans
      (congrArg State.shift ht :).trans
  | rxIsr => cases hi

/-- RX_ISR keeps the lifecycle invariant: FG's place is restored (R219). -/
theorem execRxIsr_lifecycle (h : LifecycleInv s) (hv : InterruptInv s) (hx : execRxIsr s = .next t) :
    LifecycleInv t := by
  have ht := execRxIsr_frame hx
  obtain ⟨hp, hm⟩ := execRxIsr_keeps_place hv hx
  have hfit : t.muFits = s.muFits := State.muFits_congr hp hm (congrArg State.prog ht :)
  obtain ⟨hfits, _⟩ := id h
  exact h.carry (hfit.trans hfits) (.inl hm) (congrArg State.lifeRegs ht :) (execRxIsr_rxifg hx)
    (congrArg State.shift ht :).trans

/-- The engines keep the lifecycle invariant: under reset they do nothing, and else they write none of its registers but
OE. -/
theorem LifecycleInv.engines {f : Byte} {o : Bool} {b : Byte} {sh : Option ShiftFrame} {l : List Wire} {n : Nat}
    (h : LifecycleInv s) (hr : s.swrst = false) :
    LifecycleInv { s with ifg2 := f, oe := o, rxbuf := b, shift := sh, txline := l, draws := n } := by
  obtain ⟨hfit, hphase, hactive, _, hssel, hs7, h0⟩ := h
  exact ⟨hfit, hphase, hactive, fun hr' => absurd (hr.symm.trans hr') (by decide), hssel, hs7, h0⟩

theorem txeStep_lifecycle (h : LifecycleInv s) : LifecycleInv (txeStep s) := by
  cases hr : s.swrst
  · rw [txeStep_frame]
    exact h.engines hr
  · rw [txeStep_of_swrst hr]
    exact h

theorem rxArrive_lifecycle (b : Byte) (h : LifecycleInv s) : LifecycleInv (rxArrive b s) := by
  cases hr : s.swrst
  · rw [rxArrive_frame]
    exact h.engines hr
  · rw [rxArrive_of_swrst b hr]
    exact h

/-- Every agent of the block keeps the lifecycle invariant. -/
theorem AgentStep.lifecycle {e : Event} (ha : AgentStep e s t) (h : LifecycleInv s) (hv : InterruptInv s)
    (he : ∀ r v, e ≠ .cfgWrite r v) : LifecycleInv t := by
  cases ha with
  | fgHeld => exact h
  | fgRefused => exact h
  | fgOp _ hf hd hx => exact exec_lifecycle h hf hd hx
  | isr hx => exact execRxIsr_lifecycle h hv hx
  | txe => exact txeStep_lifecycle h
  | arrive b => exact rxArrive_lifecycle b h
  | app on =>
    rw [appGie_frame]
    exact h
  | outside r v => exact absurd rfl (he r v)
  | outsideHeld => exact h

end Lifecycle

/-- Settles O47: each agent keeps the lifecycle invariant, and no outside write comes. -/
theorem lifecycleKept : Obligations.LifecycleKept := by
  intro s t hlife hint hexcl h
  obtain ⟨_, ⟨_, _, rfl⟩ | ⟨_, _, ha⟩⟩ := step_agent h
  · exact hlife
  · exact ha.lifecycle hlife hint (State.nextEvent_ne_cfgWrite hexcl)

/-- Settles O19: before its steps 2 to 6 the peripheral is in reset, where the engines are off and RXIFG is 0, and before
step 7 RXIE is still 0. -/
theorem initUartObservedAtomic : Obligations.InitUartObservedAtomic := by
  intro s es k m hlife hi hm hmove ⟨hf, hb, hs⟩
  rw [step_of_sched hf hb hs]
  have hirq : s.irqReady = false := by
    by_cases hk : k = .s7
    · obtain ⟨_, _, _, _, _, hs7, _⟩ := hlife
      simp [State.irqReady, hs7 (hk ▸ hm)]
    · obtain ⟨_, _, ⟨hrxie, _⟩, _⟩ := hlife.configuring hm hk
      simp [State.irqReady, hrxie]
  rcases hmove with rfl | ⟨hk, hmove⟩
  · show execRxIsr { s with sched := es } = _
    obtain ⟨t, ht⟩ := exec_next .rxIsr { s with sched := es }
    rcases execRxIsr_cases ht with ⟨h, _⟩ | ⟨_, h, _⟩ | ⟨h, _⟩ | ⟨_, h, _⟩ | ⟨_, _, rfl⟩
    · exact absurd (hi.symm.trans h) (by decide)
    · exact absurd (hi.symm.trans h) (by decide)
    · exact absurd (hi.symm.trans h) (by decide)
    · exact absurd (hirq.symm.trans h) (by decide)
    · exact ht
  · obtain ⟨_, hr, _⟩ := hlife.configuring hm hk
    rcases hmove with rfl | ⟨b, rfl⟩
    · exact congrArg Host.Outcome.next (txeStep_of_swrst (s := { s with sched := es }) hr)
    · exact congrArg Host.Outcome.next (rxArrive_of_swrst (s := { s with sched := es }) b hr)

end Sys2Proof.Machine
end

section
/-! PROOFS. The line under reset (O60), the divisor and clock registers (O49, O50), and the interrupt context (O48). -/

namespace Sys2Proof.Machine

open Sys2Proof

section Invariants

variable {s t : State} {e : Event} {i : Instr}

/-! ### The line under reset -/

theorem State.abortShift_of_shift_none (h : s.shift = none) : s.abortShift = s := by
  rcases s.abortShift_cases with ⟨_, h'⟩ | ⟨f, w, h', _⟩
  · exact h'
  · exact absurd (h.symm.trans h') (by simp)

theorem State.setSwrst_txline_of_shift_none (h : s.shift = none) : s.setSwrst.txline = s.txline :=
  (congrArg State.txline (State.abortShift_of_shift_none h) :)

/-- Where SHIFT is empty there is nothing to abort, and no operation puts anything on the line (R162). -/
theorem exec_txline_of_shift_none (hi : i.inProgram = true) (h : exec i s = .next t) (hn : s.shift = none) :
    t.txline = s.txline := by
  cases i with
  | setClock v => exact (congrArg State.txline (execSetClock_frame h) :)
  | initUart b c =>
    rcases execInitUart_cases h with ⟨_, rfl⟩ | ⟨_, rfl⟩ | ⟨_, rfl⟩ | ⟨_, rfl⟩ | ⟨_, rfl⟩ | ⟨_, rfl⟩ | ⟨_, rfl⟩
    · rfl
    · rfl
    · rfl
    · rcases initStep5_cases b c s with ⟨_, _, h5⟩ | ⟨_, h5⟩ <;> exact (congrArg State.txline h5 :)
    · rfl
    · rfl
    · exact State.setSwrst_txline_of_shift_none hn
  | uninitUart =>
    rw [exec, execUninitUart_eq] at h
    cases h
    exact State.setSwrst_txline_of_shift_none (s := s.setSsel 0b00#2) hn
  | putch v => exact (congrArg State.txline (execPutch_transmits h).frame :)
  | putStr a => exact (congrArg State.txline (execPutStr_transmits h).frame :)
  | uartRx block => exact (congrArg State.txline (execUartRx_frame h) :)
  | rxIsr => cases hi

/-- Under reset with SHIFT empty no agent puts anything on the line. -/
theorem AgentStep.txline_under_reset (ha : AgentStep e s t) (hr : s.swrst = true) (hn : s.shift = none) :
    t.txline = s.txline := by
  cases ha with
  | fgHeld => rfl
  | fgRefused => rfl
  | fgOp _ _ hd hx => exact exec_txline_of_shift_none (inProgram_of_decodeProgramWord hd) hx hn
  | isr hx => exact (congrArg State.txline (execRxIsr_frame hx) :)
  | txe => rw [txeStep_of_swrst hr]
  | arrive b => rw [rxArrive_of_swrst b hr]
  | app on => exact (congrArg State.txline (appGie_frame on s) :)
  | outside r v => exact (congrArg State.txline (State.outsideWrite_frame r v s) :)
  | outsideHeld => rfl

/-! ### The divisor registers and CFG -/

/-- What `DivisorInv` speaks of. -/
def State.divisorRegs (s : State) : Option LineCfg × Byte × Byte × Byte := (s.cfg, s.br0, s.br1, s.mctl)

theorem DivisorInv.of_regs_eq (h : DivisorInv s) (ht : t.divisorRegs = s.divisorRegs) : DivisorInv t := by
  obtain ⟨hc, h0, h1, hm⟩ : t.cfg = s.cfg ∧ t.br0 = s.br0 ∧ t.br1 = s.br1 ∧ t.mctl = s.mctl := by
    simpa only [State.divisorRegs, Prod.mk.injEq] using ht
  unfold DivisorInv State.brs State.brf State.os16
  rw [hc, h0, h1, hm]
  exact h

theorem divisorInv_of_cfg_none (h : s.cfg = none) : DivisorInv s :=
  fun _ hc => nomatch h.symm.trans hc

/-- The byte written to MCTL holds the row's modulation values, with OS16 = 0 (R122). -/
theorem mctlByte_fields (d : Divisors) :
    (mctlByte d).extractLsb' 1 3 = d.mod2 ∧ (mctlByte d).extractLsb' 4 4 = d.mod1 ∧ bit (mctlByte d) 0 = false := by
  refine ⟨?_, ?_, ?_⟩
  · apply BitVec.eq_of_getLsbD_eq
    intro j hj
    have : j = 0 ∨ j = 1 ∨ j = 2 := by omega
    rcases this with rfl | rfl | rfl <;> simp [mctlByte]
  · apply BitVec.eq_of_getLsbD_eq
    intro j hj
    have : j = 0 ∨ j = 1 ∨ j = 2 ∨ j = 3 := by omega
    rcases this with rfl | rfl | rfl | rfl <;> simp [mctlByte]
  · simp [mctlByte, bit]

/-- INIT_UART's step 5 writes the row and CFG together, or makes CFG none (R124, R130). -/
theorem initStep5_divisorInv (b c : Byte) (s : State) : DivisorInv (initStep5 b c s) := by
  rcases initStep5_cases b c s with ⟨p, _, h5⟩ | ⟨_, h5⟩ <;> rw [h5]
  · intro q hq
    cases hq
    exact ⟨rfl, rfl, mctlByte_fields _⟩
  · exact divisorInv_of_cfg_none rfl

/-- INIT_UART's step 3 writes CTL0, after which CFG is kept or none (R39). -/
theorem initStep3_divisorInv (h : DivisorInv s) : DivisorInv (initStep3 s) := by
  cases hr : s.swrst
  · exact divisorInv_of_cfg_none (by simp [initStep3, State.writeCtl0, State.cfgAfterWrite, hr])
  · exact h.of_regs_eq (by simp [initStep3, State.writeCtl0, State.cfgAfterWrite, State.divisorRegs, hr])

/-- Every operation of a program keeps the divisor invariant. -/
theorem exec_divisorInv (hi : i.inProgram = true) (hx : exec i s = .next t) (h : DivisorInv s) : DivisorInv t := by
  cases i with
  | setClock v => exact h.of_regs_eq (congrArg State.divisorRegs (execSetClock_frame hx) :)
  | initUart b c =>
    rcases execInitUart_cases hx with ⟨_, rfl⟩ | ⟨_, rfl⟩ | ⟨_, rfl⟩ | ⟨_, rfl⟩ | ⟨_, rfl⟩ | ⟨_, rfl⟩ | ⟨_, rfl⟩
    · exact h
    · exact initStep3_divisorInv h
    · exact h
    · exact initStep5_divisorInv b c s
    · exact h
    · exact h
    · exact h.of_regs_eq (by simp [State.divisorRegs, initStep1])
  | uninitUart =>
    rw [exec, execUninitUart_eq] at hx
    cases hx
    exact divisorInv_of_cfg_none rfl
  | putch v => exact h.of_regs_eq (congrArg State.divisorRegs (execPutch_transmits hx).frame :)
  | putStr a => exact h.of_regs_eq (congrArg State.divisorRegs (execPutStr_transmits hx).frame :)
  | uartRx block => exact h.of_regs_eq (congrArg State.divisorRegs (execUartRx_frame hx) :)
  | rxIsr => cases hi

/-- Every agent of the block keeps the divisor invariant. -/
theorem AgentStep.divisorInv (ha : AgentStep e s t) (h : DivisorInv s) (he : ∀ r v, e ≠ .cfgWrite r v) :
    DivisorInv t := by
  cases ha with
  | fgHeld => exact h
  | fgRefused => exact h
  | fgOp _ _ hd hx => exact exec_divisorInv (inProgram_of_decodeProgramWord hd) hx h
  | isr hx => exact h.of_regs_eq (congrArg State.divisorRegs (execRxIsr_frame hx) :)
  | txe => exact h.of_regs_eq (congrArg State.divisorRegs (txeStep_frame s) :)
  | arrive b => exact h.of_regs_eq (congrArg State.divisorRegs (rxArrive_frame b s) :)
  | app on => exact h.of_regs_eq (congrArg State.divisorRegs (appGie_frame on s) :)
  | outside r v => exact absurd rfl (he r v)
  | outsideHeld => exact h

/-! ### The clock registers -/

/-- What `ClockInv` speaks of. -/
def State.clockRegs (s : State) : Option Speed × Byte × Byte := (s.osc, s.bcs, s.trim)

theorem ClockInv.of_regs_eq (h : ClockInv s) (ht : t.clockRegs = s.clockRegs) : ClockInv t := by
  obtain ⟨ho, hb, hm⟩ : t.osc = s.osc ∧ t.bcs = s.bcs ∧ t.trim = s.trim := by
    simpa only [State.clockRegs, Prod.mk.injEq] using ht
  unfold ClockInv
  rw [ho, hb, hm]
  exact h

theorem State.calibrate_clockInv (k : Speed) (s : State) : ClockInv ((s.calibrate k).disturbShift.advance) := by
  intro k' hk
  cases hk
  exact ⟨rfl, rfl⟩

/-- Of a program's operations SET_CLOCK alone writes the clock registers, all three together (R110). -/
theorem exec_clockInv (hi : i.inProgram = true) (hx : exec i s = .next t) (h : ClockInv s) : ClockInv t := by
  cases i with
  | setClock v =>
    rcases execSetClock_cases hx with ⟨_, rfl⟩ | ⟨k, _, rfl⟩
    · exact h
    · exact s.calibrate_clockInv k
  | initUart b c => exact h.of_regs_eq (congrArg State.clockRegs (execInitUart_frame hx) :)
  | uninitUart => exact h.of_regs_eq (congrArg State.clockRegs (execUninitUart_frame hx) :)
  | putch v => exact h.of_regs_eq (congrArg State.clockRegs (execPutch_transmits hx).frame :)
  | putStr a => exact h.of_regs_eq (congrArg State.clockRegs (execPutStr_transmits hx).frame :)
  | uartRx block => exact h.of_regs_eq (congrArg State.clockRegs (execUartRx_frame hx) :)
  | rxIsr => cases hi

theorem AgentStep.clockInv (ha : AgentStep e s t) (h : ClockInv s) : ClockInv t := by
  rcases ha.operation_or_frame with ⟨_, _, _, _, _, hi, hx⟩ | ⟨_, hx⟩ | ht
  · exact exec_clockInv hi hx h
  · exact h.of_regs_eq (congrArg State.clockRegs (execRxIsr_frame hx) :)
  · exact h.of_regs_eq (congrArg State.clockRegs ht :)

/-! ### The interrupt context -/

/-- Outside the handler the interrupt invariant says that nothing is saved. -/
theorem interruptInv_of_not_inIsr (hi : s.inIsr = false) (hn : s.saved = none) : InterruptInv s :=
  ⟨by simp [hi, hn], by simp [hn], by simp [hi], by simp [hi]⟩

theorem InterruptInv.saved_none (h : InterruptInv s) (hi : s.inIsr = false) : s.saved = none := by
  obtain ⟨hs, _⟩ := h
  simpa [hi] using hs

theorem enterIrq_interruptInv (h : s.irqReady = true) : InterruptInv s.enterIrq := by
  refine ⟨rfl, fun r hr => ?_, fun _ => rfl, fun _ _ => .inl rfl⟩
  cases hr
  obtain ⟨⟨_, hg⟩, _⟩ : (_ ∧ s.gie = true) ∧ _ := by
    simpa only [State.irqReady, Bool.and_eq_true] using h
  exact ⟨rfl, rfl, hg⟩

/-- RX_ISR keeps the interrupt invariant: entry saves, the body goes on to an echo only under REFERENCE, and the return
empties SAVED. -/
theorem execRxIsr_interruptInv (hx : execRxIsr s = .next t) (h : InterruptInv s) : InterruptInv t := by
  obtain ⟨hs, hsaved, hgie, himu⟩ := id h
  rcases execRxIsr_cases hx with ⟨_, _, rfl⟩ | ⟨b, _, _, rfl⟩ | ⟨hi, _, rfl⟩ | ⟨_, hq, rfl⟩ | ⟨_, _, rfl⟩
  · refine ⟨hs, hsaved, hgie, fun _ hc => .inr ?_⟩
    have hc' : s.contract = .declared := hc
    simp [isrLatch, hc']
  · unfold isrEcho
    rcases txWrite_frame .isr b (fun t => { t with imu := .ret }) s with hw | ⟨_, _, _, _, hw⟩ <;> rw [hw]
    · exact h
    · exact ⟨hs, hsaved, hgie, fun _ _ => .inr rfl⟩
  · unfold State.returnIrq
    split
    · exact h
    · exact interruptInv_of_not_inIsr rfl rfl
  · exact enterIrq_interruptInv hq
  · exact h

theorem AgentStep.interruptInv (ha : AgentStep e s t) (h : InterruptInv s) : InterruptInv t := by
  cases ha with
  | fgHeld => exact h
  | fgRefused => exact h
  | fgOp hi _ hd hx =>
    have ht := exec_frame (inProgram_of_decodeProgramWord hd) hx
    exact interruptInv_of_not_inIsr ((congrArg State.inIsr ht :).trans hi)
      ((congrArg State.saved ht :).trans (h.saved_none hi))
  | isr hx => exact execRxIsr_interruptInv hx h
  | txe =>
    rw [txeStep_frame]
    exact h
  | arrive b =>
    rw [rxArrive_frame]
    exact h
  | app on =>
    unfold appGie
    split
    · exact h
    · have hi : s.inIsr = false := by simpa using ‹¬ s.inIsr = true›
      exact interruptInv_of_not_inIsr hi (h.saved_none hi)
  | outside r v =>
    rw [State.outsideWrite_frame]
    exact h
  | outsideHeld => exact h

end Invariants

/-- Settles O60: under reset SHIFT is empty and the engines are off, so there is nothing to abort or to send. -/
theorem nothingSentUnderReset : Obligations.NothingSentUnderReset := by
  intro s t hlife hr h
  obtain ⟨_, _, _, hquiet, _⟩ := hlife
  obtain ⟨_, _, _, hsh⟩ := hquiet hr
  obtain ⟨_, ⟨_, _, rfl⟩ | ⟨_, _, ha⟩⟩ := step_agent h
  · rfl
  · exact ha.txline_under_reset hr hsh

/-- Settles O49: INIT_UART's step 5 alone writes the row and CFG, both together. -/
theorem divisorsFollowCfg : Obligations.DivisorsFollowCfg := by
  intro s t hdiv hexcl h
  obtain ⟨_, ⟨_, _, rfl⟩ | ⟨_, _, ha⟩⟩ := step_agent h
  · exact hdiv
  · exact ha.divisorInv hdiv (State.nextEvent_ne_cfgWrite hexcl)

/-- Settles O50: SET_CLOCK alone writes the clock registers and the oscillator's speed, all together. -/
theorem clockFollowsSpeed : Obligations.ClockFollowsSpeed := by
  intro s t hclock h
  obtain ⟨_, ⟨_, _, rfl⟩ | ⟨_, _, ha⟩⟩ := step_agent h
  · exact hclock
  · exact ha.clockInv hclock

/-- Settles O48: in the handler only RX_ISR acts on the context, and outside it nothing is saved. -/
theorem interruptContextKept : Obligations.InterruptContextKept := by
  intro s t hint h
  obtain ⟨_, ⟨_, _, rfl⟩ | ⟨_, _, ha⟩⟩ := step_agent h
  · exact hint
  · exact ha.interruptInv hint

end Sys2Proof.Machine
end

section
/-! PROOFS. Who may write which piece of state (O52 to O57), the refusals and outside writes (O7, O9, O10), and reset
(O43, O44, O46). -/

namespace Sys2Proof.Machine

open Sys2Proof

section Frames

variable {s t : State} {e : Event} {i : Instr}

/-! ### Bits the block does not own -/

/-- TXIE, and the bits of the shared registers that other modules own (R34, R35, R38, R49). -/
def State.foreignBits (s : State) : Bool × Byte × Byte × Byte × Byte :=
  (s.txie, s.ie2 &&& ~~~regOwned .ie2, s.ifg2 &&& ~~~regOwned .ifg2, s.psel &&& ~~~regOwned .psel,
    s.psel2 &&& ~~~regOwned .psel2)

/-- A write of an owned bit leaves the bits outside the mask as they are (R77). -/
theorem withBit_and_not (r : Byte) {i : Nat} (b : Bool) {mask : Byte} (hi : i < 8) (hm : bit mask i = true) :
    withBit r i b &&& ~~~mask = r &&& ~~~mask := by
  apply BitVec.eq_of_getLsbD_eq
  intro j hj
  have h : (withBit r i b).getLsbD j = if j = i then b else r.getLsbD j := bit_withBit r i j b hi
  rw [BitVec.getLsbD_and, BitVec.getLsbD_and, h]
  split
  · subst j
    have hm' : mask.getLsbD i = true := hm
    simp [hm']
  · rfl

theorem State.foreignBits_ifg2 (s : State) (i : Nat) (b : Bool) (hi : i < 2) :
    { s with ifg2 := withBit s.ifg2 i b }.foreignBits = s.foreignBits := by
  have hm : bit (regOwned .ifg2) i = true := by
    have : i = 0 ∨ i = 1 := by omega
    rcases this with rfl | rfl <;> decide
  unfold State.foreignBits
  rw [withBit_and_not s.ifg2 b (by omega) hm]
  rfl

theorem State.foreignBits_rxie (s : State) (b : Bool) :
    { s with ie2 := withBit s.ie2 0 b }.foreignBits = s.foreignBits := by
  have htxie : { s with ie2 := withBit s.ie2 0 b }.txie = s.txie := bit_withBit s.ie2 0 1 b (by decide)
  unfold State.foreignBits
  rw [htxie, withBit_and_not s.ie2 b (by decide) (by decide)]

theorem State.setSwrst_foreignBits (s : State) : s.setSwrst.foreignBits = s.foreignBits := by
  have h : s.setSwrst.foreignBits =
      { s with ie2 := withBit s.ie2 0 false, ifg2 := withBit (withBit s.ifg2 0 false) 1 true }.foreignBits := by
    simp [State.foreignBits, State.txie]
  exact h.trans ((State.foreignBits_ifg2 _ 1 true (by decide)).trans
    ((State.foreignBits_ifg2 _ 0 false (by decide)).trans (s.foreignBits_rxie false)))

theorem State.selectPins_foreignBits (s : State) : s.selectPins.foreignBits = s.foreignBits := by
  have h (r : Byte) : withBit (withBit r Config.rxPin true) Config.txPin true &&& ~~~regOwned .psel =
      r &&& ~~~regOwned .psel := by
    rw [withBit_and_not _ _ (by decide) (by decide), withBit_and_not _ _ (by decide) (by decide)]
  simp only [State.foreignBits, State.selectPins]
  rw [h s.psel]
  exact congrArg (fun x => (_, _, _, _, x)) (h s.psel2)

theorem Transmits.foreignBits (h : Transmits s t) : t.foreignBits = s.foreignBits := by
  have ht : t.foreignBits = { s with ifg2 := t.ifg2 }.foreignBits := (congrArg State.foreignBits h.frame :)
  rcases h.ifg2 with hf | hf <;> rw [ht, hf]
  exact s.foreignBits_ifg2 1 false (by decide)

theorem execInitUart_foreignBits {b c : Byte} (h : exec (.initUart b c) s = .next t) :
    t.foreignBits = s.foreignBits := by
  rcases execInitUart_cases h with ⟨_, rfl⟩ | ⟨_, rfl⟩ | ⟨_, rfl⟩ | ⟨_, rfl⟩ | ⟨_, rfl⟩ | ⟨_, rfl⟩ | ⟨_, rfl⟩
  · rfl
  · rfl
  · exact s.selectPins_foreignBits
  · rcases initStep5_cases b c s with ⟨_, _, h5⟩ | ⟨_, h5⟩ <;> exact (congrArg State.foreignBits h5 :)
  · rfl
  · exact s.foreignBits_rxie true
  · exact s.setSwrst_foreignBits

theorem exec_foreignBits (hi : i.inProgram = true) (hx : exec i s = .next t) : t.foreignBits = s.foreignBits := by
  cases i with
  | setClock v => exact (congrArg State.foreignBits (execSetClock_frame hx) :)
  | initUart b c => exact execInitUart_foreignBits hx
  | uninitUart =>
    rw [exec, execUninitUart_eq] at hx
    cases hx
    exact (s.setSsel 0b00#2).setSwrst_foreignBits
  | putch v => exact (execPutch_transmits hx).foreignBits
  | putStr a => exact (execPutStr_transmits hx).foreignBits
  | uartRx block => exact (congrArg State.foreignBits (execUartRx_frame hx) :)
  | rxIsr => cases hi

theorem execRxIsr_foreignBits (hx : execRxIsr s = .next t) : t.foreignBits = s.foreignBits := by
  rcases execRxIsr_cases hx with ⟨_, _, rfl⟩ | ⟨b, _, _, rfl⟩ | ⟨_, _, rfl⟩ | ⟨_, _, rfl⟩ | ⟨_, _, rfl⟩
  · exact s.foreignBits_ifg2 0 false (by decide)
  · unfold isrEcho
    rcases txWrite_frame .isr b (fun t => { t with imu := .ret }) s with hw | ⟨_, _, _, rfl | rfl, hw⟩ <;> rw [hw]
    · rfl
    · rfl
    · exact s.foreignBits_ifg2 1 false (by decide)
  · unfold State.returnIrq
    split <;> rfl
  · rfl
  · rfl

theorem txeStep_foreignBits (s : State) : (txeStep s).foreignBits = s.foreignBits := by
  rcases txeStep_cases s with ⟨_, _, _, h⟩ | ⟨_, _, _, h⟩ | ⟨_, h⟩ <;> rw [h]
  · rfl
  · exact s.foreignBits_ifg2 1 true (by decide)

theorem rxArrive_foreignBits (b : Byte) (s : State) : (rxArrive b s).foreignBits = s.foreignBits := by
  rcases rxArrive_cases b s with ⟨_, _, h⟩ | ⟨_, _, _, h⟩ | ⟨_, h⟩ <;> rw [h]
  · exact s.foreignBits_ifg2 0 true (by decide)
  · exact s.foreignBits_ifg2 0 true (by decide)

/-- No agent writes a bit the block does not own. -/
theorem AgentStep.foreignBits (ha : AgentStep e s t) : t.foreignBits = s.foreignBits := by
  cases ha with
  | fgHeld => rfl
  | fgRefused => rfl
  | fgOp _ _ hd hx => exact exec_foreignBits (inProgram_of_decodeProgramWord hd) hx
  | isr hx => exact execRxIsr_foreignBits hx
  | txe => exact txeStep_foreignBits s
  | arrive b => exact rxArrive_foreignBits b s
  | app on => exact (congrArg State.foreignBits (appGie_frame on s) :)
  | outside r v => exact (congrArg State.foreignBits (State.outsideWrite_frame r v s) :)
  | outsideHeld => rfl

/-! ### FAULTS, REFUSED, ret, GIE and pc -/

/-- A program's operation records at most one fault, a transmission's (R212). -/
theorem exec_faults (hi : i.inProgram = true) (hx : exec i s = .next t) :
    t.faults = s.faults ∨ ∃ f, t.faults = s.faults ++ [f] := by
  cases i with
  | setClock v => exact .inl (congrArg State.faults (execSetClock_frame hx) :)
  | initUart b c => exact .inl (congrArg State.faults (execInitUart_frame hx) :)
  | uninitUart => exact .inl (congrArg State.faults (execUninitUart_frame hx) :)
  | putch v => exact (execPutch_transmits hx).faults
  | putStr a => exact (execPutStr_transmits hx).faults
  | uartRx block => exact .inl (congrArg State.faults (execUartRx_frame hx) :)
  | rxIsr => cases hi

theorem execRxIsr_faults (hx : execRxIsr s = .next t) : t.faults = s.faults ∨ ∃ f, t.faults = s.faults ++ [f] := by
  rcases execRxIsr_cases hx with ⟨_, _, rfl⟩ | ⟨b, _, _, rfl⟩ | ⟨_, _, rfl⟩ | ⟨_, _, rfl⟩ | ⟨_, _, rfl⟩
  · exact .inl rfl
  · unfold isrEcho
    rcases txWrite_frame .isr b (fun t => { t with imu := .ret }) s with hw | ⟨_, _, _, _, hw⟩ <;> rw [hw]
    · exact .inr ⟨_, rfl⟩
    · exact .inl rfl
  · unfold State.returnIrq
    split <;> exact .inl rfl
  · exact .inl rfl
  · exact .inl rfl

/-- An agent records at most one fault (R211). -/
theorem AgentStep.faults (ha : AgentStep e s t) : t.faults = s.faults ∨ ∃ f, t.faults = s.faults ++ [f] := by
  rcases ha.operation_or_frame with ⟨_, _, _, _, _, hi, hx⟩ | ⟨_, hx⟩ | ht
  · exact exec_faults hi hx
  · exact execRxIsr_faults hx
  · exact .inl (congrArg State.faults ht :)

/-- FG alone sets REFUSED, and only where it is not set (R100). -/
theorem AgentStep.refused {q : Refusal} (ha : AgentStep e s t) (hq : s.refused = some q) : t.refused = some q := by
  cases ha with
  | fgHeld => exact hq
  | fgRefused _ _ hr => exact nomatch hr.symm.trans hq
  | fgOp _ _ hd hx => exact (congrArg State.refused (exec_frame (inProgram_of_decodeProgramWord hd) hx) :).trans hq
  | isr hx => exact (congrArg State.refused (execRxIsr_frame hx) :).trans hq
  | txe => exact (congrArg State.refused (txeStep_frame s) :).trans hq
  | arrive b => exact (congrArg State.refused (rxArrive_frame b s) :).trans hq
  | app on => exact (congrArg State.refused (appGie_frame on s) :).trans hq
  | outside r v => exact (congrArg State.refused (State.outsideWrite_frame r v s) :).trans hq
  | outsideHeld => exact hq

/-- The result register with its mark that it holds a value (R21). -/
def State.result (s : State) : Half × Bool := (s.ret, s.retWritten)

/-- Of a program's operations UART_RX alone writes the result (R21). -/
theorem exec_result (hi : i.inProgram = true) (hx : exec i s = .next t) :
    t.result = s.result ∨ ∃ block, i = .uartRx block := by
  cases i with
  | setClock v => exact .inl (congrArg State.result (execSetClock_frame hx) :)
  | initUart b c => exact .inl (congrArg State.result (execInitUart_frame hx) :)
  | uninitUart => exact .inl (congrArg State.result (execUninitUart_frame hx) :)
  | putch v => exact .inl (congrArg State.result (execPutch_transmits hx).frame :)
  | putStr a => exact .inl (congrArg State.result (execPutStr_transmits hx).frame :)
  | uartRx block => exact .inr ⟨block, rfl⟩
  | rxIsr => cases hi

theorem AgentStep.result (ha : AgentStep e s t) :
    t.result = s.result ∨
      (e = .move .fg ∧ ∃ w block, s.fetch = some w ∧ decodeProgramWord w = .ok (.uartRx block)) := by
  rcases ha.operation_or_frame with ⟨he, w, _, hf, hd, hi, hx⟩ | ⟨_, hx⟩ | ht
  · rcases exec_result hi hx with h | ⟨block, rfl⟩
    · exact .inl h
    · exact .inr ⟨he, w, block, hf, hd⟩
  · exact .inl (congrArg State.result (execRxIsr_frame hx) :)
  · exact .inl (congrArg State.result ht :)

theorem AgentStep.gie (ha : AgentStep e s t) : t.gie = s.gie ∨ e = .move .isr ∨ ∃ on, e = .move (.setGie on) := by
  cases ha with
  | fgHeld => exact .inl rfl
  | fgRefused => exact .inl rfl
  | fgOp _ _ hd hx => exact .inl (congrArg State.gie (exec_frame (inProgram_of_decodeProgramWord hd) hx) :)
  | isr => exact .inr (.inl rfl)
  | txe => exact .inl (congrArg State.gie (txeStep_frame s) :)
  | arrive b => exact .inl (congrArg State.gie (rxArrive_frame b s) :)
  | app on => exact .inr (.inr ⟨on, rfl⟩)
  | outside r v => exact .inl (congrArg State.gie (State.outsideWrite_frame r v s) :)
  | outsideHeld => exact .inl rfl

/-- FG's place moves only by FG, from a place within the program (R22). -/
theorem AgentStep.pc (ha : AgentStep e s t) (hv : InterruptInv s) :
    t.pc = s.pc ∨ (t.pc = s.pc + 1 ∧ s.pc < s.prog.length) := by
  rcases ha.operation_or_frame with ⟨_, _, _, hf, _, hi, hx⟩ | ⟨_, hx⟩ | ht
  · obtain ⟨hlt, _⟩ := List.getElem?_eq_some_iff.mp hf
    rcases exec_moves hi hx with ⟨hp, _⟩ | ⟨hp, _⟩
    · exact .inr ⟨hp, hlt⟩
    · exact .inl hp
  · exact .inl (execRxIsr_keeps_place hv hx).left
  · exact .inl (congrArg State.pc ht :)

/-- In the handler, any agent but the handler is one of the engines, or changes nothing (R217; log 16). -/
theorem AgentStep.preempted (ha : AgentStep e s t) (hi : s.inIsr = true) (he : e ≠ .move .isr) :
    t = { s with
      draws := t.draws, shift := t.shift, txline := t.txline, ifg2 := t.ifg2, oe := t.oe, rxbuf := t.rxbuf } := by
  cases ha with
  | fgHeld => rfl
  | fgRefused _ h => exact nomatch hi.symm.trans h
  | fgOp h => exact nomatch hi.symm.trans h
  | isr => exact absurd rfl he
  | txe => rw [txeStep_frame]
  | arrive b => rw [rxArrive_frame]
  | app on => rw [appGie, if_pos hi]
  | outside _ _ h => exact nomatch hi.symm.trans h
  | outsideHeld => rfl

end Frames

/-- Settles O54: every register write of the block is of an owned bit, and none is of TXIE. -/
theorem foreignBitsKept : Obligations.ForeignBitsKept := by
  intro s t h
  have hbits : t.foreignBits = s.foreignBits := by
    obtain ⟨_, ⟨_, _, rfl⟩ | ⟨_, _, ha⟩⟩ := step_agent h
    · rfl
    · exact ha.foreignBits
  simpa [State.foreignBits, State.regValue] using hbits

/-- Settles O53: a state that steps has no fault and records at most one, and REFUSED is set only where it is not. -/
theorem faultsAndRefusedSticky : Obligations.FaultsAndRefusedSticky := by
  intro s t h
  obtain ⟨hf, ⟨hr, _, rfl⟩ | ⟨es, n, ha⟩⟩ := step_agent h
  · exact ⟨by simp [hf], by simp [hf], fun r h => nomatch hr.symm.trans h⟩
  · refine ⟨by simp [hf], ?_, fun r h => ha.refused h⟩
    rcases ha.faults with h | ⟨f, h⟩ <;> simp [h, hf]

/-- Settles O55: FG's UART_RX alone writes the result. -/
theorem retOnlyByUartRx : Obligations.RetOnlyByUartRx := by
  intro s t h hne
  obtain ⟨_, ⟨_, _, rfl⟩ | ⟨_, _, ha⟩⟩ := step_agent h
  · exact absurd hne (by simp)
  · rcases ha.result with hsame | hrx
    · simp only [State.result, Prod.mk.injEq] at hsame
      exact absurd hne (by simp [hsame])
    · exact hrx

/-- Settles O56: no agent but the application and RX_ISR writes GIE. -/
theorem gieOnlyByApplicationAndInterrupt : Obligations.GieOnlyByApplicationAndInterrupt := by
  intro s t h hne
  obtain ⟨_, ⟨_, _, rfl⟩ | ⟨_, _, ha⟩⟩ := step_agent h
  · exact absurd rfl hne
  · exact ha.gie.resolve_left hne

/-- Settles O52: FG's operations move pc, from a place within the program, and the interrupt return restores it. -/
theorem programCounterNeverBack : Obligations.ProgramCounterNeverBack := by
  intro s t hint h
  obtain ⟨_, _, hprog, _⟩ := launchDataKept s t h
  have hpc : t.pc = s.pc ∨ (t.pc = s.pc + 1 ∧ s.pc < s.prog.length) := by
    obtain ⟨_, ⟨_, _, rfl⟩ | ⟨_, _, ha⟩⟩ := step_agent h
    · exact .inl rfl
    · exact ha.pc hint
  rw [hprog]
  omega

/-- Settles O57: in the handler only the handler and the engines change anything but the schedule. -/
theorem foregroundPreempted : Obligations.ForegroundPreempted := by
  intro s t hi hb h he
  obtain ⟨_, ⟨_, hb', _⟩ | ⟨_, _, ha⟩⟩ := step_agent h
  · exact nomatch hb.symm.trans hb'
  · rw [ha.preempted hi he]

/-! ### The step of a refused state, an outside write, and reset -/

/-- Settles O7: FG refuses the word at pc, and then has no step. -/
theorem refusedWordStopsForeground : Obligations.RefusedWordStopsForeground := by
  intro s es ⟨hf, hb, hs⟩ hi
  have hstep : step s = fgStep { s with sched := es } := step_of_sched hf hb hs
  refine ⟨fun w r hr hw hd => ?_, fun q hq => ?_⟩
  · exact hstep.trans (fgStep_of_refused_word (s := { s with sched := es }) hr hi hw hd)
  · exact hstep.trans (fgStep_of_refused (s := { s with sched := es }) hi hq)

/-- Settles O9: the frame format is checked before any agent steps. -/
theorem frameFormatIsRefused : Obligations.FrameFormatIsRefused := by
  intro s hf h0 hr
  have hb : s.badFormat = true := by simp [State.badFormat, h0, hr]
  constructor
  · intro hn
    simp [step, machineStep, hf, hb, hn, State.refuse]
  · intro r hn
    simp [step, machineStep, hf, hb, hn]

/-- After an outside write CFG is as R39 says, whichever register it names. -/
theorem State.outsideWrite_cfg (r : CfgReg) (v : Byte) (s : State) : (s.outsideWrite r v).cfg = s.cfgAfterWrite := by
  cases r <;> rfl

/-- Settles O10: the write is `outsideWrite`, which stores the value in its register and sets CFG. -/
theorem outsideWriteLosesRate : Obligations.OutsideWriteLosesRate := by
  intro s es r v ⟨hf, hb, hs⟩ hi
  have hstep : step s = .next (({ s with sched := es } : State).outsideWrite r v) := by
    rw [step_of_sched hf hb hs]
    simp [eventStep, hi]
  have hcfg := State.outsideWrite_cfg r v { s with sched := es }
  refine ⟨_, hstep, fun hr => ?_, fun hr => ?_, ?_, ?_, ?_, ?_, ?_⟩
  · have hnone : (({ s with sched := es } : State).outsideWrite r v).cfg = none := by
      rw [hcfg]
      exact if_neg (by simp [State.swrst] at hr ⊢; exact hr)
    exact ⟨hnone, by simp [State.rateOk, hnone]⟩
  · exact hcfg.trans (if_pos hr)
  · rintro rfl; rfl
  · rintro rfl; rfl
  · rintro rfl; rfl
  · rintro rfl; rfl
  · rintro rfl
    refine ⟨?_, fun j hj => bit_of_ssel_write s.ctl1 _ j (by omega), rfl⟩
    exact (ssel_of_write s.ctl1 (v.setWidth 2)).trans (BitVec.setWidth_eq_extractLsb' (by decide))

/-- Settles O43: the values of `State.reset`. -/
theorem resetValues : Obligations.ResetValues := by
  unfold Obligations.ResetValues
  decide

/-- Settles O44: STAT is the byte 0 with bits 5 and 0 written. -/
theorem statBits : Obligations.StatBits := by
  intro s
  have hbit (j : Nat) : bit s.stat j = if j = 0 then s.busy else if j = 5 then s.oe else false := by
    rw [State.stat, bit_withBit _ _ _ _ (by decide), bit_withBit _ _ _ _ (by decide)]
    simp [bit]
  have hbusy : bit s.stat 0 = s.busy := hbit 0
  refine ⟨hbit 5, ?_, hbusy.symm, fun j _ h0 h5 => ?_, rfl⟩
  · rw [hbusy, State.busy, Option.isSome_iff_ne_none]
  · rw [hbit j, if_neg h0, if_neg h5]

/-- Settles O46: at reset nothing is configured, saved, returned or listed. -/
theorem resetMeetsInvariants : Obligations.ResetMeetsInvariants := by
  refine ⟨⟨by decide, by decide, by decide, by decide, by decide, by decide, rfl⟩,
    interruptInv_of_not_inIsr rfl rfl, nofun, divisorInv_of_cfg_none rfl, fun _ _ => by decide, nofun, memWf_reset⟩

end Sys2Proof.Machine
end

section
/-! PROOFS. The encoding (O1 to O4): the row of each operation, the fields of a word, and the decoder by rows. -/

namespace Sys2Proof

/-! ### Rows of the table -/

/-- The row of the opcode table an operation belongs to (R93 to R99). -/
def Instr.row : Instr → OpcodeRow
  | .setClock _ => ⟨"SET_CLOCK", 0x10000000#32, 0xFFFFFF00#32⟩
  | .initUart _ _ => ⟨"INIT_UART", 0x20000000#32, 0xFF00FF00#32⟩
  | .uninitUart => ⟨"UNINIT_UART", 0x30000000#32, 0xFFFFFFFF#32⟩
  | .putch _ => ⟨"PUTCH", 0x40000000#32, 0xFFFFFF00#32⟩
  | .putStr _ => ⟨"PUT_STR", 0x50000000#32, 0xFFFF0000#32⟩
  | .uartRx _ => ⟨"UART_RX", 0x60000000#32, 0xFFFFFFFE#32⟩
  | .rxIsr => ⟨"RX_ISR", 0x70000000#32, 0xFFFFFFFF#32⟩

/-- The value of `op` of an operation (R92). -/
def Instr.op : Instr → BitVec 4
  | .setClock _ => 0x1#4
  | .initUart _ _ => 0x2#4
  | .uninitUart => 0x3#4
  | .putch _ => 0x4#4
  | .putStr _ => 0x5#4
  | .uartRx _ => 0x6#4
  | .rxIsr => 0x7#4

/-- The bits below `op` that an operation requires to be 0 (R93 to R100). -/
def Instr.zeros : Instr → Word
  | .setClock _ | .putch _ => 0x0FFFFF00#32
  | .initUart _ _ => 0x0F00FF00#32
  | .uninitUart | .rxIsr => 0x0FFFFFFF#32
  | .putStr _ => 0x0FFF0000#32
  | .uartRx _ => 0x0FFFFFFE#32

theorem Instr.row_mem (i : Instr) : i.row ∈ opcodeTable := by
  cases i <;> simp [Instr.row, opcodeTable]

theorem exists_row_of_mem : ∀ r ∈ opcodeTable, ∃ i : Instr, i.row = r := by
  simp only [opcodeTable, List.forall_mem_cons]
  exact ⟨⟨.setClock 0, rfl⟩, ⟨.initUart 0 0, rfl⟩, ⟨.uninitUart, rfl⟩, ⟨.putch 0, rfl⟩, ⟨.putStr 0, rfl⟩,
    ⟨.uartRx true, rfl⟩, ⟨.rxIsr, rfl⟩, nofun⟩

theorem Instr.row_mnemonic (i : Instr) : i.row.mnemonic = i.mnemonic := by
  cases i <;> rfl

/-- A row's mnemonic names it. -/
theorem eq_of_mnemonic_eq : ∀ r ∈ opcodeTable, ∀ r' ∈ opcodeTable, r.mnemonic = r'.mnemonic → r = r' := by
  decide

/-- No two rows of the table require the same value of `op`. -/
theorem opcodeTable_op_ne : opcodeTable.Pairwise (fun a b => opField a.bits ≠ opField b.bits) := by
  decide

/-- Every value of `op` from 1 to 7 has a row. -/
theorem exists_row_op : ∀ op : BitVec 4, op ≠ 0x0#4 → op.toNat < 8 → ∃ r ∈ opcodeTable, opField r.bits = op := by
  decide

theorem Instr.opField_row_bits (i : Instr) : opField i.row.bits = i.op := by
  cases i <;> (dsimp only [Instr.row, Instr.op]; decide)

/-- A row fixes all four bits of `op` and the bits in `zeros`, these to 0, and no other. -/
theorem Instr.row_shape (i : Instr) :
    i.row.mask = 0xF0000000#32 ||| i.zeros ∧ i.row.mask &&& 0xF0000000#32 = 0xF0000000#32 ∧
    i.row.mask &&& i.zeros = i.zeros ∧ i.row.bits &&& 0xF0000000#32 = i.row.bits ∧ i.row.bits &&& i.zeros = 0#32 := by
  cases i <;> (dsimp only [Instr.row, Instr.zeros]; decide)

/-- `op` is the bits under the mask 0xF0000000 (R91). -/
theorem opField_eq_iff (v w : Word) : opField v = opField w ↔ v &&& 0xF0000000#32 = w &&& 0xF0000000#32 := by
  have hmask : ∀ j, j < 32 → (0xF0000000#32).getLsbD j = decide (28 ≤ j) := by decide
  constructor
  · intro h
    apply BitVec.eq_of_getLsbD_eq
    intro j hj
    have hbit := congrArg (fun x => x.getLsbD (j - 28)) h
    simp only [opField, BitVec.getLsbD_extractLsb'] at hbit
    rw [BitVec.getLsbD_and, BitVec.getLsbD_and, hmask j hj]
    by_cases h28 : 28 ≤ j
    · simpa [h28, show j - 28 < 4 by omega, show 28 + (j - 28) = j by omega] using hbit
    · simp [h28]
  · intro h
    apply BitVec.eq_of_getLsbD_eq
    intro j hj
    have hbit := congrArg (fun x => x.getLsbD (28 + j)) h
    simpa [BitVec.getLsbD_and, hmask (28 + j) (by omega), opField, hj] using hbit

/-- An operation's row selects the words with its `op` and with 0 in the bits it requires to be 0. -/
theorem selects_row_iff (i : Instr) (w : Word) :
    i.row.selects w = true ↔ opField w = i.op ∧ w &&& i.zeros = 0#32 := by
  obtain ⟨hmask, hop, hzeros, hbits, hclear⟩ := i.row_shape
  rw [OpcodeRow.selects, beq_iff_eq, ← i.opField_row_bits, opField_eq_iff]
  constructor
  · intro h
    constructor
    · rw [← h, BitVec.and_assoc, hop]
    · rw [← hclear, ← h, BitVec.and_assoc, hzeros]
  · rintro ⟨ho, hz⟩
    rw [hmask, BitVec.and_or_distrib_left, ho, hz, hbits, BitVec.or_zero]

theorem selects_row_encode (i : Instr) : i.row.selects (encode i) = true := by
  have hs : Laws.TableRow.Statement i := by
    cases i with
    | setClock speed => exact Laws.TableRow.setClock speed
    | initUart baud clockSpeed => exact Laws.TableRow.initUart baud clockSpeed
    | uninitUart => exact Laws.TableRow.uninitUart
    | putch byte => exact Laws.TableRow.putch byte
    | putStr addr => exact Laws.TableRow.putStr addr
    | uartRx block => exact Laws.TableRow.uartRx block
    | rxIsr => exact Laws.TableRow.rxIsr
  obtain ⟨r, hr, hm, hs⟩ := hs
  rwa [eq_of_mnemonic_eq _ i.row_mem r hr (i.row_mnemonic.trans hm.symm)]

/-! ### Fields of a word -/

/-- A field is read back from where it was written, if the bits there were 0. -/
theorem extractLsb'_or_shiftLeft {s n : Nat} {base : Word} (v : BitVec n) (hn : s + n ≤ 32)
    (hb : base.extractLsb' s n = 0#n) : (base ||| v.setWidth 32 <<< s).extractLsb' s n = v := by
  rw [BitVec.extractLsb'_or, hb, BitVec.zero_or]
  apply BitVec.eq_of_getLsbD_eq
  intro j hj
  simp [hj, show s + j < 32 by omega]

/-- `extractLsb'_or_shiftLeft` for a field in the lowest bits. -/
theorem extractLsb'_or_setWidth {n : Nat} {base : Word} (v : BitVec n) (hn : n ≤ 32)
    (hb : base.extractLsb' 0 n = 0#n) : (base ||| v.setWidth 32).extractLsb' 0 n = v := by
  simpa using extractLsb'_or_shiftLeft (s := 0) v (by omega) hb

/-- A field is 0 where another field was written. -/
theorem extractLsb'_shiftLeft_apart {s n t m : Nat} (v : BitVec m) (h : s + n ≤ t ∨ t + m ≤ s) :
    (v.setWidth 32 <<< t : Word).extractLsb' s n = 0#n := by
  apply BitVec.eq_of_getLsbD_eq
  intro j hj
  simp only [BitVec.getLsbD_extractLsb', BitVec.getLsbD_shiftLeft, BitVec.getLsbD_setWidth]
  rcases h with h | h
  · simp [show s + j < t by omega]
  · simp [BitVec.getLsbD_of_ge v (s + j - t) (by omega)]

/-- A field put back where it was read is the word under the field's mask. -/
theorem shiftLeft_extractLsb' {s n : Nat} {m : Word} (w : Word)
    (hm : ∀ j, j < 32 → m.getLsbD j = decide (s ≤ j ∧ j < s + n)) :
    (w.extractLsb' s n).setWidth 32 <<< s = w &&& m := by
  apply BitVec.eq_of_getLsbD_eq
  intro j hj
  rw [BitVec.getLsbD_and, hm j hj]
  simp only [BitVec.getLsbD_shiftLeft, BitVec.getLsbD_setWidth, BitVec.getLsbD_extractLsb']
  by_cases hs : s ≤ j
  · simp [hs, hj, show s + (j - s) = j by omega, show j - s < 32 by omega, show j - s < n ↔ j < s + n by omega,
      Bool.and_comm]
  · simp [hs, show j < s by omega]

theorem setWidth_a0Low (w : Word) : (a0Low w).setWidth 32 = w &&& 0x000000FF#32 := by
  simpa [a0Low] using shiftLeft_extractLsb' (s := 0) (n := 8) w (by decide)

theorem setWidth_a0Field (w : Word) : (a0Field w).setWidth 32 = w &&& 0x0000FFFF#32 := by
  simpa [a0Field] using shiftLeft_extractLsb' (s := 0) (n := 16) w (by decide)

theorem setWidth_a1Field (w : Word) : (a1Field w).setWidth 32 <<< 16 = w &&& 0x00FF0000#32 :=
  shiftLeft_extractLsb' (s := 16) (n := 8) w (by decide)

theorem setWidth_a0Bit (w : Word) : (BitVec.ofBool (a0Bit w)).setWidth 32 = w &&& 0x00000001#32 := by
  have hbit : BitVec.ofBool (a0Bit w) = w.extractLsb' 0 1 := by
    apply BitVec.eq_of_getLsbD_eq
    intro j hj
    obtain rfl : j = 0 := by omega
    simp [a0Bit]
  simpa [hbit] using shiftLeft_extractLsb' (s := 0) (n := 1) (m := 0x00000001#32) w (by decide)

/-! ### Arguments written and read -/

/-- The operation `i` with its arguments read from the fields of the word (R91). -/
def Instr.readArgs (w : Word) : Instr → Instr
  | .setClock _ => .setClock (a0Low w)
  | .initUart _ _ => .initUart (a1Field w) (a0Low w)
  | .uninitUart => .uninitUart
  | .putch _ => .putch (a0Low w)
  | .putStr _ => .putStr (a0Field w)
  | .uartRx _ => .uartRx (a0Bit w)
  | .rxIsr => .rxIsr

@[simp] theorem Instr.readArgs_mnemonic (w : Word) (i : Instr) : (i.readArgs w).mnemonic = i.mnemonic := by
  cases i <;> rfl

theorem a1Field_encode_initUart (baud clockSpeed : Byte) : a1Field (encode (.initUart baud clockSpeed)) = baud := by
  have hlow : (clockSpeed.setWidth 32 : Word).extractLsb' 16 8 = 0#8 := by
    simpa using extractLsb'_shiftLeft_apart (s := 16) (n := 8) (t := 0) clockSpeed (by decide)
  have hbase : (0x20000000#32 ||| clockSpeed.setWidth 32).extractLsb' 16 8 = 0#8 := by
    rw [BitVec.extractLsb'_or, hlow]
    decide
  rw [encode, BitVec.or_assoc, BitVec.or_comm (_ <<< _), ← BitVec.or_assoc]
  exact extractLsb'_or_shiftLeft baud (by decide) hbase

theorem a0Low_encode_initUart (baud clockSpeed : Byte) : a0Low (encode (.initUart baud clockSpeed)) = clockSpeed := by
  have hbase : (0x20000000#32 ||| baud.setWidth 32 <<< 16).extractLsb' 0 8 = 0#8 := by
    rw [BitVec.extractLsb'_or, extractLsb'_shiftLeft_apart baud (by decide)]
    decide
  exact extractLsb'_or_setWidth clockSpeed (by decide) hbase

/-- The arguments an encoding was made of are read back. -/
theorem readArgs_encode (i : Instr) : i.readArgs (encode i) = i := by
  cases i with
  | setClock speed => exact congrArg Instr.setClock (extractLsb'_or_setWidth speed (by decide) (by decide))
  | initUart baud clockSpeed =>
    exact congrArg₂ Instr.initUart (a1Field_encode_initUart baud clockSpeed) (a0Low_encode_initUart baud clockSpeed)
  | uninitUart => rfl
  | putch byte => exact congrArg Instr.putch (extractLsb'_or_setWidth byte (by decide) (by decide))
  | putStr addr => exact congrArg Instr.putStr (extractLsb'_or_setWidth addr (by decide) (by decide))
  | uartRx block => cases block <;> rfl
  | rxIsr => rfl

theorem encode_uartRx (block : Bool) :
    encode (.uartRx block) = 0x60000000#32 ||| (BitVec.ofBool block).setWidth 32 := by
  cases block <;> decide

/-- A word is the bits a mask fixes and the bits that the mask leaves to the arguments. -/
theorem bits_or_args {w mask bits args : Word} (h : w &&& mask = bits) (hm : mask ||| args = BitVec.allOnes 32) :
    bits ||| (w &&& args) = w := by
  rw [← h, ← BitVec.and_or_distrib_left, hm, BitVec.and_allOnes]

/-- The operation with the arguments of a word of its row has that word as its encoding. -/
theorem encode_readArgs {i : Instr} {w : Word} (h : i.row.selects w = true) : encode (i.readArgs w) = w := by
  have hw : w &&& i.row.mask = i.row.bits := beq_iff_eq.mp h
  cases i with
  | setClock _ | putch _ =>
    rw [Instr.readArgs, encode, setWidth_a0Low]
    exact bits_or_args (mask := 0xFFFFFF00#32) hw (by decide)
  | initUart _ _ =>
    rw [Instr.readArgs, encode, setWidth_a1Field, setWidth_a0Low, BitVec.or_assoc, ← BitVec.and_or_distrib_left]
    exact bits_or_args (mask := 0xFF00FF00#32) hw (by decide)
  | putStr _ =>
    rw [Instr.readArgs, encode, setWidth_a0Field]
    exact bits_or_args (mask := 0xFFFF0000#32) hw (by decide)
  | uartRx _ =>
    rw [Instr.readArgs, encode_uartRx, setWidth_a0Bit]
    exact bits_or_args (mask := 0xFFFFFFFE#32) hw (by decide)
  | uninitUart | rxIsr => exact hw.symm.trans (BitVec.and_allOnes ..)

/-! ### The decoder, by rows -/

theorem requireZero_of_zero {w zeros : Word} (h : w &&& zeros = 0#32) (i : Instr) : requireZero w zeros i = .ok i :=
  if_pos h

theorem requireZero_of_ne_zero {w zeros : Word} (h : w &&& zeros ≠ 0#32) (i : Instr) :
    requireZero w zeros i = .error .reservedBits :=
  if_neg h

/-- Where `op` is an operation's, the decoder asks for its zeros and reads the arguments (R93 to R99). -/
theorem decode_of_op {w : Word} {i : Instr} (h : opField w = i.op) :
    decode w = requireZero w i.zeros (i.readArgs w) := by
  cases i <;> simp [decode, h, Instr.op, Instr.zeros, Instr.readArgs]

/-- A reserved `op` is refused (R101). -/
theorem decode_of_reserved {w : Word} (h : opField w = 0x0#4 ∨ 8 ≤ (opField w).toNat) :
    decode w = .error .reservedOp := by
  have hne : ∀ k : BitVec 4, k ≠ 0x0#4 → k.toNat < 8 → opField w ≠ k := by
    rintro k h0 h8 rfl
    exact h.elim h0 (Nat.not_le_of_lt h8)
  simp [decode, hne]

/-- Every other `op` is an operation's (R92). -/
theorem exists_op {w : Word} (h0 : opField w ≠ 0x0#4) (h8 : (opField w).toNat < 8) :
    ∃ i : Instr, opField w = i.op := by
  obtain ⟨r, hr, hop⟩ := exists_row_op _ h0 h8
  obtain ⟨i, rfl⟩ := exists_row_of_mem r hr
  exact ⟨i, hop.symm.trans i.opField_row_bits⟩

theorem decode_of_selects {w : Word} {i : Instr} (h : i.row.selects w = true) : decode w = .ok (i.readArgs w) := by
  obtain ⟨hop, hz⟩ := (selects_row_iff i w).mp h
  rw [decode_of_op hop, requireZero_of_zero hz]

theorem decode_of_not_selects {w : Word} {i : Instr} (hop : opField w = i.op) (h : i.row.selects w = false) :
    decode w = .error .reservedBits := by
  rw [decode_of_op hop, requireZero_of_ne_zero]
  intro hz
  exact Bool.eq_false_iff.mp h ((selects_row_iff i w).mpr ⟨hop, hz⟩)

/-- An encoding is a word of its operation's row, and its arguments are read back. -/
theorem decode_encode (i : Instr) : decode (encode i) = .ok i := by
  rw [decode_of_selects (selects_row_encode i), readArgs_encode]

/-- A word that decodes is of the row of an operation, and decodes to it with the word's arguments. -/
theorem decode_ok_cases {w : Word} {i : Instr} (h : decode w = .ok i) :
    ∃ j : Instr, j.row.selects w = true ∧ i = j.readArgs w := by
  by_cases hr : opField w = 0x0#4 ∨ 8 ≤ (opField w).toNat
  · rw [decode_of_reserved hr] at h
    cases h
  · obtain ⟨h0, h8⟩ := not_or.mp hr
    obtain ⟨j, hop⟩ := exists_op h0 (Nat.lt_of_not_le h8)
    cases hs : j.row.selects w with
    | true => exact ⟨j, hs, Except.ok.inj (h.symm.trans (decode_of_selects hs))⟩
    | false =>
      rw [decode_of_not_selects hop hs] at h
      cases h

theorem decodeProgramWord_of_error {w : Word} {r : DecodeRefusal} (h : decode w = .error r) :
    decodeProgramWord w = .error r := by
  rw [decodeProgramWord, h]

theorem decodeProgramWord_of_inProgram {w : Word} {i : Instr} (h : decode w = .ok i) (hi : i.inProgram = true) :
    decodeProgramWord w = .ok i := by
  simp [decodeProgramWord, h, hi]

theorem inProgram_of_ne_rxIsr {i : Instr} (h : i ≠ .rxIsr) : i.inProgram = true := by
  cases i with
  | rxIsr => exact absurd rfl h
  | _ => rfl

/-- A word that a row of the table selects has the row's `op`. -/
theorem opField_of_selects {r : OpcodeRow} {w : Word} (hr : r ∈ opcodeTable) (hs : r.selects w = true) :
    opField r.bits = opField w := by
  obtain ⟨i, rfl⟩ := exists_row_of_mem r hr
  exact i.opField_row_bits.trans ((selects_row_iff i w).mp hs).1.symm

/-- No two rows select one word: they require different values of `op`. -/
theorem opcodeTable_pairwise_selects (w : Word) :
    opcodeTable.Pairwise (fun a b => a.selects w = true → b.selects w = false) :=
  opcodeTable_op_ne.imp_of_mem fun ha hb hne hsa =>
    Bool.eq_false_iff.mpr fun hsb => hne ((opField_of_selects ha hsa).trans (opField_of_selects hb hsb).symm)

/-- A word of a row decodes to an operation of the row, also in a program unless it is the handler's (R99, R103). -/
theorem decode_of_mem_selects {w : Word} {r : OpcodeRow} (hr : r ∈ opcodeTable) (hs : r.selects w = true) :
    ∃ i, decode w = .ok i ∧ i.mnemonic = r.mnemonic ∧ (w ≠ 0x70000000#32 → decodeProgramWord w = .ok i) := by
  obtain ⟨i, rfl⟩ := exists_row_of_mem r hr
  have hd := decode_of_selects hs
  refine ⟨i.readArgs w, hd, (i.readArgs_mnemonic w).trans i.row_mnemonic.symm, fun hw => ?_⟩
  refine decodeProgramWord_of_inProgram hd (inProgram_of_ne_rxIsr fun hi => hw ?_)
  rw [← encode_readArgs hs, hi, encode]

/-! ### The obligations -/

/-- Settles O1: `decode_encode`, which for an operation a program may hold the program decoder passes on. -/
theorem decodeInvertsEncode : Obligations.DecodeInvertsEncode := by
  intro i
  exact ⟨decode_encode i, decodeProgramWord_of_inProgram (decode_encode i)⟩

/-- Settles O2: a word that decodes is of a row, and the row and the arguments give all its bits. -/
theorem encodeInvertsDecode : Obligations.EncodeInvertsDecode := by
  intro w i h
  obtain ⟨j, hs, rfl⟩ := decode_ok_cases h
  exact encode_readArgs hs

/-- Settles O3, a clause by each lemma on the decoder by rows. -/
theorem decoderReasonsInOrder : Obligations.DecoderReasonsInOrder := by
  intro w
  refine ⟨fun h => decodeProgramWord_of_error (decode_of_reserved h), fun h0 h8 hn => ?_, ?_,
    fun _ hr hs => decode_of_mem_selects hr hs, opcodeTable_pairwise_selects w⟩
  · obtain ⟨i, hop⟩ := exists_op h0 h8
    exact decodeProgramWord_of_error (decode_of_not_selects hop (hn _ i.row_mem))
  · rintro rfl
    decide

/-- Settles O4: each word is the encoding of its operation, so it decodes to it. -/
theorem exampleWordsDecode : Obligations.ExampleWordsDecode := by
  exact ⟨decode_encode (.setClock 16#8), decode_encode (.initUart 1#8 16#8), decode_encode .uninitUart,
    decode_encode (.putch 0x41#8), decode_encode (.putStr 0x0200#16), decode_encode (.uartRx true),
    decode_encode .rxIsr⟩

end Sys2Proof
end

section
/-! PROOFS. SET_CLOCK (O11 to O13): the speed an argument names, and the operation's next state by that speed. -/

namespace Sys2Proof.Machine

open Sys2Proof

section Clock

variable {v : Byte} {k : Speed}

/-- Each supported speed is named by its own number of MHz (R93, R111). -/
theorem speedOf_speedMHz (k : Speed) : speedOf (BitVec.ofNat 8 (speedMHz k)) = some k := by
  cases k <;> rfl

theorem speedOf_of_ne (h1 : v ≠ 1#8) (h8 : v ≠ 8#8) (h16 : v ≠ 16#8) : speedOf v = none := by
  rw [speedOf, if_neg h1, if_neg h8, if_neg h16]

/-- SET_CLOCK where its argument names a speed (R110, R111). -/
theorem exec_setClock_of_speedOf_some (h : speedOf v = some k) (s : State) :
    exec (.setClock v) s = .next ((s.calibrate k).disturbShift.advance) := by
  rw [exec, execSetClock, h]

/-- SET_CLOCK where its argument names no speed (R112). -/
theorem exec_setClock_of_speedOf_none (h : speedOf v = none) (s : State) :
    exec (.setClock v) s = .next s.advance := by
  rw [exec, execSetClock, h]

end Clock

/-! ### The obligations -/

/-- Settles O11: the argument names the speed, and calibrating to it is the only branch. -/
theorem setClockSupported : Obligations.SetClockSupported := by
  intro k s
  exact exec_setClock_of_speedOf_some (speedOf_speedMHz k) s

/-- Settles O12: the argument names no speed. -/
theorem setClockUnsupportedIsNoOp : Obligations.SetClockUnsupportedIsNoOp := by
  intro v s h1 h8 h16
  exact exec_setClock_of_speedOf_none (speedOf_of_ne h1 h8 h16) s

/-- Settles O13: both calls write the constants of one speed, which do not depend on the state, or neither writes. -/
theorem setClockTwiceIsOnce : Obligations.SetClockTwiceIsOnce := by
  intro v s
  cases h : speedOf v with
  | none =>
    exact ⟨_, _, exec_setClock_of_speedOf_none h s, exec_setClock_of_speedOf_none h _, rfl, rfl, rfl⟩
  | some k =>
    exact ⟨_, _, exec_setClock_of_speedOf_some h s, exec_setClock_of_speedOf_some h _, rfl, rfl, rfl⟩

end Sys2Proof.Machine
end

section
/-! PROOFS. The baud table (O14, O15), and INIT_UART and UNINIT_UART (O16 to O18, O20, O21): each micro-step by its
place, the operation as a whole, and the pair. -/

namespace Sys2Proof.Machine

open Sys2Proof

section LineConfig

variable {s t : State} {b c : Byte} {p : LineCfg} {k : InitStep}

/-! ### The baud table -/

theorem baudOf_of_ne {v : Byte} (h0 : v ≠ 0#8) (h1 : v ≠ 1#8) : baudOf v = none := by
  rw [baudOf, if_neg h0, if_neg h1]

/-- A row is indexed only where both arguments name something (R120). -/
theorem lookup_of_baudOf_none (h : baudOf b = none) : lookup b c = none := by
  simp [lookup, lookupPair, h]

theorem lookup_of_speedOf_none (h : speedOf c = none) : lookup b c = none := by
  simp [lookup, lookupPair, h]

/-! ### Reset meets SHIFT -/

/-- A reset writes SHIFT, and what it puts on the line with its draw (R162). -/
theorem State.abortShift_frame (s : State) :
    s.abortShift = { s with shift := none, txline := s.abortShift.txline, draws := s.abortShift.draws } := by
  rcases s.abortShift_cases with ⟨hn, h⟩ | ⟨_, _, _, _, h⟩
  · rw [h, ← hn]
  · rw [h]

/-- A frame in SHIFT leaves one wire frame, Aborted or its own, for one draw (R162). -/
theorem State.abortShift_txline_of_shift_some {f : ShiftFrame} (h : s.shift = some f) :
    (s.abortShift.txline = s.txline ++ [.aborted] ∨ s.abortShift.txline = s.txline ++ [s.wireOf f]) ∧
      s.abortShift.draws = s.draws + 1 := by
  rcases s.abortShift_cases with ⟨hn, _⟩ | ⟨g, w, hg, hw, ha⟩
  · exact nomatch h.symm.trans hn
  · cases h.symm.trans hg
    rw [ha]
    rcases hw with rfl | rfl
    · exact ⟨.inl rfl, rfl⟩
    · exact ⟨.inr rfl, rfl⟩

/-- What the reset hold writes (R39, R162). -/
theorem State.setSwrst_frame (s : State) :
    s.setSwrst = { s with
      ctl1 := withBit s.ctl1 0 true, ie2 := withBit s.ie2 0 false, ifg2 := withBit (withBit s.ifg2 0 false) 1 true,
      oe := false, shift := none, txline := s.abortShift.txline, draws := s.abortShift.draws } := by
  rw [State.setSwrst, State.abortShift_frame]

/-! ### The fields of a register, by bits -/

/-- A write of SWRST keeps the bits of CTL1 above it (R77). -/
theorem State.clearSwrst_bit {j : Nat} (hj : 1 ≤ j) (s : State) : bit s.clearSwrst.ctl1 j = bit s.ctl1 j :=
  (bit_withBit s.ctl1 0 j false (by decide)).trans (if_neg (by omega))

theorem State.setSwrst_bit {j : Nat} (hj : 1 ≤ j) (s : State) : bit s.setSwrst.ctl1 j = bit s.ctl1 j :=
  (bit_withBit s.ctl1 0 j true (by decide)).trans (if_neg (by omega))

theorem State.setSsel_bit {j : Nat} (hj : j ≤ 5) (v : BitVec 2) (s : State) :
    bit (s.setSsel v).ctl1 j = bit s.ctl1 j :=
  bit_of_ssel_write s.ctl1 v j (by omega)

/-- MCTL under the mask of OS16 has the fields BRS and BRF 0 and OS16 as it was (R137). -/
theorem and_one_fields (r : Byte) :
    (r &&& 0x01#8).extractLsb' 1 3 = 0#3 ∧ (r &&& 0x01#8).extractLsb' 4 4 = 0#4 ∧
      bit (r &&& 0x01#8) 0 = bit r 0 := by
  refine ⟨?_, ?_, ?_⟩
  · rw [BitVec.extractLsb'_and]
    exact BitVec.and_zero
  · rw [BitVec.extractLsb'_and]
    exact BitVec.and_zero
  · simp [bit]

theorem bit_of_field_zero {r : Byte} {lo n j : Nat} (h : r.extractLsb' lo n = 0#n) (hlo : lo ≤ j) (hj : j < lo + n) :
    bit r j = false := by
  have hbit := congrArg (fun v => v.getLsbD (j - lo)) h
  simpa [bit, show lo + (j - lo) = j by omega, show j - lo < n by omega] using hbit

/-- CTL1 from its fields where SWRST alone is set (R29). -/
theorem State.ctl1_eq_one (hssel : s.ssel = 0b00#2) (hr : s.swrst = true)
    (hz : ∀ j, 1 ≤ j → j ≤ 5 → bit s.ctl1 j = false) : s.ctl1 = 0x01#8 := by
  apply BitVec.eq_of_getLsbD_eq
  intro j hj
  rcases Nat.eq_zero_or_pos j with rfl | h0
  · exact hr
  · have hone : (0x01#8).getLsbD j = false := by simp [BitVec.getLsbD_one, h0.ne']
    rw [hone]
    rcases Nat.lt_or_ge 5 j with h5 | h5
    · exact bit_of_field_zero hssel h5 hj
    · exact hz j h0 h5

/-- MCTL from its fields where each is 0 (R31). -/
theorem State.mctl_eq_zero (hbrf : s.brf = 0#4) (hbrs : s.brs = 0#3) (hos : s.os16 = false) : s.mctl = 0x00#8 := by
  apply BitVec.eq_of_getLsbD_eq
  intro j hj
  rw [BitVec.getLsbD_zero]
  obtain rfl | ⟨h1, h3⟩ | h4 : j = 0 ∨ (1 ≤ j ∧ j < 1 + 3) ∨ 4 ≤ j := by omega
  · exact hos
  · exact bit_of_field_zero hbrs h1 h3
  · exact bit_of_field_zero hbrf h4 hj

/-! ### INIT_UART by its micro-step -/

/-- INIT_UART's micro-step `k`, from 2 to 7 (R125). -/
def initStepAt (b c : Byte) : InitStep → State → State
  | .s2 => initStep2
  | .s3 => initStep3
  | .s4 => initStep4
  | .s5 => initStep5 b c
  | .s6 => initStep6
  | .s7 => initStep7

theorem exec_initUart_of_idle (h : s.mu = .idle) : exec (.initUart b c) s = .next (initStep1 s) := by
  rw [exec, execInitUart, h]

theorem exec_initUart_of_init (h : s.mu = .init k) : exec (.initUart b c) s = .next (initStepAt b c k s) := by
  rw [exec, execInitUart, h]
  cases k <;> rfl

/-- What micro-step 1 writes (R125, R126, R133). -/
theorem initStep1_frame (s : State) :
    initStep1 s = { s with
      ctl1 := withBit s.ctl1 0 true, phase := .configuring, slotFull := false, slotVal := 0x00#8,
      ie2 := withBit s.ie2 0 false, ifg2 := withBit (withBit s.ifg2 0 false) 1 true, oe := false, shift := none,
      txline := s.abortShift.txline, draws := s.abortShift.draws, mu := .init .s2 } := by
  rw [initStep1, State.setSwrst_frame]
  rfl

/-- Micro-step 5 where the arguments index a row (R130). -/
theorem initStep5_of_hit (h : lookupPair b c = some p) (s : State) :
    initStep5 b c s = { s with
      br0 := (baudTable p.baud p.clk).divLow, br1 := (baudTable p.baud p.clk).divHigh,
      mctl := mctlByte (baudTable p.baud p.clk), cfg := some p, mu := .init .s6 } := by
  rw [initStep5, h]
  rfl

/-- Micro-step 5 where they index none (R124). -/
theorem initStep5_of_miss (h : lookupPair b c = none) (s : State) :
    initStep5 b c s = { s with cfg := none, mu := .init .s6 } := by
  rw [initStep5, h]

/-- Micro-step 5 writes the divisor and modulation registers and CFG, whether it hits or misses. -/
theorem initStep5_frame (b c : Byte) (s : State) :
    ∃ r0 r1 m q, initStep5 b c s = { s with br0 := r0, br1 := r1, mctl := m, cfg := q, mu := .init .s6 } := by
  cases h : lookupPair b c with
  | some p => exact ⟨_, _, _, _, initStep5_of_hit h s⟩
  | none => exact ⟨_, _, _, _, initStep5_of_miss h s⟩

/-! ### INIT_UART as a whole -/

/-- INIT_UART's micro-steps 1 to 4. -/
def initPrepare (s : State) : State := initStep4 (initStep3 (initStep2 (initStep1 s)))

/-- INIT_UART's seven micro-steps. -/
def initRun (b c : Byte) (s : State) : State := initStep7 (initStep6 (initStep5 b c (initPrepare s)))

/-- An operation's run that begins with a micro-step to `t` goes on from `t`. -/
theorem runMicro_succ_of_exec {i : Instr} (h : exec i s = .next t) (n : Nat) :
    runMicro i (n + 1) s = runMicro i n t := by
  rw [runMicro, h]

theorem runMicro_initUart_succ (h : s.mu = .init k) (n : Nat) :
    runMicro (.initUart b c) (n + 1) s = runMicro (.initUart b c) n (initStepAt b c k s) :=
  runMicro_succ_of_exec (exec_initUart_of_init h) n

theorem runMicro_initUart (h : s.mu = .idle) : runMicro (.initUart b c) 7 s = .next (initRun b c s) := by
  have h5 : (initStep5 b c (initPrepare s)).mu = .init .s6 := by
    obtain ⟨_, _, _, _, h5⟩ := initStep5_frame b c (initPrepare s)
    rw [h5]
  calc runMicro (.initUart b c) 7 s
      = runMicro (.initUart b c) 6 (initStep1 s) := runMicro_succ_of_exec (exec_initUart_of_idle h) 6
    _ = runMicro (.initUart b c) 5 (initStep2 (initStep1 s)) := runMicro_initUart_succ (k := .s2) rfl 5
    _ = runMicro (.initUart b c) 4 (initStep3 (initStep2 (initStep1 s))) := runMicro_initUart_succ (k := .s3) rfl 4
    _ = runMicro (.initUart b c) 3 (initPrepare s) := runMicro_initUart_succ (k := .s4) rfl 3
    _ = runMicro (.initUart b c) 2 (initStep5 b c (initPrepare s)) := runMicro_initUart_succ (k := .s5) rfl 2
    _ = runMicro (.initUart b c) 1 (initStep6 (initStep5 b c (initPrepare s))) := runMicro_initUart_succ h5 1
    _ = .next (initRun b c s) := runMicro_initUart_succ (k := .s7) rfl 0

/-- What INIT_UART does on a table hit and on a miss alike: everything but the divisor and modulation registers and CFG
(R124, R125). -/
structure InitEffect (s t : State) : Prop where
  ctl0 : t.ctl0 = 0x00#8
  ssel : t.ssel = 0b10#2
  swrst : t.swrst = false
  ctl1_bit : ∀ j, 1 ≤ j → j ≤ 5 → bit t.ctl1 j = bit s.ctl1 j
  pins : t.pinsSelected = true
  rxie : t.rxie = true
  txie : t.txie = s.txie
  rxifg : t.rxifg = false
  txifg : t.txifg = true
  oe : t.oe = false
  phase : t.phase = .active
  slotFull : t.slotFull = false
  slotVal : t.slotVal = 0x00#8
  shift : t.shift = none
  frame : t = { s with
    br0 := t.br0, br1 := t.br1, mctl := t.mctl, cfg := t.cfg, ctl0 := t.ctl0, ctl1 := t.ctl1, psel := t.psel,
    psel2 := t.psel2, ie2 := t.ie2, ifg2 := t.ifg2, oe := t.oe, phase := t.phase, slotFull := t.slotFull,
    slotVal := t.slotVal, shift := t.shift, txline := t.txline, draws := t.draws, pc := s.pc + 1, mu := .idle }

/-- What INIT_UART writes: the registers with several fields are given by the operations that write them. -/
theorem initRun_frame (b c : Byte) (s : State) :
    ∃ r0 r1 m q, initRun b c s = { s with
      br0 := r0, br1 := r1, mctl := m, cfg := q, ctl0 := 0x00#8,
      ctl1 := (s.setSwrst.setSsel 0b10#2).clearSwrst.ctl1, psel := s.selectPins.psel, psel2 := s.selectPins.psel2,
      ie2 := s.setSwrst.setRxie.ie2, ifg2 := s.setSwrst.ifg2, oe := false, phase := .active, slotFull := false,
      slotVal := 0x00#8, shift := none, txline := s.abortShift.txline, draws := s.abortShift.draws, pc := s.pc + 1,
      mu := .idle } := by
  obtain ⟨r0, r1, m, q, h5⟩ := initStep5_frame b c (initPrepare s)
  refine ⟨r0, r1, m, q, ?_⟩
  rw [initRun, h5]
  simp [initPrepare, initStep1_frame, initStep2, initStep3, initStep4, initStep6, initStep7, State.setSsel,
    State.writeCtl0, State.selectPins, State.clearSwrst, State.setRxie, State.advance]

/-- The flags of a register after INIT_UART are those after the operations that write it. -/
theorem initRun_initEffect (b c : Byte) (s : State) : InitEffect s (initRun b c s) := by
  obtain ⟨_, _, _, _, hframe⟩ := initRun_frame b c s
  have hctl1 := congrArg State.ctl1 hframe
  have hie2 := congrArg State.ie2 hframe
  have hifg2 := congrArg State.ifg2 hframe
  exact {
    ctl0 := (congrArg State.ctl0 hframe :)
    ssel := (congrArg (BitVec.extractLsb' 6 2) hctl1).trans
      ((State.clearSwrst_ssel _).trans (s.setSwrst.setSsel_ssel _))
    swrst := (congrArg (bit · 0) hctl1).trans (State.clearSwrst_swrst _)
    ctl1_bit := fun j h1 h5 => calc
      bit (initRun b c s).ctl1 j = bit (s.setSwrst.setSsel 0b10#2).clearSwrst.ctl1 j := congrArg (bit · j) hctl1
      _ = bit (s.setSwrst.setSsel 0b10#2).ctl1 j := State.clearSwrst_bit h1 _
      _ = bit s.setSwrst.ctl1 j := State.setSsel_bit h5 _ _
      _ = bit s.ctl1 j := State.setSwrst_bit h1 s
    pins := (congrArg State.pinsSelected hframe).trans s.selectPins_pinsSelected
    rxie := (congrArg (bit · 0) hie2).trans s.setSwrst.setRxie_rxie
    txie := (congrArg (bit · 1) hie2).trans (s.setSwrst.setRxie_txie.trans s.setSwrst_txie)
    rxifg := (congrArg (bit · 0) hifg2).trans s.setSwrst_rxifg
    txifg := (congrArg (bit · 1) hifg2).trans s.setSwrst_txifg
    oe := (congrArg State.oe hframe :)
    phase := (congrArg State.phase hframe :)
    slotFull := (congrArg State.slotFull hframe :)
    slotVal := (congrArg State.slotVal hframe :)
    shift := (congrArg State.shift hframe :)
    frame := by
      rw [hframe] }

/-- On a hit the row and its pair are written (R130, R134). -/
theorem initRun_of_hit (h : lookupPair b c = some p) (s : State) :
    (initRun b c s).br0 = (baudTable p.baud p.clk).divLow ∧ (initRun b c s).br1 = (baudTable p.baud p.clk).divHigh ∧
      (initRun b c s).mctl = mctlByte (baudTable p.baud p.clk) ∧ (initRun b c s).cfg = some p := by
  rw [initRun, initStep5_of_hit h]
  exact ⟨rfl, rfl, rfl, rfl⟩

/-- On a miss the registers are what they were before the operation (R124). -/
theorem initRun_of_miss (h : lookupPair b c = none) (s : State) :
    (initRun b c s).br0 = s.br0 ∧ (initRun b c s).br1 = s.br1 ∧ (initRun b c s).mctl = s.mctl ∧
      (initRun b c s).cfg = none := by
  rw [initRun, initStep5_of_miss h]
  simp [initStep7, initStep6, initPrepare, initStep4, initStep3, initStep2, initStep1]

theorem initRun_os16 (h : s.os16 = false) : (initRun b c s).os16 = false := by
  cases hl : lookupPair b c with
  | some p =>
    obtain ⟨_, _, hm, _⟩ := initRun_of_hit hl s
    obtain ⟨_, _, hos⟩ := mctlByte_fields (baudTable p.baud p.clk)
    rw [State.os16, hm, hos]
  | none =>
    obtain ⟨_, _, hm, _⟩ := initRun_of_miss hl s
    rw [State.os16, hm]
    exact h

theorem State.rateOk_iff_of_cfg (h : s.cfg = some p) : s.rateOk = true ↔ s.osc = some p.clk := by
  simp [State.rateOk, h]

theorem State.rateOk_of_cfg_none (h : s.cfg = none) : s.rateOk = false := by
  simp [State.rateOk, h]

/-- The micro-steps of a program's operation write no bit the block does not own. -/
theorem runMicro_foreignBits {i : Instr} (hi : i.inProgram = true) {n : Nat} (h : runMicro i n s = .next t) :
    t.foreignBits = s.foreignBits := by
  induction n generalizing s with
  | zero =>
    cases h
    rfl
  | succ n ih =>
    obtain ⟨u, hu⟩ := exec_next i s
    rw [runMicro_succ_of_exec hu] at h
    exact (ih h).trans (exec_foreignBits hi hu)

/-! ### UNINIT_UART -/

/-- The state after UNINIT_UART. -/
def uninitRun (s : State) : State := { uninitWrites s with phase := .uninitialized, cfg := none }.advance

/-- The registers with several fields after UNINIT_UART, each by the operations that write it. -/
theorem uninitRun_regs (s : State) :
    (uninitRun s).ctl1 = (s.setSsel 0b00#2).setSwrst.ctl1 ∧ (uninitRun s).mctl = s.mctl &&& 0x01#8 ∧
      (uninitRun s).ie2 = s.setSwrst.ie2 ∧ (uninitRun s).ifg2 = s.setSwrst.ifg2 := by
  simp [uninitRun, uninitWrites]

theorem uninitRun_frame (s : State) :
    uninitRun s = { s with
      ctl1 := (uninitRun s).ctl1, mctl := (uninitRun s).mctl, ctl0 := (uninitRun s).ctl0,
      phase := (uninitRun s).phase, cfg := (uninitRun s).cfg, ie2 := (uninitRun s).ie2, ifg2 := (uninitRun s).ifg2,
      oe := (uninitRun s).oe, shift := (uninitRun s).shift, txline := (uninitRun s).txline,
      draws := (uninitRun s).draws, pc := s.pc + 1, mu := .idle } := by
  rw [uninitRun, uninitWrites, State.setSwrst_frame]
  rfl

end LineConfig

/-! ### The obligations -/

/-- Settles O16: each micro-step's own writes, the reset hold's by `initStep1_frame`, the row's by the lookup. -/
theorem initUartMicroSteps : Obligations.InitUartMicroSteps := by
  intro s b c
  refine ⟨fun hm => ?_, fun hm => ?_, fun hm => ?_, fun hm => ?_, fun hm p hp => ?_, fun hm hn => ?_, fun hm => ?_,
    fun hm => ?_⟩
  · refine ⟨_, exec_initUart_of_idle hm, s.setSwrst_swrst, rfl, rfl, rfl, s.setSwrst_rxie, s.setSwrst_rxifg,
      s.setSwrst_txifg, rfl, s.setSwrst_shift, rfl, fun hn => ⟨State.setSwrst_txline_of_shift_none hn, ?_⟩,
      fun f hf => State.abortShift_txline_of_shift_some hf, ?_⟩
    · exact (congrArg State.draws (State.abortShift_of_shift_none hn) :)
    · rw [initStep1_frame]
  · exact ⟨_, exec_initUart_of_init hm, s.setSsel_ssel _, fun j hj => State.setSsel_bit hj _ s, rfl⟩
  · exact ⟨_, exec_initUart_of_init hm, fun hr => if_pos hr, rfl⟩
  · exact ⟨_, exec_initUart_of_init hm, s.selectPins_pinsSelected, rfl⟩
  · obtain ⟨hbrs, hbrf, hos⟩ := mctlByte_fields (baudTable p.baud p.clk)
    exact ⟨_, (exec_initUart_of_init hm).trans (congrArg _ (initStep5_of_hit hp s)), rfl, rfl, hbrf, hbrs, hos, rfl⟩
  · exact (exec_initUart_of_init hm).trans (congrArg _ (initStep5_of_miss hn s))
  · exact ⟨_, exec_initUart_of_init hm, s.clearSwrst_swrst, s.clearSwrst_ssel,
      fun j h1 _ => State.clearSwrst_bit h1 s, rfl⟩
  · exact ⟨_, exec_initUart_of_init hm, s.setRxie_rxie, s.setRxie_txie, rfl⟩

/-- Settles O17: what INIT_UART does always, and the row and CFG of a hit. -/
theorem initUartHit : Obligations.InitUartHit := by
  intro s b c p hm hp
  have hi := initRun_initEffect b c s
  obtain ⟨hbr0, hbr1, hmctl, hcfg⟩ := initRun_of_hit hp s
  obtain ⟨hbrs, hbrf, hos⟩ := mctlByte_fields (baudTable p.baud p.clk)
  rw [← hmctl] at hbrs hbrf hos
  have hosc : (initRun b c s).osc = s.osc := (congrArg State.osc hi.frame :)
  have hrate : (initRun b c s).rateOk = true ↔ s.osc = some p.clk := hosc ▸ State.rateOk_iff_of_cfg hcfg
  exact ⟨_, runMicro_initUart hm, hbr0, hbr1, hbrs, hbrf, hos, hcfg, hrate, hi.ctl0, hi.ssel, hi.swrst, hi.ctl1_bit,
    hi.pins, hi.rxie, hi.txie, hi.rxifg, hi.txifg, hi.oe, hi.phase, hi.slotFull, hi.slotVal, hi.shift, hi.frame⟩

/-- Settles O18: what INIT_UART does always, with the registers of the row as they were. -/
theorem initUartMiss : Obligations.InitUartMiss := by
  intro s b c hm hn
  have hi := initRun_initEffect b c s
  obtain ⟨hbr0, hbr1, hmctl, hcfg⟩ := initRun_of_miss hn s
  have hframe := hi.frame
  rw [hbr0, hbr1, hmctl] at hframe
  exact ⟨_, runMicro_initUart hm, hcfg, State.rateOk_of_cfg_none hcfg, hi.ctl0, hi.ssel, hi.swrst, hi.ctl1_bit,
    hi.pins, hi.rxie, hi.txie, hi.rxifg, hi.txifg, hi.oe, hi.phase, hi.slotFull, hi.slotVal, hi.shift, hframe⟩

/-- Settles O20: the writes of SSEL and of the reset hold, and MCTL under the mask of OS16. -/
theorem uninitUartEffect : Obligations.UninitUartEffect := by
  intro s
  obtain ⟨hctl1, hmctl, hie2, hifg2⟩ := uninitRun_regs s
  obtain ⟨hbrs, hbrf, hos⟩ := and_one_fields s.mctl
  rw [← hmctl] at hbrs hbrf hos
  have hssel : (uninitRun s).ssel = 0b00#2 :=
    (congrArg (BitVec.extractLsb' 6 2) hctl1).trans ((State.setSwrst_ssel _).trans (s.setSsel_ssel _))
  have hswrst : (uninitRun s).swrst = true := (congrArg (bit · 0) hctl1).trans (State.setSwrst_swrst _)
  have hbits (j : Nat) (h1 : 1 ≤ j) (h5 : j ≤ 5) : bit (uninitRun s).ctl1 j = bit s.ctl1 j :=
    (congrArg (bit · j) hctl1).trans ((State.setSwrst_bit h1 _).trans (State.setSsel_bit h5 _ s))
  have hrxie : (uninitRun s).rxie = false := (congrArg (bit · 0) hie2).trans s.setSwrst_rxie
  have htxie : (uninitRun s).txie = s.txie := (congrArg (bit · 1) hie2).trans s.setSwrst_txie
  have hrxifg : (uninitRun s).rxifg = false := (congrArg (bit · 0) hifg2).trans s.setSwrst_rxifg
  have htxifg : (uninitRun s).txifg = true := (congrArg (bit · 1) hifg2).trans s.setSwrst_txifg
  have hshift : (uninitRun s).shift = none := (s.setSsel 0b00#2).setSwrst_shift
  exact ⟨_, execUninitUart_eq s, hssel, hswrst, hbits, hbrs, hbrf, hos, rfl, rfl, rfl, hrxie, htxie, hrxifg, htxifg,
    rfl, hshift, uninitRun_frame s⟩

/-- Settles O21: UNINIT_UART's effect, with what INIT_UART leaves of OS16 and of CTL1's bits 5 to 1; neither writes a bit
the block does not own. -/
theorem initThenUninit : Obligations.InitThenUninit := by
  intro s b c hm hos hz
  have hrun := runMicro_initUart (b := b) (c := c) hm
  have hi := initRun_initEffect b c s
  obtain ⟨u, hx, hssel, hswrst, hbits, hbrs, hbrf, hos', hctl0, _, _, hrxie, _, hrxifg, htxifg, _, _, hu⟩ :=
    uninitUartEffect (initRun b c s)
  have hctl1 : u.ctl1 = 0x01#8 := State.ctl1_eq_one hssel hswrst fun j h1 h5 =>
    (hbits j h1 h5).trans ((hi.ctl1_bit j h1 h5).trans (hz j h1 h5))
  have hmctl : u.mctl = 0x00#8 := State.mctl_eq_zero hbrf hbrs (hos'.trans (initRun_os16 hos))
  have hforeign : u.foreignBits = s.foreignBits :=
    (exec_foreignBits (i := .uninitUart) rfl hx).trans (runMicro_foreignBits (i := .initUart b c) rfl hrun)
  refine ⟨_, u, hrun, hx, hctl0, hctl1, hmctl, hrxie, hrxifg, htxifg, (congrArg State.br0 hu :),
    (congrArg State.br1 hu :), (congrArg State.pinsSelected hu :).trans hi.pins,
    (congrArg State.gie hu :).trans (congrArg State.gie hi.frame :), ?_⟩
  obtain ⟨_, hie2, hifg2, hpsel, hpsel2⟩ : _ ∧ _ ∧ _ ∧ _ ∧ _ := by
    simpa only [State.foreignBits, Prod.mk.injEq] using hforeign
  simpa [State.regValue] using ⟨hie2, hifg2, hpsel, hpsel2⟩

/-- Settles O14: the rows by evaluation, and no row where an argument names no baud or no speed. -/
theorem baudTableRows : Obligations.BaudTableRows := by
  refine ⟨rfl, rfl, rfl, rfl, rfl, rfl, rfl, rfl, fun b c h => ⟨?_, ?_⟩⟩
  · by_contra hb
    obtain ⟨h0, h1⟩ := not_or.mp hb
    exact h (lookup_of_baudOf_none (baudOf_of_ne h0 h1))
  · by_contra hc
    obtain ⟨h1, hc⟩ := not_or.mp hc
    obtain ⟨h8, h16⟩ := not_or.mp hc
    exact h (lookup_of_speedOf_none (speedOf_of_ne h1 h8 h16))

/-- Settles O15: by evaluation of each of the six rows. -/
theorem divisorIsClockOverBaud : Obligations.DivisorIsClockOverBaud := by
  intro b k
  cases b <;> cases k <;> rfl

end Sys2Proof.Machine
end

section
/-! PROOFS. TX_OVERWRITE cannot arise under DECLARED (O58), and TXWRITE in PUTCH, PUT_STR and the echo (O22 to O25). -/

namespace Sys2Proof.Machine

open Sys2Proof

section Transmitter

variable {s t : State} {m : Micro} {who : Writer} {v : Byte} {done : State → State}

/-! ### The wait and TXWRITE, by case -/

theorem waitTx_of_txifg (h : s.txifg = true) : waitTx m s = { s with mu := m } := if_pos h

theorem waitTx_of_not_txifg (h : s.txifg = false) : waitTx m s = s := if_neg (by simp [h])

/-- TXWRITE while TXBUF is full (R150, R152). -/
theorem txWrite_of_not_txifg (h : s.txifg = false) : txWrite who v done s = s.raise (.txOverwrite v who) :=
  if_neg (by simp [h])

/-- TXWRITE out of reset while TXBUF is empty (R150). -/
theorem txWrite_of_not_swrst (h : s.txifg = true) (hr : s.swrst = false) :
    txWrite who v done s = done (s.storeTxbuf v) := by
  simp [txWrite, h, hr]

/-- What a draw between Hold and Discard leaves in TXBUF and TXIFG (R151). -/
structure HeldOrDiscarded (v : Byte) (s t : State) : Prop where
  outcome : (t.txbuf = v ∧ t.txifg = false ∧ t.rxifg = s.rxifg) ∨ (t.txbuf = s.txbuf ∧ t.ifg2 = s.ifg2)
  frame : t = { s with txbuf := t.txbuf, ifg2 := t.ifg2, draws := s.draws + 1 }

/-- TXWRITE under reset while TXBUF is empty (R151). -/
theorem txWrite_of_swrst (h : s.txifg = true) (hr : s.swrst = true) (who : Writer) (v : Byte) (done : State → State) :
    ∃ t, HeldOrDiscarded v s t ∧ txWrite who v done s = done t := by
  rcases txWrite_cases who v done s with ⟨hf, _⟩ | ⟨_, hf, _⟩ | ⟨_, _, hw | hw⟩
  · exact nomatch h.symm.trans hf
  · exact nomatch hr.symm.trans hf
  · exact ⟨_, ⟨.inl ⟨rfl, s.drawn.storeTxbuf_txifg v, s.drawn.storeTxbuf_rxifg v⟩, rfl⟩, hw⟩
  · exact ⟨s.drawn, ⟨.inr ⟨rfl, rfl⟩, rfl⟩, hw⟩

/-- While TXBUF is empty TXWRITE records no fault: what follows it acts on a state in which at most TXBUF, TXIFG and the
count of free values have changed, the same wherever FG is and whatever follows (R150, R151). -/
theorem txWrite_uniform (h : s.txifg = true) (who : Writer) (v : Byte) :
    ∃ b f n, ∀ (m : Micro) (done : State → State),
      txWrite who v done { s with mu := m } = done { s with mu := m, txbuf := b, ifg2 := f, draws := n } := by
  have ht (m : Micro) : ({ s with mu := m } : State).txifg = true := h
  cases hr : s.swrst with
  | false => exact ⟨v, withBit s.ifg2 1 false, s.draws, fun m _ => txWrite_of_not_swrst (ht m) hr⟩
  | true =>
    have hr' (m : Micro) : ({ s with mu := m } : State).swrst = true := hr
    cases hd : Config.freeBool s.draws with
    | true =>
      refine ⟨v, withBit s.ifg2 1 false, s.draws + 1, fun m done => ?_⟩
      simp [txWrite, ht, hr', hd, State.drawn, State.storeTxbuf]
    | false =>
      refine ⟨s.txbuf, s.ifg2, s.draws + 1, fun m done => ?_⟩
      simp [txWrite, ht, hr', hd, State.drawn]

/-- A wait asks for TXIFG alone: from two places of FG it leaves the same state but for FG's place, and passes from both or
from neither (R150, R153). -/
theorem waits_agree (m m' k k' : Micro) (s : State) (hm : m ≠ k) (hm' : m' ≠ k') :
    { waitTx k { s with mu := m } with pc := 0, mu := .idle } =
        { waitTx k' { s with mu := m' } with pc := 0, mu := .idle } ∧
      ((waitTx k { s with mu := m }).mu = k ↔ (waitTx k' { s with mu := m' }).mu = k') := by
  have ht (n : Micro) : ({ s with mu := n } : State).txifg = s.txifg := rfl
  cases h : s.txifg with
  | true =>
    rw [waitTx_of_txifg ((ht m).trans h), waitTx_of_txifg ((ht m').trans h)]
    exact ⟨rfl, iff_of_true rfl rfl⟩
  | false =>
    rw [waitTx_of_not_txifg ((ht m).trans h), waitTx_of_not_txifg ((ht m').trans h)]
    exact ⟨rfl, iff_of_false hm hm'⟩

/-! ### The operations that write TXBUF, by micro-step -/

theorem exec_putch_of_idle (h : s.mu = .idle) : exec (.putch v) s = .next (waitTx .putchWrite s) := by
  rw [exec, execPutch, h]

theorem exec_putch_of_putchWrite (h : s.mu = .putchWrite) :
    exec (.putch v) s = .next (txWrite .fg v State.advance s) := by
  rw [exec, execPutch, h]

theorem exec_rxIsr_of_echo (hi : s.inIsr = true) (h : s.imu = .echo v) : exec .rxIsr s = .next (isrEcho v s) := by
  rw [exec, execRxIsr, if_pos hi, h]

/-- PUT_STR (2) by what stands at its address (R153, R72, R76). -/
theorem strRead_of_wrap {addr : Half} {i : Nat} (h : addrSpace ≤ addr.toNat + i) :
    strRead addr i s = s.raise (.strWrap addr i) :=
  if_neg (Nat.not_lt.mpr h)

theorem strRead_of_unadmitted {addr : Half} {i : Nat} (h : addr.toNat + i < addrSpace)
    (hm : memRead s.mem (addr.toNat + i) = none) : strRead addr i s = s := by
  simp [strRead, strAddr, h, hm]

theorem strRead_of_zero {addr : Half} {i : Nat} (h : addr.toNat + i < addrSpace)
    (hm : memRead s.mem (addr.toNat + i) = some 0x00#8) : strRead addr i s = s.advance := by
  simp [strRead, strAddr, h, hm]

theorem strRead_of_byte {addr : Half} {i : Nat} {c : Byte} (h : addr.toNat + i < addrSpace)
    (hm : memRead s.mem (addr.toNat + i) = some c) (hc : c ≠ 0x00#8) :
    strRead addr i s = { s with mu := .strWait i c } := by
  simp [strRead, strAddr, h, hm, hc]

/-! ### FG about to write TXBUF -/

/-- The micro-steps that write TXBUF without waiting (R150, R153). -/
def Micro.writes : Micro → Bool
  | .putchWrite => true
  | .strWrite _ _ => true
  | _ => false

theorem Micro.writes_iff (m : Micro) : m.writes = true ↔ m = .putchWrite ∨ ∃ i c, m = .strWrite i c := by
  cases m <;> simp [Micro.writes]

/-- Where FG is about to write TXBUF, the buffer is empty: `DeclaredWriteInv` without its contract. -/
def State.WriteSafe (s : State) : Prop := s.mu.writes = true → s.txifg = true

theorem declaredWriteInv_iff (hc : s.contract = .declared) : DeclaredWriteInv s ↔ s.WriteSafe := by
  simp only [DeclaredWriteInv, State.WriteSafe, Micro.writes_iff, hc, true_imp_iff]

theorem State.WriteSafe.congr (h : s.WriteSafe) (hm : t.mu = s.mu) (ht : t.txifg = s.txifg) : t.WriteSafe := by
  unfold State.WriteSafe
  rw [hm, ht]
  exact h

theorem waitTx_writeSafe (m : Micro) (h : s.WriteSafe) : (waitTx m s).WriteSafe := by
  rcases waitTx_cases m s with ⟨ht, hw⟩ | ⟨_, hw⟩ <;> rw [hw]
  · exact fun _ => ht
  · exact h

theorem txWrite_writeSafe (h : s.WriteSafe) (hd : ∀ u, (done u).mu.writes = false) :
    (txWrite who v done s).WriteSafe := by
  rcases txWrite_frame who v done s with hw | ⟨_, _, _, _, hw⟩ <;> rw [hw]
  · exact h
  · exact fun hm => nomatch (hd _).symm.trans hm

theorem strRead_writeSafe (addr : Half) (i : Nat) (h : s.WriteSafe) : (strRead addr i s).WriteSafe := by
  rcases strRead_cases addr i s with ⟨_, hr⟩ | ⟨_, _, hr⟩ | ⟨_, _, hr⟩ | ⟨_, _, _, _, hr⟩ <;> rw [hr]
  · exact h
  · exact h
  · exact nofun
  · exact nofun

/-- Every operation of a program keeps it: a wait passes only where TXBUF is empty, and no other micro-step goes on to a
write (R150, R153). -/
theorem exec_writeSafe {i : Instr} (hi : i.inProgram = true) (hx : exec i s = .next t) (h : s.WriteSafe) :
    t.WriteSafe := by
  cases i with
  | setClock k => rcases execSetClock_cases hx with ⟨_, rfl⟩ | ⟨_, _, rfl⟩ <;> exact nofun
  | initUart b c =>
    rcases execInitUart_cases hx with ⟨_, rfl⟩ | ⟨_, rfl⟩ | ⟨_, rfl⟩ | ⟨_, rfl⟩ | ⟨_, rfl⟩ | ⟨_, rfl⟩ | ⟨_, rfl⟩
    · exact nofun
    · exact nofun
    · exact nofun
    · obtain ⟨_, _, _, _, h5⟩ := initStep5_frame b c s
      rw [h5]
      exact nofun
    · exact nofun
    · exact nofun
    · exact nofun
  | uninitUart =>
    rw [exec, execUninitUart_eq] at hx
    cases hx
    exact nofun
  | putch b =>
    rcases execPutch_cases hx with ⟨_, rfl⟩ | ⟨_, rfl⟩
    · exact txWrite_writeSafe h fun _ => rfl
    · exact waitTx_writeSafe _ h
  | putStr addr =>
    rcases execPutStr_cases hx with ⟨i, _, rfl⟩ | ⟨i, c, _, rfl⟩ | ⟨i, c, _, rfl⟩ | rfl
    · exact strRead_writeSafe addr i h
    · exact waitTx_writeSafe _ h
    · exact txWrite_writeSafe h fun _ => rfl
    · exact nofun
  | uartRx block =>
    rcases execUartRx_cases hx with ⟨_, ⟨_, rfl⟩ | ⟨_, _, rfl⟩ | ⟨_, _, _, rfl⟩ | ⟨_, _, _, rfl⟩⟩ |
      ⟨_, ⟨_, _, rfl⟩ | ⟨_, _, rfl⟩ | ⟨_, rfl⟩⟩
    · exact nofun
    · exact h
    · exact nofun
    · exact nofun
    · exact nofun
    · exact h
    · exact nofun
  | rxIsr => cases hi

/-- Under DECLARED the handler never echoes, so it leaves TXIFG as it is and records no fault (R186). -/
theorem execRxIsr_declared (hc : s.contract = .declared) (hv : InterruptInv s) (hx : execRxIsr s = .next t) :
    t.txifg = s.txifg ∧ t.faults = s.faults := by
  obtain ⟨_, _, _, himu⟩ := hv
  rcases execRxIsr_cases hx with ⟨_, _, rfl⟩ | ⟨b, hi, hb, _⟩ | ⟨_, _, rfl⟩ | ⟨_, _, rfl⟩ | ⟨_, _, rfl⟩
  · exact ⟨s.readRxbuf_txifg, rfl⟩
  · rcases himu hi hc with h | h <;> exact nomatch hb.symm.trans h
  · unfold State.returnIrq
    split <;> exact ⟨rfl, rfl⟩
  · exact ⟨rfl, rfl⟩
  · exact ⟨rfl, rfl⟩

theorem txeStep_writeSafe (h : s.WriteSafe) : (txeStep s).WriteSafe := by
  rcases txeStep_cases s with ⟨_, _, _, ht⟩ | ⟨_, _, _, ht⟩ | ⟨_, ht⟩ <;> rw [ht]
  · exact h
  · exact fun _ => txLoad_txifg s
  · exact h

theorem rxArrive_txifg (b : Byte) (s : State) : (rxArrive b s).txifg = s.txifg := by
  rcases rxArrive_cases b s with ⟨_, _, h⟩ | ⟨v, _, _, h⟩ | ⟨_, h⟩ <;> rw [h]
  · exact s.land_txifg b
  · exact s.land_txifg v

/-- Under DECLARED no agent but FG writes TXBUF, and TXE only empties it. -/
theorem AgentStep.writeSafe {e : Event} (ha : AgentStep e s t) (hc : s.contract = .declared) (hv : InterruptInv s)
    (h : s.WriteSafe) : t.WriteSafe := by
  cases ha with
  | fgHeld => exact h
  | fgRefused => exact h
  | fgOp _ _ hd hx => exact exec_writeSafe (inProgram_of_decodeProgramWord hd) hx h
  | isr hx => exact h.congr (execRxIsr_keeps_place hv hx).right (execRxIsr_declared hc hv hx).left
  | txe => exact txeStep_writeSafe h
  | arrive b => exact h.congr (congrArg State.mu (rxArrive_frame b s) :) (rxArrive_txifg b s)
  | app on =>
    rw [appGie_frame]
    exact h
  | outside r v =>
    rw [State.outsideWrite_frame]
    exact h
  | outsideHeld => exact h

/-! ### The faults a step may record -/

/-- A step that records at most STR_WRAP. -/
def RecordsNoOverwrite (s t : State) : Prop := t.faults = s.faults ∨ ∃ a i, t.faults = s.faults ++ [.strWrap a i]

theorem RecordsNoOverwrite.not_mem (h : RecordsNoOverwrite s t) (hf : s.faults = []) (b : Byte) (w : Writer) :
    Fault.txOverwrite b w ∉ t.faults := by
  rcases h with h | ⟨a, i, h⟩ <;> simp [h, hf]

theorem waitTx_faults (m : Micro) (s : State) : (waitTx m s).faults = s.faults := by
  rcases waitTx_cases m s with ⟨_, h⟩ | ⟨_, h⟩ <;> rw [h]

theorem txWrite_faults (h : s.txifg = true) (hd : ∀ u, (done u).faults = u.faults) :
    (txWrite who v done s).faults = s.faults := by
  obtain ⟨_, _, _, hw⟩ := txWrite_uniform h who v
  exact (congrArg State.faults (hw s.mu done)).trans (hd _)

/-- FG's operations record TX_OVERWRITE only where FG is about to write a full TXBUF (R152, R212). -/
theorem exec_recordsNoOverwrite {i : Instr} (hi : i.inProgram = true) (hx : exec i s = .next t) (h : s.WriteSafe) :
    RecordsNoOverwrite s t := by
  cases i with
  | setClock k => exact .inl (congrArg State.faults (execSetClock_frame hx) :)
  | initUart b c => exact .inl (congrArg State.faults (execInitUart_frame hx) :)
  | uninitUart => exact .inl (congrArg State.faults (execUninitUart_frame hx) :)
  | putch b =>
    rcases execPutch_cases hx with ⟨hm, rfl⟩ | ⟨_, rfl⟩
    · exact .inl (txWrite_faults (h (by rw [hm]; rfl)) fun _ => rfl)
    · exact .inl (waitTx_faults _ _)
  | putStr addr =>
    rcases execPutStr_cases hx with ⟨i, _, rfl⟩ | ⟨i, c, _, rfl⟩ | ⟨i, c, hm, rfl⟩ | rfl
    · rcases strRead_cases addr i s with ⟨_, hr⟩ | ⟨_, _, hr⟩ | ⟨_, _, hr⟩ | ⟨_, _, _, _, hr⟩ <;> rw [hr]
      · exact .inr ⟨addr, i, rfl⟩
      · exact .inl rfl
      · exact .inl rfl
      · exact .inl rfl
    · exact .inl (waitTx_faults _ _)
    · exact .inl (txWrite_faults (h (by rw [hm]; rfl)) fun _ => rfl)
    · exact .inl rfl
  | uartRx block => exact .inl (congrArg State.faults (execUartRx_frame hx) :)
  | rxIsr => cases hi

/-- Under DECLARED FG alone may record a fault (R186, R212). -/
theorem AgentStep.recordsNoOverwrite {e : Event} (ha : AgentStep e s t) (hc : s.contract = .declared)
    (hv : InterruptInv s) (h : s.WriteSafe) : RecordsNoOverwrite s t := by
  rcases ha.operation_or_frame with ⟨_, _, _, _, _, hi, hx⟩ | ⟨_, hx⟩ | ht
  · exact exec_recordsNoOverwrite hi hx h
  · exact .inl (execRxIsr_declared hc hv hx).right
  · exact .inl (congrArg State.faults ht :)

end Transmitter

/-! ### The obligations -/

/-- Settles O58: FG writes TXBUF only after its own wait has passed, and under DECLARED no one else writes it. -/
theorem declaredNeverOverwrites : Obligations.DeclaredNeverOverwrites := by
  intro s t hc hv hinv h
  have hsafe : s.WriteSafe := (declaredWriteInv_iff hc).mp hinv
  obtain ⟨_, _, _, hct, _⟩ := launchDataKept s t h
  obtain ⟨hf, ⟨_, _, rfl⟩ | ⟨_, _, ha⟩⟩ := step_agent h
  · exact ⟨hinv, RecordsNoOverwrite.not_mem (.inl rfl) hf⟩
  · exact ⟨(declaredWriteInv_iff (hct.trans hc)).mpr (ha.writeSafe hc hv hsafe),
      (ha.recordsNoOverwrite hc hv hsafe).not_mem hf⟩

/-- Settles O22: the wait, and TXWRITE by its three cases. -/
theorem putchMicroSteps : Obligations.PutchMicroSteps := by
  intro b s
  refine ⟨fun hm => ⟨fun ht => ?_, fun ht => ?_⟩, fun hm ht hr => ?_, fun hm ht hr => ?_, fun hm ht => ?_⟩
  · rw [exec_putch_of_idle hm, waitTx_of_txifg ht]
  · rw [exec_putch_of_idle hm, waitTx_of_not_txifg ht]
  · rw [exec_putch_of_putchWrite hm, txWrite_of_not_swrst ht hr]
    exact ⟨_, rfl, rfl, s.storeTxbuf_txifg b, s.storeTxbuf_rxifg b, rfl⟩
  · obtain ⟨u, hu, hw⟩ := txWrite_of_swrst ht hr .fg b State.advance
    rw [exec_putch_of_putchWrite hm, hw]
    exact ⟨_, rfl, hu.outcome, congrArg State.advance hu.frame⟩
  · rw [exec_putch_of_putchWrite hm, txWrite_of_not_txifg ht]
    rfl

/-- Settles O23: the three writers of TXBUF write it by TXWRITE. -/
theorem overwriteIsFault : Obligations.OverwriteIsFault := by
  intro s ht
  refine ⟨fun b hm => ?_, fun a i c hm => ?_, fun b hi hm => ?_⟩
  · exact (exec_putch_of_putchWrite hm).trans (congrArg _ (txWrite_of_not_txifg ht))
  · exact (execPutStr_of_strWrite hm).trans (congrArg _ (txWrite_of_not_txifg ht))
  · exact (exec_rxIsr_of_echo hi hm).trans (congrArg _ (txWrite_of_not_txifg ht))

/-- Settles O24: the read by what stands at the address, the wait, and TXWRITE by its three cases. -/
theorem putStrMicroSteps : Obligations.PutStrMicroSteps := by
  intro addr s
  refine ⟨fun hm => execPutStr_of_idle hm, fun i hm => ⟨fun h => ?_, fun h => ⟨fun hr => ?_, fun hr => ?_, ?_⟩⟩,
    fun i c hm => ⟨fun ht => ?_, fun ht => ?_⟩, fun i c hm ht hr => ?_, fun i c hm ht hr => ?_, fun i c hm ht => ?_⟩
  · exact (execPutStr_of_strRead hm).trans (congrArg _ (strRead_of_wrap h))
  · exact (execPutStr_of_strRead hm).trans (congrArg _ (strRead_of_unadmitted (Nat.lt_succ_of_le h) hr))
  · exact (execPutStr_of_strRead hm).trans (congrArg _ (strRead_of_zero (Nat.lt_succ_of_le h) hr))
  · exact fun c hr hc => (execPutStr_of_strRead hm).trans (congrArg _ (strRead_of_byte (Nat.lt_succ_of_le h) hr hc))
  · exact (execPutStr_of_strWait hm).trans (congrArg _ (waitTx_of_txifg ht))
  · exact (execPutStr_of_strWait hm).trans (congrArg _ (waitTx_of_not_txifg ht))
  · exact (execPutStr_of_strWrite hm).trans (congrArg _ (txWrite_of_not_swrst ht hr))
  · obtain ⟨u, hu, hw⟩ := txWrite_of_swrst ht hr .fg c fun t => { t with mu := .strRead (i + 1) }
    exact ⟨_, (execPutStr_of_strWrite hm).trans (congrArg _ hw), hu.outcome,
      congrArg (fun t : State => { t with mu := .strRead (i + 1) }) hu.frame⟩
  · exact (execPutStr_of_strWrite hm).trans (congrArg _ (txWrite_of_not_txifg ht))

/-- Settles O25: the wait asks for TXIFG alone, and TXWRITE acts the same wherever FG is and whatever follows it. -/
theorem putStrSendsLikePutch : Obligations.PutStrSendsLikePutch := by
  intro addr i c s
  obtain ⟨hwait, hpass⟩ := waits_agree (.strWait i c) .idle (.strWrite i c) .putchWrite s nofun nofun
  refine ⟨_, _, _, _, execPutStr_of_strWait (addr := addr) (s := { s with mu := .strWait i c }) rfl,
    exec_putch_of_idle rfl, hwait, hpass,
    execPutStr_of_strWrite (addr := addr) (s := { s with mu := .strWrite i c }) rfl, exec_putch_of_putchWrite rfl, ?_⟩
  cases ht : s.txifg with
  | true =>
    obtain ⟨b, f, n, hw⟩ := txWrite_uniform ht .fg c
    rw [hw, hw]
    exact ⟨rfl, iff_of_true rfl rfl⟩
  | false =>
    have hfull (m : Micro) : ({ s with mu := m } : State).txifg = false := ht
    rw [txWrite_of_not_txifg (hfull (.strWrite i c)), txWrite_of_not_txifg (hfull .putchWrite)]
    exact ⟨rfl, iff_of_false nofun nofun⟩

end Sys2Proof.Machine
end

section
/-! PROOFS. The transmit engine's steps (O27, O28), what a step may do to the transmit path (O29 to O31), and the bits
of a frame (O32). -/

namespace Sys2Proof.Machine

open Sys2Proof

section Engine

variable {s t : State} {e : Event} {es : List Event} {f : ShiftFrame}

/-! ### TXE's step, by case -/

theorem State.engineOn_iff : s.engineOn = true ↔ s.swrst = false ∧ (s.ssel = 0b10#2 ∨ s.ssel = 0b11#2) := by
  simp [State.engineOn]

/-- SSEL has four values, so the engines are off under reset and with the two of them that name no running source. -/
theorem State.engineOn_eq_false_iff :
    s.engineOn = false ↔ s.swrst = true ∨ s.ssel = 0b00#2 ∨ s.ssel = 0b01#2 := by
  have hvalues (v : BitVec 2) : ¬ (v = 0b10#2 ∨ v = 0b11#2) ↔ v = 0b00#2 ∨ v = 0b01#2 := by
    revert v
    decide
  rw [← Bool.not_eq_true, State.engineOn_iff, not_and_or, hvalues, Bool.not_eq_false]

theorem txeStep_of_engineOff (h : s.engineOn = false) : txeStep s = s := if_neg (by simp [h])

theorem txeStep_of_shift_some (h : s.engineOn = true) (hs : s.shift = some f) : txeStep s = txEmit f s := by
  rw [txeStep, if_pos h, hs]

theorem txeStep_of_txifg (hs : s.shift = none) (ht : s.txifg = true) : txeStep s = s := by
  simp [txeStep, hs, ht]

theorem txeStep_of_not_txifg (h : s.engineOn = true) (hs : s.shift = none) (ht : s.txifg = false) :
    txeStep s = txLoad s := by
  simp [txeStep, h, hs, ht]

/-- When TXE's step comes, it acts on the state that has passed the event (R14). -/
theorem State.atEvent.step_txe (h : s.atEvent (.move .txe) es) : step s = .next (txeStep { s with sched := es }) := by
  obtain ⟨hf, hb, hs⟩ := h
  exact step_of_sched hf hb hs

/-- TXE's event passes without a step where the engine is off (R160 to R162). -/
theorem State.atEvent.step_txe_off (h : s.atEvent (.move .txe) es) (ho : s.engineOn = false) :
    step s = .next { s with sched := es } :=
  h.step_txe.trans (congrArg _ (txeStep_of_engineOff ho))

/-- TX_EMIT puts on the line what `wireOf` says (R161). -/
theorem State.atEvent.step_emit (h : s.atEvent (.move .txe) es) (ho : s.engineOn = true) (hs : s.shift = some f) :
    step s = .next { s with sched := es, shift := none, txline := s.txline ++ [s.wireOf f] } :=
  h.step_txe.trans (congrArg _ (txeStep_of_shift_some ho hs))

theorem State.wireOf_frame {c : LineCfg} (hok : f.ok = true) (hr : s.rateOk = true) (hc : s.cfg = some c) :
    s.wireOf f = .frame f.byte c.baud := by
  simp [State.wireOf, hok, hr, hc]

theorem State.wireOf_unreliable (h : f.ok = false ∨ s.rateOk = false) : s.wireOf f = .unreliable := by
  unfold State.wireOf
  rcases h with h | h <;> cases s.cfg <;> simp [h]

/-! ### Reset meets the transmit path -/

/-- What INIT_UART's first micro-step and UNINIT_UART do to the transmit path: the reset hold empties it, and for a frame
in SHIFT puts one wire frame on the line (R162). -/
structure ResetsPath (s t : State) : Prop where
  swrst : t.swrst = true
  txifg : t.txifg = true
  shift : t.shift = none
  txline_of_none : s.shift = none → t.txline = s.txline
  txline_of_some : ∀ f, s.shift = some f → t.txline = s.txline ++ [.aborted] ∨ t.txline = s.txline ++ [s.wireOf f]

theorem State.setSwrst_resetsPath (s : State) : ResetsPath s s.setSwrst :=
  ⟨s.setSwrst_swrst, s.setSwrst_txifg, s.setSwrst_shift, State.setSwrst_txline_of_shift_none,
    fun _ hf => (State.abortShift_txline_of_shift_some hf).left⟩

theorem initStep1_resetsPath (s : State) : ResetsPath s (initStep1 s) :=
  ⟨s.setSwrst_swrst, s.setSwrst_txifg, s.setSwrst_shift, s.setSwrst_resetsPath.txline_of_none,
    s.setSwrst_resetsPath.txline_of_some⟩

/-- What SHIFT shows does not depend on SSEL, which UNINIT_UART writes before the reset. -/
theorem uninitRun_resetsPath (s : State) : ResetsPath s (uninitRun s) :=
  ⟨State.setSwrst_swrst _, State.setSwrst_txifg _, State.setSwrst_shift _,
    (s.setSsel 0b00#2).setSwrst_resetsPath.txline_of_none, (s.setSsel 0b00#2).setSwrst_resetsPath.txline_of_some⟩

theorem exec_resetsPath {i : Instr} (h : i = .uninitUart ∨ ∃ b c, i = .initUart b c ∧ s.mu = .idle) :
    ∃ t, exec i s = .next t ∧ ResetsPath s t := by
  rcases h with rfl | ⟨b, c, rfl, hm⟩
  · exact ⟨_, execUninitUart_eq s, uninitRun_resetsPath s⟩
  · exact ⟨_, exec_initUart_of_idle hm, initStep1_resetsPath s⟩

theorem ResetsPath.pending (h : ResetsPath s t) : t.pending = [] := by
  simp [State.pending, h.shift, h.txifg]

/-! ### What a step may do to the transmit path -/

/-- What the transmit path holds, SHIFT_OK apart, and the line. -/
def State.path (s : State) : Option Byte × Bool × Byte × List Wire :=
  (s.shift.map ShiftFrame.byte, s.txifg, s.txbuf, s.txline)

/-- Everything a step may do to the transmit path, and the event that lets it (R160 to R165). -/
inductive PathStep (e : Event) (s t : State) : Prop where
  | keep (hp : t.pending = s.pending) (hl : t.txline = s.txline)
  | accept (ht : s.txifg = true) (hp : t.pending = s.pending ++ [t.txbuf]) (hl : t.txline = s.txline)
  | emit (he : e = .move .txe) {f : ShiftFrame} (hf : s.shift = some f) (hs : t.shift = none)
      (hp : s.pending = f.byte :: t.pending) (hl : t.txline = s.txline ++ [s.wireOf f])
  | reset (he : e = .move .fg) {w : Word} (hf : s.fetch = some w)
      (hd : decodeProgramWord w = .ok .uninitUart ∨ ∃ b c, decodeProgramWord w = .ok (.initUart b c))
      (h : ResetsPath s t)

theorem State.of_path_eq (h : t.path = s.path) : t.pending = s.pending ∧ t.txbuf = s.txbuf ∧ t.txline = s.txline := by
  obtain ⟨hs, ht, hb, hl⟩ : t.shift.map ShiftFrame.byte = s.shift.map ShiftFrame.byte ∧ t.txifg = s.txifg ∧
      t.txbuf = s.txbuf ∧ t.txline = s.txline := by
    simpa only [State.path, Prod.mk.injEq] using h
  exact ⟨by rw [State.pending, hs, ht, hb, ← State.pending], hb, hl⟩

theorem PathStep.of_path_eq (h : t.path = s.path) : PathStep e s t := by
  obtain ⟨hp, _, hl⟩ := State.of_path_eq h
  exact .keep hp hl

/-- An accepted byte is the youngest of the path (R150, R164). -/
theorem PathStep.of_store {v : Byte} (ht : s.txifg = true) (h : t.path = (s.storeTxbuf v).path) : PathStep e s t := by
  obtain ⟨hp, hb, hl⟩ := State.of_path_eq h
  refine .accept ht ?_ hl
  rw [hp, hb]
  simp [State.pending, ht]

/-- TXWRITE adds its byte at the end, or under reset drops it, or faults (R150, R151). -/
theorem txWrite_pathStep (who : Writer) (v : Byte) {done : State → State} (s : State)
    (hd : ∀ u, (done u).path = u.path) : PathStep e s (txWrite who v done s) := by
  rcases txWrite_cases who v done s with ⟨_, h⟩ | ⟨ht, _, h⟩ | ⟨ht, _, h | h⟩ <;> rw [h]
  · exact .of_path_eq rfl
  · exact .of_store ht (hd _)
  · exact .of_store ht (hd _)
  · exact .of_path_eq (hd _)

theorem waitTx_path (m : Micro) (s : State) : (waitTx m s).path = s.path := by
  rcases waitTx_cases m s with ⟨_, h⟩ | ⟨_, h⟩ <;> exact (congrArg State.path h :)

theorem strRead_path (addr : Half) (i : Nat) (s : State) : (strRead addr i s).path = s.path := by
  rcases strRead_cases addr i s with ⟨_, h⟩ | ⟨_, _, h⟩ | ⟨_, _, h⟩ | ⟨_, _, _, _, h⟩ <;>
    exact (congrArg State.path h :)

/-- SET_CLOCK disturbs a frame in SHIFT, but keeps its byte (R161). -/
theorem execSetClock_path {v : Byte} (h : exec (.setClock v) s = .next t) : t.path = s.path := by
  rcases execSetClock_cases h with ⟨_, rfl⟩ | ⟨_, _, rfl⟩
  · rfl
  · exact congrArg (·, s.txifg, s.txbuf, s.txline) (Option.map_map ..)

/-- After its first micro-step INIT_UART leaves the transmit path alone. -/
theorem execInitUart_path {b c : Byte} (h : exec (.initUart b c) s = .next t) :
    t.path = s.path ∨ ResetsPath s t := by
  rcases execInitUart_cases h with ⟨_, rfl⟩ | ⟨_, rfl⟩ | ⟨_, rfl⟩ | ⟨_, rfl⟩ | ⟨_, rfl⟩ | ⟨_, rfl⟩ | ⟨_, rfl⟩
  · exact .inl rfl
  · exact .inl rfl
  · exact .inl rfl
  · obtain ⟨_, _, _, _, h5⟩ := initStep5_frame b c s
    rw [h5]
    exact .inl rfl
  · exact .inl rfl
  · exact .inl rfl
  · exact .inr (initStep1_resetsPath s)

theorem exec_pathStep {w : Word} {i : Instr} (hf : s.fetch = some w) (hd : decodeProgramWord w = .ok i)
    (hx : exec i s = .next t) : PathStep (.move .fg) s t := by
  cases i with
  | setClock v => exact .of_path_eq (execSetClock_path hx)
  | initUart b c =>
    rcases execInitUart_path hx with h | h
    · exact .of_path_eq h
    · exact .reset rfl hf (.inr ⟨b, c, hd⟩) h
  | uninitUart =>
    rw [exec, execUninitUart_eq] at hx
    cases hx
    exact .reset rfl hf (.inl hd) (uninitRun_resetsPath s)
  | putch v =>
    rcases execPutch_cases hx with ⟨_, rfl⟩ | ⟨_, rfl⟩
    · exact txWrite_pathStep .fg v s fun _ => rfl
    · exact .of_path_eq (waitTx_path _ s)
  | putStr addr =>
    rcases execPutStr_cases hx with ⟨i, _, rfl⟩ | ⟨i, c, _, rfl⟩ | ⟨i, c, _, rfl⟩ | rfl
    · exact .of_path_eq (strRead_path addr i s)
    · exact .of_path_eq (waitTx_path _ s)
    · exact txWrite_pathStep .fg c s fun _ => rfl
    · exact .of_path_eq rfl
  | uartRx block => exact .of_path_eq (congrArg State.path (execUartRx_frame hx) :)
  | rxIsr => exact nomatch inProgram_of_decodeProgramWord hd

/-- The handler touches the transmit path by its echo alone (R186, R187). -/
theorem execRxIsr_pathStep (hx : execRxIsr s = .next t) : PathStep e s t := by
  rcases execRxIsr_cases hx with ⟨_, _, rfl⟩ | ⟨b, _, _, rfl⟩ | ⟨_, _, rfl⟩ | ⟨_, _, rfl⟩ | ⟨_, _, rfl⟩
  · exact .of_path_eq (congrArg (fun b => (_, b, _, _)) s.readRxbuf_txifg)
  · exact txWrite_pathStep .isr b s fun _ => rfl
  · unfold State.returnIrq
    split <;> exact .of_path_eq rfl
  · exact .of_path_eq rfl
  · exact .of_path_eq rfl

/-- TX_LOAD moves the byte from TXBUF to SHIFT, TX_EMIT sends the one in SHIFT (R160, R161). -/
theorem txeStep_pathStep (s : State) : PathStep (.move .txe) s (txeStep s) := by
  rcases txeStep_cases s with ⟨f, _, hf, h⟩ | ⟨_, hn, ht, h⟩ | ⟨_, h⟩ <;> rw [h]
  · refine .emit rfl hf rfl ?_ rfl
    rw [State.pending, hf]
    rfl
  · refine .keep ?_ rfl
    rw [State.pending, txLoad_txifg, State.pending, hn, ht]
    rfl
  · exact .of_path_eq rfl

theorem AgentStep.pathStep (ha : AgentStep e s t) : PathStep e s t := by
  cases ha with
  | fgHeld => exact .of_path_eq rfl
  | fgRefused => exact .of_path_eq rfl
  | fgOp _ hf hd hx => exact exec_pathStep hf hd hx
  | isr hx => exact execRxIsr_pathStep hx
  | txe => exact txeStep_pathStep s
  | arrive b =>
    refine .of_path_eq ?_
    rw [State.path, rxArrive_txifg, rxArrive_frame]
    rfl
  | app on => exact .of_path_eq (congrArg State.path (appGie_frame on s) :)
  | outside r v => exact .of_path_eq (congrArg State.path (State.outsideWrite_frame r v s) :)
  | outsideHeld => exact .of_path_eq rfl

/-- Everything a step may do to the transmit path: passing the event touches nothing the path depends on. -/
theorem step_pathStep (h : step s = .next t) : PathStep s.nextEvent.1 s t := by
  obtain ⟨_, ⟨_, _, rfl⟩ | ⟨es, n, ha⟩⟩ := step_agent h
  · exact .of_path_eq rfl
  · cases ha.pathStep with
    | keep hp hl => exact .keep hp hl
    | accept ht hp hl => exact .accept ht hp hl
    | emit he hf hs hp hl => exact .emit he hf hs hp hl
    | reset he hf hd hr => exact .reset he hf hd ⟨hr.swrst, hr.txifg, hr.shift, hr.txline_of_none, hr.txline_of_some⟩

/-! ### The bits of a frame -/

/-- Bit `j` of the value of a list of bits is the list's bit `j`. -/
theorem testBit_bitsValue (ds : List Bool) (j : Nat) : (bitsValue ds).testBit j = ds.getD j false := by
  induction ds generalizing j with
  | nil => simp [bitsValue]
  | cons d ds ih =>
    rw [bitsValue, show d.toNat + 2 * bitsValue ds = Nat.bit d (bitsValue ds) by rw [Nat.bit_val, Nat.add_comm]]
    cases j with
    | zero => exact Nat.testBit_bit_zero d _
    | succ j => exact (Nat.testBit_bit_succ j d _).trans (ih j)

theorem bitsValue_lt (ds : List Bool) : bitsValue ds < 2 ^ ds.length := by
  induction ds with
  | nil => exact Nat.one_pos
  | cons d ds ih =>
    have hd : d.toNat < 2 := d.toNat_lt
    rw [bitsValue, List.length_cons, Nat.pow_succ]
    omega

theorem bit_ofNat_bitsValue (ds : List Bool) {j : Nat} (h : j < 8) :
    bit (BitVec.ofNat 8 (bitsValue ds)) j = ds.getD j false := by
  rw [bit, BitVec.getLsbD_ofNat, testBit_bitsValue]
  simp [h]

/-- The bits of a byte have its value (R184). -/
theorem frameByte_frameBits (v : Byte) : frameByte (frameBits v) = some v := by
  refine congrArg some (BitVec.eq_of_getLsbD_eq fun j hj => (bit_ofNat_bitsValue _ hj).trans ?_)
  interval_cases j <;> rfl

theorem frameByte_eq_some {bs : List Bool} {v : Byte} (h : frameByte bs = some v) : bs = frameBits v := by
  unfold frameByte at h
  split at h
  · cases h
    simp [frameBits, bit_ofNat_bitsValue]
  · cases h

end Engine

/-! ### The obligations -/

/-- Settles O27: TXE's step with SHIFT empty, by whether the engine is on and TXBUF is full. -/
theorem txLoadStep : Obligations.TxLoadStep := by
  intro s es ha hn
  refine ⟨fun hr hsel ht => ?_, fun h => ?_⟩
  · have hload := txeStep_of_not_txifg (s := { s with sched := es }) (State.engineOn_iff.mpr ⟨hr, hsel⟩) hn ht
    exact ⟨_, ha.step_txe.trans (congrArg _ hload), rfl, txLoad_txifg _, txLoad_rxifg _, rfl⟩
  · have hoff : s.engineOn = false ∨ s.txifg = true := by
      rw [State.engineOn_eq_false_iff]
      simpa only [or_assoc] using h
    rcases hoff with ho | ht
    · exact ha.step_txe_off ho
    · exact ha.step_txe.trans (congrArg _ (txeStep_of_txifg (s := { s with sched := es }) hn ht))

/-- Settles O28: TXE's step with a frame in SHIFT, by what `wireOf` shows, and SET_CLOCK's disturbance of that frame. -/
theorem txEmitStep : Obligations.TxEmitStep := by
  intro s es f hs
  refine ⟨fun ha ho => ⟨fun c hok hr hc => ?_, fun hbad => ?_⟩, fun ha hoff => ?_, fun k => ?_⟩
  · rw [ha.step_emit ho hs, State.wireOf_frame hok hr hc]
  · rw [ha.step_emit ho hs, State.wireOf_unreliable hbad]
  · exact ha.step_txe_off (State.engineOn_eq_false_iff.mpr hoff)
  · exact ⟨_, setClockSupported k s, congrArg (Option.map _) hs⟩

/-- Settles O29: the engine is off, and both operations write SWRST by `setSwrst`. -/
theorem resetStopsTransmission : Obligations.ResetStopsTransmission := by
  intro s es
  refine ⟨fun ha h => ha.step_txe_off (State.engineOn_eq_false_iff.mpr (h.imp_right .inl)), fun i hi => ?_⟩
  obtain ⟨t, hx, ht⟩ := exec_resetsPath hi
  exact ⟨t, hx, ht.txifg, ht.shift, ht.txline_of_none, ht.txline_of_some⟩

/-- Settles O30: of a step's effects on the transmit path, only an emission and a reset append to the line. -/
theorem txlineAppendOnly : Obligations.TxlineAppendOnly := by
  intro s t h hne
  cases step_pathStep h with
  | keep _ hl => exact absurd hl hne
  | accept _ _ hl => exact absurd hl hne
  | emit he hf hs _ hl => exact ⟨⟨_, hl⟩, by simp [hf], hs, .inl he⟩
  | reset he hf hd hr =>
    cases hs : s.shift with
    | none => exact absurd (hr.txline_of_none hs) hne
    | some f =>
      refine ⟨?_, nofun, hr.shift, .inr ⟨he, _, hf, hd⟩⟩
      rcases hr.txline_of_some f hs with hl | hl <;> exact ⟨_, hl⟩

/-- Settles O31: each effect of a step on the transmit path keeps the order of its bytes. -/
theorem transmitKeepsOrder : Obligations.TransmitKeepsOrder := by
  intro s t h
  cases step_pathStep h with
  | keep hp hl => exact .inl ⟨hp, hl⟩
  | accept ht hp hl => exact .inr (.inl ⟨ht, hp, hl⟩)
  | emit _ hf _ hp hl => exact .inr (.inr (.inl ⟨_, hf, hp, hl⟩))
  | reset _ _ _ hr => exact .inr (.inr (.inr ⟨hr.pending, hr.swrst⟩))

/-- Settles O32: a byte and its eight bits determine each other, and the sum is the bits' value, below 256. -/
theorem frameBitsInverse : Obligations.FrameBitsInverse := by
  refine ⟨frameByte_frameBits, fun _ _ => frameByte_eq_some, fun d0 d1 d2 d3 d4 d5 d6 d7 => congrArg some ?_⟩
  have hlt : bitsValue [d0, d1, d2, d3, d4, d5, d6, d7] < 2 ^ 8 := bitsValue_lt _
  rw [BitVec.toNat_ofNat, Nat.mod_eq_of_lt hlt]
  simp only [bitsValue]
  omega

end Sys2Proof.Machine
end

section
/-! PROOFS. RX_ARRIVE (O33), the handler's body (O35, O36, O39) and its whole run (O38), UART_RX under both contracts
(O40, O41), and the result it may leave (O59). -/

namespace Sys2Proof.Machine

open Sys2Proof

section Receive

variable {s t : State} {b v : Byte} {block : Bool} {es : List Event}

/-! ### RX_ARRIVE, by case -/

/-- Where the engine is on a byte lands, at the configured rate the one sent (R180, R183). -/
theorem rxArrive_of_engineOn (h : s.engineOn = true) (b : Byte) :
    ∃ v n, (s.rateOk = true → v = b ∧ n = s.draws) ∧ rxArrive b s = { s.land v with draws := n } := by
  rcases rxArrive_cases b s with ⟨_, _, ha⟩ | ⟨v, _, hr, ha⟩ | ⟨ho, _⟩
  · exact ⟨b, s.draws, fun _ => ⟨rfl, rfl⟩, ha⟩
  · exact ⟨v, s.draws + 1, fun h => absurd (hr.symm.trans h) (by decide), ha⟩
  · exact nomatch h.symm.trans ho

theorem rxArrive_of_rateOk (h : s.engineOn = true) (hr : s.rateOk = true) : rxArrive b s = s.land b := by
  simp [rxArrive, h, hr]

theorem rxArrive_of_engineOff (h : s.engineOn = false) : rxArrive b s = s := if_neg (by simp [h])

theorem State.atEvent.step_arrive (h : s.atEvent (.move (.rxArrive b)) es) :
    step s = .next (rxArrive b { s with sched := es }) := by
  obtain ⟨hf, hb, hs⟩ := h
  exact step_of_sched hf hb hs

/-! ### RX_ISR, by its next step -/

theorem State.irqReady_iff :
    s.irqReady = true ↔ s.rxifg = true ∧ s.rxie = true ∧ s.gie = true ∧ s.inIsr = false := by
  simp [State.irqReady, and_assoc]

theorem exec_rxIsr_of_irqReady (h : s.irqReady = true) : exec .rxIsr s = .next s.enterIrq := by
  obtain ⟨_, _, _, hi⟩ := State.irqReady_iff.mp h
  simp [exec, execRxIsr, hi, h]

theorem exec_rxIsr_of_latch (hi : s.inIsr = true) (h : s.imu = .latch) : exec .rxIsr s = .next (isrLatch s) := by
  rw [exec, execRxIsr, if_pos hi, h]

theorem exec_rxIsr_of_ret (hi : s.inIsr = true) (h : s.imu = .ret) : exec .rxIsr s = .next s.returnIrq := by
  rw [exec, execRxIsr, if_pos hi, h]

theorem isrLatch_of_declared (h : s.contract = .declared) :
    isrLatch s = { s with
      slotVal := s.rxbuf, slotFull := true, ifg2 := withBit s.ifg2 0 false, imu := .ret } := by
  simp [isrLatch, State.readRxbuf, State.latch, h]

theorem isrLatch_of_reference (h : s.contract = .reference) :
    isrLatch s = { s with
      slotVal := s.rxbuf, slotFull := true, ifg2 := withBit s.ifg2 0 false, imu := .echo s.rxbuf } := by
  simp [isrLatch, State.readRxbuf, State.latch, h]

theorem State.returnIrq_of_saved {r : SavedFg} (h : s.saved = some r) :
    s.returnIrq = { s with pc := r.pc, mu := r.mu, gie := r.gie, inIsr := false, saved := none } := by
  rw [State.returnIrq, h]

/-- Entry, body and return one after another: FG's place and GIE are those that were saved (R217, R186, R219). -/
theorem returnIrq_isrLatch_enterIrq (hq : s.irqReady = true) (hn : s.saved = none) (hc : s.contract = .declared) :
    (isrLatch s.enterIrq).returnIrq = { s with
      slotFull := true, slotVal := s.rxbuf, ifg2 := withBit s.ifg2 0 false, imu := .ret } := by
  obtain ⟨_, _, _, hi⟩ := State.irqReady_iff.mp hq
  rw [isrLatch_of_declared (s := s.enterIrq) hc, State.returnIrq_of_saved rfl, ← hi, ← hn]
  rfl

/-- In the handler under DECLARED the return follows the body (R186). -/
theorem exec_rxIsr_isrLatch (hi : s.inIsr = true) (hc : s.contract = .declared) :
    exec .rxIsr (isrLatch s) = .next (isrLatch s).returnIrq :=
  exec_rxIsr_of_ret (s := isrLatch s) hi (congrArg State.imu (isrLatch_of_declared hc) :)

/-! ### UART_RX, by micro-step -/

theorem exec_uartRx_declared_of_idle (hc : s.contract = .declared) (hm : s.mu = .idle) :
    exec (.uartRx block) s = .next (rxCheck block s) := by
  rw [exec, execUartRx, hc, hm]

theorem exec_uartRx_declared_of_rxWait (hc : s.contract = .declared) (hm : s.mu = .rxWait) :
    exec (.uartRx block) s = .next (if s.slotFull then rxConsume s else s) := by
  rw [exec, execUartRx, hc, hm]

theorem exec_uartRx_reference_of_idle (hc : s.contract = .reference) (hm : s.mu = .idle) :
    exec (.uartRx block) s = .next { s.emptySlot with mu := .rxWait } := by
  rw [exec, execUartRx, hc, hm]

theorem exec_uartRx_reference_of_rxWait (hc : s.contract = .reference) (hm : s.mu = .rxWait) :
    exec (.uartRx block) s = .next (if s.waitDone then rxReturn s else s) := by
  rw [exec, execUartRx, hc, hm]

theorem rxCheck_of_slotFull (h : s.slotFull = true) : rxCheck block s = rxConsume s := if_pos h

theorem rxCheck_of_not_slotFull (h : s.slotFull = false) :
    rxCheck block s = if block then { s with mu := .rxWait } else (s.setRet noData).advance :=
  if_neg (by simp [h])

theorem State.waitDone_iff :
    s.waitDone = true ↔
      (s.refWait = .nonzero ∧ s.slotVal ≠ 0x00#8) ∨ (s.refWait = .arrival ∧ s.slotFull = true) := by
  unfold State.waitDone
  cases s.refWait <;> simp

theorem State.waitDone_eq_false_iff :
    s.waitDone = false ↔
      (s.refWait = .nonzero ∧ s.slotVal = 0x00#8) ∨ (s.refWait = .arrival ∧ s.slotFull = false) := by
  unfold State.waitDone
  cases s.refWait <;> simp

/-! ### The result UART_RX leaves -/

/-- A zero-extended byte is below 256 (R191). -/
theorem zext16_lt (v : Byte) : (zext16 v).toNat < 256 := by
  rw [zext16, BitVec.toNat_setWidth]
  exact (Nat.mod_le _ _).trans_lt v.isLt

theorem RetInv.of_result_eq (h : RetInv s) (hr : t.result = s.result) (hc : t.contract = s.contract) : RetInv t := by
  obtain ⟨hv, hw⟩ : t.ret = s.ret ∧ t.retWritten = s.retWritten := by
    simpa only [State.result, Prod.mk.injEq] using hr
  unfold RetInv
  rwa [hv, hw, hc]

/-- UART_RX leaves the latched byte, or under DECLARED the sentinel, or the result as it was (R189, R190). -/
theorem execUartRx_retInv (h : RetInv s) (hx : execUartRx block s = .next t) : RetInv t := by
  rcases execUartRx_cases hx with ⟨_, ⟨_, rfl⟩ | ⟨_, _, rfl⟩ | ⟨_, _, _, rfl⟩ | ⟨_, _, _, rfl⟩⟩ |
    ⟨_, ⟨_, _, rfl⟩ | ⟨_, _, rfl⟩ | ⟨_, rfl⟩⟩
  · exact fun _ => .inl (zext16_lt s.slotVal)
  · exact h
  · exact h
  · exact fun _ => .inr ⟨by assumption, rfl⟩
  · exact fun _ => .inl (zext16_lt s.slotVal)
  · exact h
  · exact h

/-- Every agent keeps it, since UART_RX alone writes the result. -/
theorem AgentStep.retInv {e : Event} (ha : AgentStep e s t) (h : RetInv s) : RetInv t := by
  rcases ha.operation_or_frame with ⟨_, _, i, _, _, hi, hx⟩ | ⟨_, hx⟩ | ht
  · rcases exec_result hi hx with hr | ⟨block, rfl⟩
    · exact h.of_result_eq hr (congrArg State.contract (exec_frame hi hx) :)
    · exact execUartRx_retInv h hx
  · have ht := execRxIsr_frame hx
    exact h.of_result_eq (congrArg State.result ht :) (congrArg State.contract ht :)
  · exact h.of_result_eq (congrArg State.result ht :) (congrArg State.contract ht :)

end Receive

/-! ### The steps of the receive path -/

/-- Settles O33: RXE's step by whether the engine is on; the byte that lands sets RXIFG, and OE where RXIFG was 1. -/
theorem arrivalLands : Obligations.ArrivalLands := by
  intro s es b ha
  refine ⟨fun hr hsel => ?_, fun hoff => ?_⟩
  · have ho : ({ s with sched := es } : State).engineOn = true := State.engineOn_iff.mpr ⟨hr, hsel⟩
    obtain ⟨v, n, hv, hland⟩ := rxArrive_of_engineOn ho b
    refine ⟨_, ha.step_arrive.trans (congrArg _ hland), hv, State.land_rxifg _ v, State.land_txifg _ v,
      fun hf => ?_, fun hf => ?_, rfl⟩
    · exact (congrArg (s.oe || ·) hf).trans (Bool.or_true _)
    · exact (congrArg (s.oe || ·) hf).trans (Bool.or_false _)
  · have ho : ({ s with sched := es } : State).engineOn = false := State.engineOn_eq_false_iff.mpr hoff
    exact ha.step_arrive.trans (congrArg _ (rxArrive_of_engineOff ho))

/-- Settles O35: the body's latch, after which the return is next. -/
theorem handlerDeclared : Obligations.HandlerDeclared := by
  intro s hi hm hc
  exact ⟨_, exec_rxIsr_of_latch hi hm, rfl, rfl, s.readRxbuf_rxifg, s.readRxbuf_txifg, isrLatch_of_declared hc⟩

/-- Settles O36: the body's latch, after which the echo is next, and TXWRITE by its three cases. -/
theorem handlerReference : Obligations.HandlerReference := by
  intro s hi
  refine ⟨fun hm hc => ?_, fun b hm ht hr => ?_, fun b hm ht hr => ?_, fun b hm ht => ?_⟩
  · exact ⟨_, exec_rxIsr_of_latch hi hm, s.readRxbuf_rxifg, s.readRxbuf_txifg, isrLatch_of_reference hc⟩
  · exact ⟨_, (exec_rxIsr_of_echo hi hm).trans (congrArg _ (txWrite_of_not_swrst ht hr)),
      s.storeTxbuf_txifg b, s.storeTxbuf_rxifg b, rfl⟩
  · obtain ⟨u, hu, hw⟩ := txWrite_of_swrst ht hr .isr b fun t => { t with imu := .ret }
    exact ⟨_, (exec_rxIsr_of_echo hi hm).trans (congrArg _ hw), hu.outcome,
      congrArg (fun t : State => { t with imu := .ret }) hu.frame⟩
  · exact (exec_rxIsr_of_echo hi hm).trans (congrArg _ (txWrite_of_not_txifg ht))

/-- Settles O39: the latch writes SLOT without reading it. -/
theorem latchForgetsOlderByte : Obligations.LatchForgetsOlderByte := by
  intro s full v hi hm
  exact ⟨_, exec_rxIsr_of_latch hi hm, rfl, rfl,
    exec_rxIsr_of_latch (s := { s with slotFull := full, slotVal := v }) hi hm⟩

/-- Settles O38: entry saves FG's place and GIE, the body latches, and the return restores what was saved. -/
theorem interruptIsTransparent : Obligations.InterruptIsTransparent := by
  intro s hq hn hc
  rw [runMicro_succ_of_exec (exec_rxIsr_of_irqReady hq), runMicro_succ_of_exec (exec_rxIsr_of_latch rfl rfl),
    runMicro_succ_of_exec (exec_rxIsr_isrLatch (s := s.enterIrq) rfl hc), returnIrq_isrLatch_enterIrq hq hn hc]
  rfl

/-- Settles O40: the micro-step at UART_RX's start and the one in its wait, by the latch. -/
theorem uartRxDeclared : Obligations.UartRxDeclared := by
  intro s block hc
  refine ⟨fun hm hf => ?_, fun hm hf hb => ?_, fun hm hf hb => ?_, fun hm hf => ?_⟩
  · rcases hm with hm | hm
    · exact (exec_uartRx_declared_of_idle hc hm).trans (congrArg _ (rxCheck_of_slotFull hf))
    · exact (exec_uartRx_declared_of_rxWait hc hm).trans (congrArg _ (if_pos hf))
  · rw [exec_uartRx_declared_of_idle hc hm, rxCheck_of_not_slotFull hf, hb]
    rfl
  · rw [exec_uartRx_declared_of_idle hc hm, rxCheck_of_not_slotFull hf, hb]
    rfl
  · rw [exec_uartRx_declared_of_rxWait hc hm, hf]
    rfl

/-- Settles O41: the micro-step that empties the slot, and the wait by its condition; none asks for `block`. -/
theorem uartRxReference : Obligations.UartRxReference := by
  intro s block hc
  refine ⟨fun hm => exec_uartRx_reference_of_idle hc hm, fun hm hw => ?_, fun hm hw => ?_⟩
  · rw [exec_uartRx_reference_of_rxWait hc hm, State.waitDone_iff.mpr hw]
    rfl
  · rw [exec_uartRx_reference_of_rxWait hc hm, State.waitDone_eq_false_iff.mpr hw]
    rfl

/-- Settles O59: the step's agent keeps the invariant. -/
theorem retIsByteOrSentinel : Obligations.RetIsByteOrSentinel := by
  intro s t h hx
  obtain ⟨_, ⟨_, _, rfl⟩ | ⟨_, _, ha⟩⟩ := step_agent hx
  · exact h
  · exact ha.retInv h

end Sys2Proof.Machine
end

section
/-! PROOFS. A receive sequence under DECLARED on one schedule (O42): a byte with its interrupt, and UART_RX with the
latch full, empty, and waiting. -/

namespace Sys2Proof.Machine

open Sys2Proof

section Receiving

variable {s t : State} {b : Byte} {block : Bool} {w : Word} {es : List Event}

/-! ### An interrupt on scheduled steps -/

theorem State.atEvent_of_ctl0 {e : Event} (hf : s.faults = []) (h0 : s.ctl0 = 0x00#8) (hs : s.sched = e :: es) :
    s.atEvent e es :=
  ⟨hf, by simp [State.badFormat, h0], hs⟩

theorem run_isr_succ (hf : s.faults = []) (h0 : s.ctl0 = 0x00#8) (hs : s.sched = .move .isr :: es)
    (hx : exec .rxIsr { s with sched := es } = .next t) (n : Nat) :
    Sys2Proof.core.run (n + 1) s = Sys2Proof.core.run n t :=
  core_run_succ ((stepDispatchesHandler s es (State.atEvent_of_ctl0 hf h0 hs)).trans hx) n

/-- An interrupt under DECLARED on three steps in a row (R186, R217, R219). -/
theorem run_interrupt (hq : s.irqReady = true) (hn : s.saved = none) (hc : s.contract = .declared)
    (hf : s.faults = []) (h0 : s.ctl0 = 0x00#8) (hs : s.sched = .move .isr :: .move .isr :: .move .isr :: es)
    (n : Nat) :
    Sys2Proof.core.run (n + 3) s = Sys2Proof.core.run n { s with
      slotFull := true, slotVal := s.rxbuf, ifg2 := withBit s.ifg2 0 false, imu := .ret, sched := es } := by
  rw [← returnIrq_isrLatch_enterIrq (s := { s with sched := es }) hq hn hc]
  have hentry := run_isr_succ hf h0 hs (exec_rxIsr_of_irqReady (s := { s with sched := _ }) hq) (n + 2)
  have hbody := run_isr_succ (s := ({ s with sched := .move .isr :: .move .isr :: es } : State).enterIrq) hf h0 rfl
    (exec_rxIsr_of_latch (s := ({ s with sched := .move .isr :: es } : State).enterIrq) rfl rfl) (n + 1)
  have hret := run_isr_succ (s := isrLatch ({ s with sched := .move .isr :: es } : State).enterIrq) hf h0 rfl
    (exec_rxIsr_isrLatch (s := ({ s with sched := es } : State).enterIrq) rfl hc) n
  exact hentry.trans (hbody.trans hret)

/-! ### Receiving -/

/-- Of two writes of a bit the later one counts (R77). -/
theorem withBit_withBit (r : Byte) {i : Nat} (hi : i < 8) (a b : Bool) :
    withBit (withBit r i a) i b = withBit r i b := by
  apply BitVec.eq_of_getLsbD_eq
  intro j _
  show bit (withBit (withBit r i a) i b) j = bit (withBit r i b) j
  rw [bit_withBit _ _ _ _ hi, bit_withBit _ _ _ _ hi, bit_withBit _ _ _ _ hi]
  split <;> rfl

/-- Bytes arrive undisturbed under DECLARED, no byte is pending, and the interrupt may be taken (R180, R216): what R195
asks before each of its arrivals, and what the reads between them keep. -/
structure Receiving (s : State) : Prop where
  declared : s.contract = .declared
  noFault : s.faults = []
  notRefused : s.refused = none
  ctl0 : s.ctl0 = 0x00#8
  engine : s.engineOn = true
  rateOk : s.rateOk = true
  rxie : s.rxie = true
  rxifg : s.rxifg = false
  gie : s.gie = true
  notInIsr : s.inIsr = false
  notSaved : s.saved = none

/-- What a byte with its interrupt and UART_RX may change is no part of `Receiving`. -/
theorem Receiving.of_frame (h : Receiving s)
    (ht : t = { s with
      rxbuf := t.rxbuf, slotFull := t.slotFull, slotVal := t.slotVal, imu := t.imu, ret := t.ret,
      retWritten := t.retWritten, pc := t.pc, mu := t.mu, sched := t.sched }) : Receiving t := by
  rw [ht]
  exact ⟨h.declared, h.noFault, h.notRefused, h.ctl0, h.engine, h.rateOk, h.rxie, h.rxifg, h.gie, h.notInIsr,
    h.notSaved⟩

theorem Receiving.atEvent {e : Event} (h : Receiving s) (hs : s.sched = e :: es) : s.atEvent e es :=
  State.atEvent_of_ctl0 h.noFault h.ctl0 hs

theorem Receiving.atOperation (h : Receiving s) (hw : s.prog[s.pc]? = some w)
    (hd : decodeProgramWord w = .ok (.uartRx block)) : s.atOperation (.uartRx block) :=
  ⟨h.notRefused, h.notInIsr, w, hw, hd⟩

/-- A byte lands without an overrun (R180, R181). -/
theorem Receiving.step_arrive (h : Receiving s) (hs : s.sched = .move (.rxArrive b) :: es) :
    step s = .next { s with rxbuf := b, ifg2 := withBit s.ifg2 0 true, sched := es } := by
  rw [(h.atEvent hs).step_arrive, rxArrive_of_rateOk (s := { s with sched := es }) h.engine h.rateOk]
  have hoe : (s.oe || s.rxifg) = s.oe := by rw [h.rxifg, Bool.or_false]
  exact congrArg (fun o => Host.Outcome.next
    { s with oe := o, rxbuf := b, ifg2 := withBit s.ifg2 0 true, sched := es }) hoe

/-- A byte arrives and its interrupt runs: the byte is in the latch, and none is pending (R180, R186). -/
theorem Receiving.run_receive (h : Receiving s) (hs : s.sched = receiveEvents b ++ es) (n : Nat) :
    Sys2Proof.core.run (n + 4) s = Sys2Proof.core.run n
      { s with rxbuf := b, slotFull := true, slotVal := b, imu := .ret, sched := es } := by
  have hq (l : List Event) :
      ({ s with rxbuf := b, ifg2 := withBit s.ifg2 0 true, sched := l } : State).irqReady = true :=
    State.irqReady_iff.mpr ⟨s.land_rxifg b, h.rxie, h.gie, h.notInIsr⟩
  have hifg : withBit (withBit s.ifg2 0 true) 0 false = s.ifg2 := by
    rw [withBit_withBit _ (by decide), ← show bit s.ifg2 0 = false from h.rxifg, withBit_bit _ _ (by decide)]
  refine (core_run_succ (h.step_arrive hs) (n + 3)).trans
    ((run_interrupt (hq _) h.notSaved h.declared h.noFault h.ctl0 rfl n).trans ?_)
  rw [hifg]
  rfl

/-- FG's UART_RX has returned `v`: FG is at the next operation, and the latch is empty (R189). -/
structure Returned (v : Half) (es : List Event) (s t : State) : Prop where
  receiving : Receiving t
  ret : t.ret = v
  retWritten : t.retWritten = true
  slotFull : t.slotFull = false
  pc : t.pc = s.pc + 1
  mu : t.mu = .idle
  prog : t.prog = s.prog
  sched : t.sched = es

theorem Receiving.step_fg (h : Receiving s) (hop : s.atOperation (.uartRx block)) (hs : s.sched = .move .fg :: es) :
    step s = exec (.uartRx block) { s with sched := es } :=
  stepPerformsOperationAtPc s es _ (h.atEvent hs) hop

/-- A byte arrives, its interrupt runs, and UART_RX returns it, whether it was about to begin or waiting (R189). -/
theorem Receiving.run_receive_read (h : Receiving s) (hop : s.atOperation (.uartRx block))
    (hm : s.mu = .idle ∨ s.mu = .rxWait) (hs : s.sched = receiveEvents b ++ (.move .fg :: es)) :
    ∃ t, Sys2Proof.core.run 5 s = .next t ∧ Returned (b.setWidth 16) es s t := by
  have hfull : Receiving
      { s with rxbuf := b, slotFull := true, slotVal := b, imu := .ret, sched := .move .fg :: es } := h.of_frame rfl
  obtain ⟨hread, _⟩ := uartRxDeclared
    { s with rxbuf := b, slotFull := true, slotVal := b, imu := .ret, sched := es } block h.declared
  exact ⟨_, (h.run_receive hs 1).trans (core_run_succ ((hfull.step_fg hop rfl).trans (hread hm rfl)) 0),
    h.of_frame rfl, rfl, rfl, rfl, rfl, rfl, rfl, rfl⟩

/-- A non-blocking read with the latch empty returns the sentinel (R189, R191). -/
theorem Receiving.run_noData (h : Receiving s) (hop : s.atOperation (.uartRx false)) (hm : s.mu = .idle)
    (hf : s.slotFull = false) (hs : s.sched = .move .fg :: es) :
    ∃ t, Sys2Proof.core.run 1 s = .next t ∧ Returned 0xFFFF#16 es s t := by
  obtain ⟨_, hnone, _⟩ := uartRxDeclared { s with sched := es } false h.declared
  exact ⟨_, core_run_succ ((h.step_fg hop hs).trans (hnone hm hf rfl)) 0,
    h.of_frame rfl, rfl, rfl, hf, rfl, rfl, rfl, rfl⟩

/-- The wait holds FG however often it is scheduled, by induction on the number of its steps (R189). -/
theorem Receiving.run_hold (n : Nat) (h : Receiving s) (hop : s.atOperation (.uartRx true)) (hm : s.mu = .rxWait)
    (hf : s.slotFull = false) (hs : s.sched = List.replicate n (.move .fg) ++ es) :
    Sys2Proof.core.run n s = .next { s with sched := es } := by
  induction n generalizing s with
  | zero => exact congrArg (fun l => Host.Outcome.next { s with sched := l }) hs
  | succ n ih =>
    obtain ⟨_, _, _, hhold⟩ :=
      uartRxDeclared { s with sched := List.replicate n (.move .fg) ++ es } true h.declared
    exact (core_run_succ ((h.step_fg hop hs).trans (hhold hm hf)) n).trans (ih (h.of_frame rfl) hop hm hf rfl)

/-- A blocking read with the latch empty begins to wait, and waits on (R189). -/
theorem Receiving.run_wait (h : Receiving s) (hop : s.atOperation (.uartRx true)) (hm : s.mu = .idle)
    (hf : s.slotFull = false) {n : Nat} (hs : s.sched = List.replicate (n + 1) (.move .fg) ++ es) :
    Sys2Proof.core.run (n + 1) s = .next { s with mu := .rxWait, sched := es } := by
  obtain ⟨_, _, hwait, _⟩ :=
    uartRxDeclared { s with sched := List.replicate n (.move .fg) ++ es } true h.declared
  refine (core_run_succ ((h.step_fg hop hs).trans (hwait hm hf rfl)) n).trans ?_
  exact Receiving.run_hold n (h.of_frame rfl) hop rfl hf rfl

end Receiving

/-- Settles O42: the first read finds the byte in the latch, the second finds it empty, and the third waits for the next
byte; none of them changes what a further arrival asks for. -/
theorem declaredReceiveSequence : Obligations.DeclaredReceiveSequence := by
  intro s b c n es hc hf hr h0 he hrate hrxie hrxifg hg hi hn _ hm hp0 hp1 hp2 hs
  have h : Receiving s := ⟨hc, hf, hr, h0, he, hrate, hrxie, hrxifg, hg, hi, hn⟩
  obtain ⟨t, hrunt, ht⟩ := h.run_receive_read (h.atOperation (block := false) hp0 rfl) (.inl hm) hs
  have hopt : t.atOperation (.uartRx false) := ht.receiving.atOperation (by rwa [ht.prog, ht.pc]) rfl
  obtain ⟨u, hrunu, hu⟩ := ht.receiving.run_noData hopt ht.mu ht.slotFull ht.sched
  have hpu : u.pc = s.pc + 2 := by rw [hu.pc, ht.pc]
  have hopu : u.atOperation (.uartRx true) := hu.receiving.atOperation (by rwa [hu.prog, ht.prog, hpu]) rfl
  have hrunv := hu.receiving.run_wait hopu hu.mu hu.slotFull hu.sched
  have hv : Receiving { u with mu := .rxWait, sched := receiveEvents c ++ (.move .fg :: es) } :=
    hu.receiving.of_frame rfl
  obtain ⟨w, hrunw, hw⟩ := hv.run_receive_read hopu (.inr rfl) rfl
  exact ⟨t, u, _, w, hrunt, ht.ret, ht.pc, ht.retWritten, hrunu, hu.ret, hpu, hrunv, rfl, hpu, hu.ret, hrunw, hw.ret,
    hw.pc.trans (congrArg (· + 1) hpu), hw.mu, hw.slotFull, hw.receiving.gie, hw.receiving.noFault, hw.sched⟩

end Sys2Proof.Machine
end

section
/-! PROOFS. The end of a run (O8), the interrupt's entry (O34) and its return (O37). -/

namespace Sys2Proof.Machine

open Sys2Proof

section Exceptions

variable {s : State} {es : List Event}

/-! ### The end of a run -/

theorem step_of_fault {f : Fault} {fs : List Fault} (h : s.faults = f :: fs) : step s = .fault f := by
  rw [step, machineStep, h]

theorem State.noFault_iff : s.noFault = true ↔ s.faults = [] ∧ s.refused = none := by
  simp [State.noFault]

theorem State.drained_iff : s.drained = true ↔ s.txifg = true ∧ s.shift = none := by
  simp [State.drained]

/-- No interrupt is left to be taken exactly where one of the three bits of R216 is 0. -/
theorem State.interrupt_bits_eq_false_iff :
    (s.rxifg && s.rxie && s.gie) = false ↔ s.rxifg = false ∨ s.rxie = false ∨ s.gie = false := by
  rw [Bool.and_eq_false_iff, Bool.and_eq_false_iff, or_assoc]

theorem State.endedWell_iff :
    s.endedWell = true ↔
      s.pc = s.prog.length ∧ s.mu = .idle ∧ s.inIsr = false ∧ s.faults = [] ∧ s.refused = none ∧
      (s.swrst = true ∨ (s.txifg = true ∧ s.shift = none)) ∧
      (s.rxifg = false ∨ s.rxie = false ∨ s.gie = false) := by
  simp only [State.endedWell, Bool.and_eq_true, Bool.or_eq_true, Bool.not_eq_true', beq_iff_eq,
    State.noFault_iff, State.drained_iff, State.interrupt_bits_eq_false_iff, and_assoc]

/-- FG can be stuck at an unadmitted read only, inside PUT_STR (R153, R210). -/
theorem State.fgStuck_mu (h : s.fgStuck = true) : ∃ i, s.mu = .strRead i := by
  unfold State.fgStuck at h
  split at h
  case h_1 i _ hm => exact ⟨i, hm⟩
  case h_2 => cases h

/-! ### The interrupt context -/

/-- Outside the handler the interrupt context does nothing without its condition (R216). -/
theorem exec_rxIsr_of_not_irqReady (hi : s.inIsr = false) (h : s.irqReady = false) : exec .rxIsr s = .next s := by
  simp [exec, execRxIsr, hi, h]

/-- Where one of the three bits of R216 is 0 the interrupt is not ready, whatever IN_ISR. -/
theorem State.irqReady_eq_false (h : s.rxifg = false ∨ s.rxie = false ∨ s.gie = false) : s.irqReady = false := by
  rw [State.irqReady, State.interrupt_bits_eq_false_iff.mpr h, Bool.false_and]

/-- The handler preempts FG (R217). -/
theorem fgStep_of_inIsr (h : s.inIsr = true) : fgStep s = .next s := if_pos h

theorem State.atEvent.step_fg (h : s.atEvent (.move .fg) es) : step s = fgStep { s with sched := es } := by
  obtain ⟨hf, hb, hs⟩ := h
  exact step_of_sched hf hb hs

end Exceptions

/-! ### The statements -/

/-- Settles O8: a fault answers before the schedule is read and fails R255's list; a stuck read leaves mu inside
PUT_STR, where R255 wants Idle. -/
theorem faultedStateHasNoStep : Obligations.FaultedStateHasNoStep := by
  refine ⟨fun s f fs hf => ⟨step_of_fault hf, Bool.eq_false_iff.mpr fun he => ?_⟩, fun s => State.endedWell_iff,
    fun s hstuck => Bool.eq_false_iff.mpr fun he => ?_⟩
  · obtain ⟨_, _, _, hnone, _⟩ := State.endedWell_iff.mp he
    exact nomatch hf.symm.trans hnone
  · obtain ⟨_, hidle, _⟩ := State.endedWell_iff.mp he
    obtain ⟨i, hread⟩ := State.fgStuck_mu hstuck
    exact nomatch hread.symm.trans hidle

/-- Settles O34: the entry under R216's condition, no step without it, and FG preempted by the handler. -/
theorem interruptEntry : Obligations.InterruptEntry := by
  refine fun s => ⟨fun hi hflag hie hgie => ?_, fun hi hoff => ?_, fun es hi ha => ?_⟩
  · exact exec_rxIsr_of_irqReady (State.irqReady_iff.mpr ⟨hflag, hie, hgie, hi⟩)
  · exact exec_rxIsr_of_not_irqReady hi (State.irqReady_eq_false hoff)
  · exact ha.step_fg.trans (fgStep_of_inIsr hi)

/-- Settles O37: the handler's next step is the return, and SAVED holds FG's place. -/
theorem interruptReturn : Obligations.InterruptReturn := by
  intro s r hi hm hsaved
  rw [exec_rxIsr_of_ret hi hm, State.returnIrq_of_saved hsaved]

end Sys2Proof.Machine
end

section
/-! PROOFS. The mode after reset (O45). -/

namespace Sys2Proof.Machine

open Sys2Proof

/-- Settles O45: outside the handler GIE = 0 alone keeps the interrupt from being ready (R216), whatever RXIFG. -/
theorem resetTakesNoInterrupt : Obligations.ResetTakesNoInterrupt := by
  have hgie : State.reset.gie = false := rfl
  have hisr : State.reset.inIsr = false := rfl
  refine ⟨rfl, hisr, hgie, rfl, fun _ => exec_rxIsr_of_not_irqReady hisr ?_⟩
  exact State.irqReady_eq_false (.inr (.inr hgie))

end Sys2Proof.Machine
end
